-- ==== Sys2Proof/Word.lean ====
section
/-! DEFINITION. Word.lean: the fixed-width values of the CABAC core's interface (spec/00_scope.md R13, R19). -/

namespace Sys2Proof

/-- A command word, an operand word or a result word: 32 bits (00_scope.md R13, R17). -/
abbrev Word := BitVec 32

/-- A byte of a bitstream buffer, a coding mode, a syntax element or a category: 8 bits (00_scope.md R13). -/
abbrev Byte := BitVec 8

/-- A bin or a bitstream bit, `true` standing for 1 (00_scope.md R24). -/
abbrev Bit := Bool

end Sys2Proof
end

