-- ==== Sys2Proof/Syntax.lean ====
section
/-! DEFINITION. Syntax.lean: the command as the caller presents it (spec/30_encoding.md R100) and the 22 commands of
spec/opcode_table.json. -/

namespace Sys2Proof

/-- The list operand of a command: at most one of `IN`, a list of bytes, and `BIN_IN`, a list of 32-bit words
(30_encoding.md R100). -/
inductive ListOperand where
  | absent
  | bytes (l : List Byte)
  | words (l : List Word)
deriving DecidableEq, Repr

/-- What the caller presents in one step: the command word `CMD`, the operand words `A` and `B`, and the list operand
(00_scope.md R17, 30_encoding.md R100). -/
structure Command where
  cmd : Word
  a : Word
  b : Word
  list : ListOperand
deriving DecidableEq, Repr

/-- Why a command word is no command: the causes of class `IllegalCommand` (30_encoding.md R107, 60_exceptions.md
R315), in the order they are checked. -/
inductive Illegal where
  | badOpcode
  | reservedBits
  | badScheme
  | badSelector
deriving DecidableEq, Repr

/-- The commands, one constructor per row of opcode_table.json, each with the operands its row of 30_encoding.md R103
reads; an operand the row calls ignored is no field (log 7). -/
inductive Instr where
  /-- `ENC.INIT mode` (42_encoder.md R200). -/
  | encInit (mode : Byte)
  /-- `ENC.REG ctx, #bin` (42_encoder.md R202). -/
  | encReg (ctx : BitVec 16) (bin : Word)
  /-- `ENC.BYP #bin` (42_encoder.md R207). -/
  | encByp (bin : Word)
  /-- `ENC.FIN` (43_bit_sink.md R235). -/
  | encFin
  /-- `DEC.INIT mode[, #count], IN`; `declared` is `some A` when `HC = 1`, `none` when `HC = 0` (44_decoder.md R260). -/
  | decInit (mode : Byte) (declared : Option Word) (input : List Byte)
  /-- `DEC.REG ctx` (44_decoder.md R263). -/
  | decReg (ctx : BitVec 16)
  /-- `DEC.BYP` (44_decoder.md R265). -/
  | decByp
  /-- `DEC.END` (44_decoder.md R266). -/
  | decEnd
  /-- `CTX.SEL se, cat, #binIdx` (41_context.md R177). -/
  | ctxSel (se : Byte) (cat : Byte) (binIdx : Word)
  /-- `CTX.RD ctx` (41_context.md R179). -/
  | ctxRd (ctx : BitVec 16)
  /-- `BIN.U #v` (40_binarizer.md R133). -/
  | binU (value : Word)
  /-- `BIN.TU #v, #c` (40_binarizer.md R134). -/
  | binTu (value : Word) (cutoff : Word)
  /-- `BIN.EGU #v, #k` (40_binarizer.md R135). -/
  | binEgu (value : Word) (order : Word)
  /-- `BIN.EGS #v, #k` (40_binarizer.md R136). -/
  | binEgs (value : Word) (order : Word)
  /-- `BIN.FL #v, #len` (40_binarizer.md R137). -/
  | binFl (value : Word) (length : Word)
  /-- `DEBIN.U "bins"` (40_binarizer.md R140). -/
  | debinU (bins : List Word)
  /-- `DEBIN.TU #c, "bins"` (40_binarizer.md R141). -/
  | debinTu (cutoff : Word) (bins : List Word)
  /-- `DEBIN.EGU #k, "bins"` (40_binarizer.md R142). -/
  | debinEgu (order : Word) (bins : List Word)
  /-- `DEBIN.EGS #k, "bins"` (40_binarizer.md R143). -/
  | debinEgs (order : Word) (bins : List Word)
  /-- `DEBIN.FL #len, "bins"` (40_binarizer.md R144). -/
  | debinFl (length : Word) (bins : List Word)
  /-- `ABORT` (45_session.md R292). -/
  | abort
  /-- `STAT sel` (45_session.md R293). -/
  | stat (sel : BitVec 4)
deriving DecidableEq, Repr

end Sys2Proof
end

