-- ==== Sys2Proof/WellFormed.lean ====
section
/-! DEFINITION. WellFormed.lean: which terms of `Instr` are commands. Every field has exactly the width the encoding
gives it (spec/30_encoding.md R101, R102), so the one check left is the selector of `STAT`. -/

namespace Sys2Proof

/-- A command that some legal command word encodes: `STAT` has selectors 0 to 7 only (30_encoding.md R106); every value
of every other field is legal (R102, R103). -/
def Instr.wellFormed : Instr → Bool
  | .encInit _ => true
  | .encReg _ _ => true
  | .encByp _ => true
  | .encFin => true
  | .decInit _ _ _ => true
  | .decReg _ => true
  | .decByp => true
  | .decEnd => true
  | .ctxSel _ _ _ => true
  | .ctxRd _ => true
  | .binU _ => true
  | .binTu _ _ => true
  | .binEgu _ _ => true
  | .binEgs _ _ => true
  | .binFl _ _ => true
  | .debinU _ => true
  | .debinTu _ _ => true
  | .debinEgu _ _ => true
  | .debinEgs _ _ => true
  | .debinFl _ _ => true
  | .abort => true
  | .stat sel => decide (sel.toNat < 8)

end Sys2Proof
end

