-- ==== Sys2Proof/Decode.lean ====
section
/-! DEFINITION. Decode.lean: the command word's decoder and encoder (spec/30_encoding.md R101 to R110), and the
assembler's pseudo-commands (R111). -/

namespace Sys2Proof

/-- The operations of the opcode map (30_encoding.md R104): `BIN.*` and `DEBIN.*` are one opcode each. -/
inductive Opcode where
  | encInit | encReg | encByp | encFin | decInit | decReg | decByp | decEnd | ctxSel | ctxRd | bin | debin | abort | stat
deriving DecidableEq, Repr

/-- The formats of 30_encoding.md R101. -/
inductive Format where
  | n | m | mc | c | s | b | t
deriving DecidableEq, Repr

/-- The opcode map; every opcode not in it is illegal (30_encoding.md R104). -/
def Opcode.ofByte (opc : Byte) : Option Opcode :=
  match opc.toNat with
  | 0x01 => some .encInit
  | 0x02 => some .encReg
  | 0x03 => some .encByp
  | 0x04 => some .encFin
  | 0x05 => some .decInit
  | 0x06 => some .decReg
  | 0x07 => some .decByp
  | 0x08 => some .decEnd
  | 0x09 => some .ctxSel
  | 0x0A => some .ctxRd
  | 0x0B => some .bin
  | 0x0C => some .debin
  | 0x0D => some .abort
  | 0x0E => some .stat
  | _ => none

/-- The opcode's number, `CMD[31:24]` (30_encoding.md R104). -/
def Opcode.code : Opcode → Byte
  | .encInit => 0x01
  | .encReg => 0x02
  | .encByp => 0x03
  | .encFin => 0x04
  | .decInit => 0x05
  | .decReg => 0x06
  | .decByp => 0x07
  | .decEnd => 0x08
  | .ctxSel => 0x09
  | .ctxRd => 0x0A
  | .bin => 0x0B
  | .debin => 0x0C
  | .abort => 0x0D
  | .stat => 0x0E

/-- The opcode's format (30_encoding.md R101, last column). -/
def Opcode.format : Opcode → Format
  | .encInit => .m
  | .encReg => .c
  | .encByp => .n
  | .encFin => .n
  | .decInit => .mc
  | .decReg => .c
  | .decByp => .n
  | .decEnd => .n
  | .ctxSel => .s
  | .ctxRd => .c
  | .bin => .b
  | .debin => .b
  | .abort => .n
  | .stat => .t

/-- The bits a format reserves: a 1 for each bit that must be 0 (30_encoding.md R101). -/
def Format.reserved : Format → Word
  | .n => 0x00FFFFFF
  | .m => 0x0000FFFF
  | .mc => 0x0000FFFE
  | .c => 0x00FF0000
  | .s => 0x000000FF
  | .b => 0x00FFFFF8
  | .t => 0x00FFFFF0

/-- `OPC = CMD[31:24]` (30_encoding.md R101). -/
def opcField (cmd : Word) : Byte := cmd.extractLsb' 24 8

/-- `CMD[23:16]`: `MODE` of the formats M and MC, `SE` of the format S (30_encoding.md R101). -/
def hiField (cmd : Word) : Byte := cmd.extractLsb' 16 8

/-- `CMD[15:8]`: `CAT` of the format S (30_encoding.md R101). -/
def catField (cmd : Word) : Byte := cmd.extractLsb' 8 8

/-- `CMD[15:0]`: `CTX` of the format C (30_encoding.md R101). -/
def ctxField (cmd : Word) : BitVec 16 := cmd.extractLsb' 0 16

/-- `CMD[0]`: `HC` of the format MC (30_encoding.md R101). -/
def hcField (cmd : Word) : Bool := cmd.getLsbD 0

/-- `CMD[2:0]`: `SCH` of the format B (30_encoding.md R101). -/
def schField (cmd : Word) : BitVec 3 := cmd.extractLsb' 0 3

/-- `CMD[3:0]`: `SEL` of the format T (30_encoding.md R101). -/
def selField (cmd : Word) : BitVec 4 := cmd.extractLsb' 0 4

/-- `IN`: a command that takes a list and is given none reads `[]` (30_encoding.md R103; a list of the other kind is no
`IN`, log 6). -/
def ListOperand.asBytes : ListOperand → List Byte
  | .bytes l => l
  | _ => []

/-- `BIN_IN`, read as `IN` is. -/
def ListOperand.asWords : ListOperand → List Word
  | .words l => l
  | _ => []

/-- The command that `BIN` with scheme `SCH` names; codes 5 to 7 are illegal (30_encoding.md R105). -/
def decodeBin (c : Command) : Except Illegal Instr :=
  match (schField c.cmd).toNat with
  | 0 => .ok (.binU c.a)
  | 1 => .ok (.binTu c.a c.b)
  | 2 => .ok (.binEgu c.a c.b)
  | 3 => .ok (.binEgs c.a c.b)
  | 4 => .ok (.binFl c.a c.b)
  | _ => .error .badScheme

/-- The command that `DEBIN` with scheme `SCH` names; codes 5 to 7 are illegal (30_encoding.md R105). -/
def decodeDebin (c : Command) : Except Illegal Instr :=
  match (schField c.cmd).toNat with
  | 0 => .ok (.debinU c.list.asWords)
  | 1 => .ok (.debinTu c.b c.list.asWords)
  | 2 => .ok (.debinEgu c.b c.list.asWords)
  | 3 => .ok (.debinEgs c.b c.list.asWords)
  | 4 => .ok (.debinFl c.b c.list.asWords)
  | _ => .error .badScheme

/-- `STAT`; selectors 8 to 15 are illegal (30_encoding.md R106). -/
def decodeStat (c : Command) : Except Illegal Instr :=
  if (selField c.cmd).toNat < 8 then .ok (.stat (selField c.cmd)) else .error .badSelector

/-- The command of a word whose opcode is `op` and whose reserved bits are 0, with the operands R103 reads. -/
def decodeFields (op : Opcode) (c : Command) : Except Illegal Instr :=
  match op with
  | .encInit => .ok (.encInit (hiField c.cmd))
  | .encReg => .ok (.encReg (ctxField c.cmd) c.a)
  | .encByp => .ok (.encByp c.a)
  | .encFin => .ok .encFin
  | .decInit =>
    .ok (.decInit (hiField c.cmd) (if hcField c.cmd then some c.a else none) c.list.asBytes)
  | .decReg => .ok (.decReg (ctxField c.cmd))
  | .decByp => .ok .decByp
  | .decEnd => .ok .decEnd
  | .ctxSel => .ok (.ctxSel (hiField c.cmd) (catField c.cmd) c.a)
  | .ctxRd => .ok (.ctxRd (ctxField c.cmd))
  | .bin => decodeBin c
  | .debin => decodeDebin c
  | .abort => .ok .abort
  | .stat => decodeStat c

/-- The decoder: opcode, then reserved bits, then scheme or selector, the first check that fails naming the cause
(30_encoding.md R107). -/
def decode (c : Command) : Except Illegal Instr :=
  match Opcode.ofByte (opcField c.cmd) with
  | none => .error .badOpcode
  | some op => if c.cmd &&& op.format.reserved = 0 then decodeFields op c else .error .reservedBits

/-! ### The encoder -/

/-- The opcode a command is encoded with (30_encoding.md R104). -/
def Instr.opcode : Instr → Opcode
  | .encInit _ => .encInit
  | .encReg _ _ => .encReg
  | .encByp _ => .encByp
  | .encFin => .encFin
  | .decInit _ _ _ => .decInit
  | .decReg _ => .decReg
  | .decByp => .decByp
  | .decEnd => .decEnd
  | .ctxSel _ _ _ => .ctxSel
  | .ctxRd _ => .ctxRd
  | .binU _ => .bin
  | .binTu _ _ => .bin
  | .binEgu _ _ => .bin
  | .binEgs _ _ => .bin
  | .binFl _ _ => .bin
  | .debinU _ => .debin
  | .debinTu _ _ => .debin
  | .debinEgu _ _ => .debin
  | .debinEgs _ _ => .debin
  | .debinFl _ _ => .debin
  | .abort => .abort
  | .stat _ => .stat

/-- The command word's bits 23:0, by format (30_encoding.md R101, R105, R110). -/
def Instr.fields : Instr → BitVec 24
  | .encInit mode => mode ++ 0#16
  | .encReg ctx _ => 0#8 ++ ctx
  | .encByp _ => 0
  | .encFin => 0
  | .decInit mode declared _ => mode ++ 0#15 ++ BitVec.ofBool declared.isSome
  | .decReg ctx => 0#8 ++ ctx
  | .decByp => 0
  | .decEnd => 0
  | .ctxSel se cat _ => se ++ cat ++ 0#8
  | .ctxRd ctx => 0#8 ++ ctx
  | .binU _ => 0
  | .binTu _ _ => 1
  | .binEgu _ _ => 2
  | .binEgs _ _ => 3
  | .binFl _ _ => 4
  | .debinU _ => 0
  | .debinTu _ _ => 1
  | .debinEgu _ _ => 2
  | .debinEgs _ _ => 3
  | .debinFl _ _ => 4
  | .abort => 0
  | .stat sel => 0#20 ++ sel

/-- The command word (30_encoding.md R101). -/
def encodeWord (i : Instr) : Word := i.opcode.code ++ i.fields

/-- Operand word `A`; an operand word the syntax does not name is encoded as 0 (30_encoding.md R110). -/
def Instr.operandA : Instr → Word
  | .encReg _ bin => bin
  | .encByp bin => bin
  | .decInit _ declared _ => declared.getD 0
  | .ctxSel _ _ binIdx => binIdx
  | .binU value => value
  | .binTu value _ => value
  | .binEgu value _ => value
  | .binEgs value _ => value
  | .binFl value _ => value
  | .encInit _ | .encFin | .decReg _ | .decByp | .decEnd | .ctxRd _ | .debinU _ | .debinTu _ _ | .debinEgu _ _
  | .debinEgs _ _ | .debinFl _ _ | .abort | .stat _ => 0

/-- Operand word `B`, likewise. -/
def Instr.operandB : Instr → Word
  | .binTu _ cutoff => cutoff
  | .binEgu _ order => order
  | .binEgs _ order => order
  | .binFl _ length => length
  | .debinTu cutoff _ => cutoff
  | .debinEgu order _ => order
  | .debinEgs order _ => order
  | .debinFl length _ => length
  | .encInit _ | .encReg _ _ | .encByp _ | .encFin | .decInit _ _ _ | .decReg _ | .decByp | .decEnd | .ctxSel _ _ _
  | .ctxRd _ | .binU _ | .debinU _ | .abort | .stat _ => 0

/-- The list operand (30_encoding.md R103, R110). -/
def Instr.operandList : Instr → ListOperand
  | .decInit _ _ input => .bytes input
  | .debinU bins => .words bins
  | .debinTu _ bins => .words bins
  | .debinEgu _ bins => .words bins
  | .debinEgs _ bins => .words bins
  | .debinFl _ bins => .words bins
  | .encInit _ | .encReg _ _ | .encByp _ | .encFin | .decReg _ | .decByp | .decEnd | .ctxSel _ _ _ | .ctxRd _ | .binU _
  | .binTu _ _ | .binEgu _ _ | .binEgs _ _ | .binFl _ _ | .abort | .stat _ => .absent

/-- The encoder: what the caller presents for a command (30_encoding.md R110). -/
def encode (i : Instr) : Command where
  cmd := encodeWord i
  a := i.operandA
  b := i.operandB
  list := i.operandList

/-! ### The opcode table's masks -/

/-- The (mask, match) pair of each row of opcode_table.json, in its order (30_encoding.md R109). -/
def opcodeRows : List (Word × Word) := [
  (0xFF00FFFF, 0x01000000), (0xFFFF0000, 0x02000000), (0xFFFFFFFF, 0x03000000), (0xFFFFFFFF, 0x04000000),
  (0xFF00FFFE, 0x05000000), (0xFFFF0000, 0x06000000), (0xFFFFFFFF, 0x07000000), (0xFFFFFFFF, 0x08000000),
  (0xFF0000FF, 0x09000000), (0xFFFF0000, 0x0A000000), (0xFFFFFFFF, 0x0B000000), (0xFFFFFFFF, 0x0B000001),
  (0xFFFFFFFF, 0x0B000002), (0xFFFFFFFF, 0x0B000003), (0xFFFFFFFF, 0x0B000004), (0xFFFFFFFF, 0x0C000000),
  (0xFFFFFFFF, 0x0C000001), (0xFFFFFFFF, 0x0C000002), (0xFFFFFFFF, 0x0C000003), (0xFFFFFFFF, 0x0C000004),
  (0xFFFFFFFF, 0x0D000000), (0xFFFFFFF8, 0x0E000000)]

/-- The row of opcode_table.json, counted from 0, that a command belongs to. -/
def Instr.row : Instr → Nat
  | .encInit _ => 0
  | .encReg _ _ => 1
  | .encByp _ => 2
  | .encFin => 3
  | .decInit _ _ _ => 4
  | .decReg _ => 5
  | .decByp => 6
  | .decEnd => 7
  | .ctxSel _ _ _ => 8
  | .ctxRd _ => 9
  | .binU _ => 10
  | .binTu _ _ => 11
  | .binEgu _ _ => 12
  | .binEgs _ _ => 13
  | .binFl _ _ => 14
  | .debinU _ => 15
  | .debinTu _ _ => 16
  | .debinEgu _ _ => 17
  | .debinEgs _ _ => 18
  | .debinFl _ _ => 19
  | .abort => 20
  | .stat _ => 21

/-- A word of a table's row matches it when the bits of the mask are those of the match (30_encoding.md R109). -/
def rowMatches (w : Word) (row : Word × Word) : Bool := w &&& row.1 == row.2

/-! ### A command as one number -/

/-- The command whose bits are `w`: `CMD` is bits 31:0, `A` bits 63:32 and `B` bits 95:64, the bits from `nbits` on
being 0, with no list operand (log 4). -/
def Command.ofBits (nbits w : Nat) : Command :=
  let v := w % 2 ^ nbits
  { cmd := BitVec.ofNat 32 v, a := BitVec.ofNat 32 (v / 2 ^ 32), b := BitVec.ofNat 32 (v / 2 ^ 64), list := .absent }

/-- The command the decoder reads from a row's bits (log 4). -/
def decodeTableWord (nbits w : Nat) : Option Instr :=
  match decode (Command.ofBits nbits w) with
  | .ok i => some i
  | .error _ => none

/-! ### Pseudo-commands (30_encoding.md R111) -/

/-- `ENC.REGS ctx, "b0 ... bn"`. -/
def Instr.encRegs (ctx : BitVec 16) (bins : List Word) : List Instr := bins.map (.encReg ctx)

/-- `ENC.BYPS "b0 ... bn"`. -/
def Instr.encByps (bins : List Word) : List Instr := bins.map .encByp

/-- `DEC.REGS ctx, n`. -/
def Instr.decRegs (ctx : BitVec 16) (n : Nat) : List Instr := List.replicate n (.decReg ctx)

/-- `DEC.BYPS n`. -/
def Instr.decByps (n : Nat) : List Instr := List.replicate n .decByp

end Sys2Proof
end

