-- ==== Sys2Proof/Config.lean ====
section
/-! DEFINITION. Config.lean: the parameter set of the block (spec/00_scope.md R12, R15; spec/20_memory.md R76, R80).

The spec leaves every parameter OPEN and says "A model takes each one as an argument; none is block state". A `Config`
is plain data, so that a machine with a concrete parameter set can be run; the machine's own set, `Config.platform`, is
opaque, so that no proof can know a value of it (log 1). -/

namespace Sys2Proof

/-- One entry of a context seed table as the caller supplies it: two naturals that the block checks at session start
(41_context.md R171: `pStateIdx > 63` or `valMPS > 1` is refused). -/
structure SeedEntry where
  pStateIdx : Nat
  valMPS : Nat
deriving DecidableEq, Repr

/-- The parameters of 00_scope.md R12. A partial table is a list of (key, value) rows of which the first with a key
counts; a key with no row is "absent" (log 2). -/
structure Config where
  /-- `N_CTX - 1`, the largest valid context index: `N_CTX` is 1 to 65536 (00_scope.md R12). -/
  lastCtx : BitVec 16
  /-- `SEED(mode)`: for each mode with a row, the entries by context index. -/
  seed : List (Byte × List (Nat × SeedEntry))
  /-- `CTX_RANGE(se, mode) = (start, len)`. -/
  ctxRange : List ((Byte × Byte) × (Nat × Nat))
  /-- `CTX_OFFSET(se, cat)`. -/
  ctxOffset : List ((Byte × Byte) × Nat)
  /-- `CTX_BININC(se, binIdx)`, a total function: the rows, and the value at every key that has no row. -/
  ctxBinInc : List ((Byte × Word) × Nat)
  ctxBinIncElse : Nat
  /-- `LPS_TABLE(p, q)`, 0 to 511. -/
  lpsTable : Vector (Vector (BitVec 9) 4) 64
  /-- `NEXT_MPS(p)`. -/
  nextMps : Vector (BitVec 6) 64
  /-- `NEXT_LPS(p)`. -/
  nextLps : Vector (BitVec 6) 64
  /-- `OBUF_CAP`: absent (`none`, unbounded) or a capacity in bytes. -/
  obufCap : Option Nat
deriving DecidableEq, Repr, Inhabited

/-- DESIGN CHOICE (log 1; safe). The parameter set of the machine right after reset: any one, none in particular. -/
opaque Config.platform : Config

/-! ### The reference configurations of the test vectors

Not normative (00_scope.md R15): no definition of the machine uses them. -/

/-- `LPS_TABLE` of `REF-H264`, one row of four quarters per state (20_memory.md R80). -/
def Config.refLpsTable : Vector (Vector (BitVec 9) 4) 64 := #v[
  #v[128, 176, 208, 240], #v[128, 167, 197, 227], #v[128, 158, 187, 216], #v[123, 150, 178, 205],
  #v[116, 142, 169, 195], #v[111, 135, 160, 185], #v[105, 128, 152, 175], #v[100, 122, 144, 166],
  #v[95, 116, 137, 158], #v[90, 110, 130, 150], #v[85, 104, 123, 142], #v[81, 99, 117, 135],
  #v[77, 94, 111, 128], #v[73, 89, 105, 122], #v[69, 85, 100, 116], #v[66, 80, 95, 110],
  #v[62, 76, 90, 104], #v[59, 72, 86, 99], #v[56, 69, 81, 94], #v[53, 65, 77, 89],
  #v[51, 62, 73, 85], #v[48, 59, 69, 80], #v[46, 56, 66, 76], #v[43, 53, 63, 72],
  #v[41, 50, 59, 69], #v[39, 48, 56, 65], #v[37, 45, 54, 62], #v[35, 43, 51, 59],
  #v[33, 41, 48, 56], #v[32, 39, 46, 53], #v[30, 37, 43, 50], #v[29, 35, 41, 48],
  #v[27, 33, 39, 45], #v[26, 31, 37, 43], #v[24, 30, 35, 41], #v[23, 28, 33, 39],
  #v[22, 27, 32, 37], #v[21, 26, 30, 35], #v[20, 24, 29, 33], #v[19, 23, 27, 31],
  #v[18, 22, 26, 30], #v[17, 21, 25, 28], #v[16, 20, 23, 27], #v[15, 19, 22, 25],
  #v[14, 18, 21, 24], #v[14, 17, 20, 23], #v[13, 16, 19, 22], #v[12, 15, 18, 21],
  #v[12, 14, 17, 20], #v[11, 14, 16, 19], #v[11, 13, 15, 18], #v[10, 12, 15, 17],
  #v[10, 12, 14, 16], #v[9, 11, 13, 15], #v[9, 11, 12, 14], #v[8, 10, 12, 14],
  #v[8, 9, 11, 13], #v[7, 9, 11, 12], #v[7, 9, 10, 12], #v[7, 8, 10, 11],
  #v[6, 8, 9, 11], #v[6, 7, 9, 10], #v[6, 7, 8, 9], #v[2, 2, 2, 2]]

/-- `NEXT_LPS` of `REF-H264` (20_memory.md R80). -/
def Config.refNextLps : Vector (BitVec 6) 64 := #v[
  0, 0, 1, 2, 2, 4, 4, 5, 6, 7, 8, 9, 9, 11, 11, 12,
  13, 13, 15, 15, 16, 16, 18, 18, 19, 19, 21, 21, 22, 22, 23, 24,
  24, 25, 26, 26, 27, 27, 28, 29, 29, 30, 30, 30, 31, 32, 32, 33,
  33, 33, 34, 34, 35, 35, 35, 36, 36, 36, 37, 37, 37, 38, 38, 63]

/-- `NEXT_MPS` of `REF-H264`: `p + 1` below 62, and 62 and 63 stay (20_memory.md R80). -/
def Config.refNextMps : Vector (BitVec 6) 64 := #v[
  1, 2, 3, 4, 5, 6, 7, 8, 9, 10, 11, 12, 13, 14, 15, 16,
  17, 18, 19, 20, 21, 22, 23, 24, 25, 26, 27, 28, 29, 30, 31, 32,
  33, 34, 35, 36, 37, 38, 39, 40, 41, 42, 43, 44, 45, 46, 47, 48,
  49, 50, 51, 52, 53, 54, 55, 56, 57, 58, 59, 60, 61, 62, 62, 63]

/-- `REF-SMALL` of 95_test_vectors.md; `CTX_BININC(se, b) = min(b, 1)` has rows for the two syntax elements that
`CTX_RANGE` knows. -/
def Config.refSmall : Config where
  lastCtx := 3
  seed := [(0, [(0, ⟨0, 0⟩), (1, ⟨10, 1⟩), (2, ⟨62, 0⟩), (3, ⟨63, 1⟩)])]
  ctxRange := [((0, 0), (0, 4)), ((1, 1), (2, 2))]
  ctxOffset := [((0, 0), 0), ((0, 1), 2), ((1, 0), 0)]
  ctxBinInc := [((0, 0), 0), ((1, 0), 0)]
  ctxBinIncElse := 1
  lpsTable := Config.refLpsTable
  nextMps := Config.refNextMps
  nextLps := Config.refNextLps
  obufCap := none

end Sys2Proof
end

