-- ==== Sys2Proof/Machine/State.lean ====
section
/-! DEFINITION. State.lean: the block's state (spec/10_state.md), the response of a command (spec/00_scope.md R17), and
what the model holds around the block: its parameter set, the caller's commands, the last response. -/

namespace Sys2Proof.Machine

/-- Why a step stops with a fault: never. Every error of this block is an answer to the caller after which the block
goes on (60_exceptions.md R318, R322), so there is no constructor (log 19; safe). -/
inductive Fault where
deriving DecidableEq, Repr

/-- Why a step is refused. -/
inductive Refusal where
  /-- Raised by an arm of `exec` whose command has no meaning yet; every command has one, so nothing raises it. Safe: a
  refusal proves nothing about the hardware. -/
  | notModelled (mnemonic : String)
deriving DecidableEq, Repr

/-- `SSTATE`, the session state; the values 6 and 7 of the 3-bit register are never held (10_state.md R33). -/
inductive SessionState where
  | idle
  | encActive
  | encFinal
  | decActive
  | decEnded
  | failed
deriving DecidableEq, Repr

/-- The error classes (60_exceptions.md R310). -/
inductive ErrorClass where
  | valueError
  | configurationError
  | stateError
  | internalInvariant
  | illegalCommand
deriving DecidableEq, Repr

/-- The error causes, class by class (60_exceptions.md R311 to R315). -/
inductive Cause where
  | binValue | negValue | negCutoff | badOrder | badLength | flRange | ctxRange | debinExtra | debinOverflow
  | debinMalformed
  | noRange | noOffset | ctxOutsideRange | noSeed | badLpsTable
  | wrongState | afterFinalize | afterEnd | pastCount | sourceExhausted | badInitOffset | sessionFailed | noContext
  | binCountOverflow | outputOverflow
  | rangeBounds | lowBounds | pendingOverflow
  | badOpcode | reservedBits | badScheme | badSelector
deriving DecidableEq, Repr

/-- A context state (41_context.md R170). -/
structure ContextState where
  pStateIdx : BitVec 6
  valMPS : Bit
deriving DecidableEq, Repr

/-- The state of the block: the tuple of 10_state.md R30, its fields in the order of its rules. -/
structure Block where
  /-- R33 -/
  sstate : SessionState
  /-- R34 -/
  mode : Byte
  /-- R35 -/
  errClass : BitVec 4
  /-- R35 -/
  errCause : Byte
  /-- R36: `none` when no entry holds a value, else the `N_CTX` entries (log 10). -/
  ctx : Option (List ContextState)
  /-- R37 -/
  low : BitVec 10
  /-- R38 -/
  range : BitVec 9
  /-- R39 -/
  pending : BitVec 32
  /-- R40 -/
  first : Bit
  /-- R41 -/
  last : Bit
  /-- R42 -/
  part : Byte
  /-- R42 -/
  pcnt : BitVec 3
  /-- R43 -/
  obuf : List Byte
  /-- R44 -/
  ibuf : List Byte
  /-- R44 -/
  ipos : Nat
  /-- R45 -/
  binCount : BitVec 32
  /-- R46 -/
  hasDecl : Bit
  /-- R46 -/
  declCount : BitVec 32
deriving DecidableEq, Repr

/-- The reset state of the block (10_state.md R50, 70_reset_and_hazards.md R340). -/
def Block.reset : Block where
  sstate := .idle
  mode := 0
  errClass := 0
  errCause := 0
  ctx := none
  low := 0
  range := 0
  pending := 0
  first := false
  last := false
  part := 0
  pcnt := 0
  obuf := []
  ibuf := []
  ipos := 0
  binCount := 0
  hasDecl := false
  declCount := 0

/-- `RESP`: `OK`, or an error with its cause, which has its class in it (00_scope.md R17, 60_exceptions.md R310). -/
inductive Resp where
  | ok
  | error (c : Cause)
deriving DecidableEq, Repr

/-- The response of a command (00_scope.md R17). -/
structure Response where
  resp : Resp
  r0 : Word
  r1 : Word
  bout : List Bit
deriving DecidableEq, Repr

/-- The machine. `block` is the spec's state; the other three fields are the model's (INVENTORY.md, logs 1, 3, 5). -/
structure State where
  /-- The block's registers and memories (10_state.md R30). -/
  block : Block
  /-- The parameter set, which no step writes (00_scope.md R12). -/
  config : Config
  /-- The commands the caller has yet to present, the next one first (10_state.md R31). -/
  commands : List Command
  /-- The response of the last command performed; `none` when none has been (10_state.md R32). -/
  response : Option Response
deriving DecidableEq, Repr

/-- The machine right after reset with a given parameter set. -/
def State.resetWith (config : Config) : State where
  block := Block.reset
  config := config
  commands := []
  response := none

/-- The machine right after reset: the block as 10_state.md R50 has it, an unknown parameter set, no command presented
and none answered (logs 1, 3, 5). -/
def State.reset : State := State.resetWith Config.platform

end Sys2Proof.Machine
end

