-- ==== Sys2Proof/Machine/Flags.lean ====
section
/-! DEFINITION. Flags.lean: the codes of the session states, error classes and causes, and the status words that show
them (spec/10_state.md R33, R48, R49; spec/60_exceptions.md R310 to R315). The block has no condition codes (10_state.md
R47). -/

namespace Sys2Proof.Machine

/-- The 3-bit code of a session state (10_state.md R33). -/
def SessionState.code : SessionState → BitVec 3
  | .idle => 0
  | .encActive => 1
  | .encFinal => 2
  | .decActive => 3
  | .decEnded => 4
  | .failed => 5

/-- The 4-bit code of an error class (60_exceptions.md R310). -/
def ErrorClass.code : ErrorClass → BitVec 4
  | .valueError => 1
  | .configurationError => 2
  | .stateError => 3
  | .internalInvariant => 4
  | .illegalCommand => 5

/-- The class of a cause (60_exceptions.md R311 to R315). -/
def Cause.errorClass : Cause → ErrorClass
  | .binValue | .negValue | .negCutoff | .badOrder | .badLength | .flRange | .ctxRange | .debinExtra | .debinOverflow
  | .debinMalformed => .valueError
  | .noRange | .noOffset | .ctxOutsideRange | .noSeed | .badLpsTable => .configurationError
  | .wrongState | .afterFinalize | .afterEnd | .pastCount | .sourceExhausted | .badInitOffset | .sessionFailed
  | .noContext | .binCountOverflow | .outputOverflow => .stateError
  | .rangeBounds | .lowBounds | .pendingOverflow => .internalInvariant
  | .badOpcode | .reservedBits | .badScheme | .badSelector => .illegalCommand

/-- The 8-bit code of a cause (60_exceptions.md R311 to R315). -/
def Cause.code : Cause → Byte
  | .binValue => 0x11
  | .negValue => 0x12
  | .negCutoff => 0x13
  | .badOrder => 0x14
  | .badLength => 0x15
  | .flRange => 0x16
  | .ctxRange => 0x17
  | .debinExtra => 0x18
  | .debinOverflow => 0x19
  | .debinMalformed => 0x1A
  | .noRange => 0x21
  | .noOffset => 0x22
  | .ctxOutsideRange => 0x23
  | .noSeed => 0x24
  | .badLpsTable => 0x25
  | .wrongState => 0x31
  | .afterFinalize => 0x32
  | .afterEnd => 0x33
  | .pastCount => 0x34
  | .sourceExhausted => 0x35
  | .badInitOffset => 0x36
  | .sessionFailed => 0x37
  | .noContext => 0x38
  | .binCountOverflow => 0x39
  | .outputOverflow => 0x3A
  | .rangeBounds => 0x41
  | .lowBounds => 0x42
  | .pendingOverflow => 0x43
  | .badOpcode => 0x51
  | .reservedBits => 0x52
  | .badScheme => 0x53
  | .badSelector => 0x54

/-- The cause of class `IllegalCommand` for what the decoder found (60_exceptions.md R315). -/
def Cause.ofIllegal : Illegal → Cause
  | .badOpcode => .badOpcode
  | .reservedBits => .reservedBits
  | .badScheme => .badScheme
  | .badSelector => .badSelector

/-- `StatusWord(sel)` for a legal selector; `none` for 8 to 15 (10_state.md R48, R49; reserved bits read as 0). -/
def statusWord (sel : BitVec 4) (b : Block) : Option Word :=
  match sel.toNat with
  | 0 => some (0#8 ++ b.mode ++ b.errCause ++ b.errClass ++ 0#1 ++ b.sstate.code)
  | 1 => some b.binCount
  | 2 => some b.declCount
  | 3 => some (BitVec.ofNat 32 b.obuf.length)
  | 4 => some (0#6 ++ b.low ++ 0#7 ++ b.range)
  | 5 => some b.pending
  | 6 => some (0#13 ++ BitVec.ofBool b.hasDecl ++ BitVec.ofBool b.last ++ BitVec.ofBool b.first ++ b.part ++ 0#5 ++ b.pcnt)
  | 7 => some (BitVec.ofNat 32 b.ipos)
  | _ => none

end Sys2Proof.Machine
end

