-- ==== Sys2Proof/Machine/Operands.lean ====
section
/-! DEFINITION. Operands.lean: how commands read their operand words and lists, and the bin lists they build and parse
(spec/00_scope.md R20, R21; spec/30_encoding.md R103; spec/40_binarizer.md R132, R139). -/

namespace Sys2Proof.Machine

/-- `s32(w)` (00_scope.md R20). -/
def s32 (w : Word) : Int := w.toInt

/-- `u32(w)` (00_scope.md R20). -/
def u32 (w : Word) : Nat := w.toNat

/-- `msb_bits(v, n)`: the `n` low bits of `v`, most significant first (00_scope.md R21). -/
def msbBits (v : Nat) : Nat → List Bit
  | 0 => []
  | n + 1 => v.testBit n :: msbBits v n

/-- `ones(n)` (00_scope.md R21). -/
def ones (n : Nat) : List Bit := List.replicate n true

/-- The value of a bin list read most significant first (40_binarizer.md R142, R144), on top of `acc`. -/
def bitsValueFrom (acc : Nat) : List Bit → Nat
  | [] => acc
  | b :: l => bitsValueFrom (2 * acc + b.toNat) l

/-- The value of a bin list read most significant first. -/
def bitsValue (l : List Bit) : Nat := bitsValueFrom 0 l

/-- The operand word of `ENC.REG` and `ENC.BYP` as a bin; a value outside {0, 1} is `BIN_VALUE` (60_exceptions.md R311). -/
def binOperand (a : Word) : Except Cause Bit :=
  if u32 a > 1 then .error .binValue else .ok (u32 a == 1)

/-- `CheckBins(BIN_IN)`: every element is 0 or 1, else `BIN_VALUE` (40_binarizer.md R139). -/
def checkBins (l : List Word) : Except Cause (List Bit) :=
  if l.all (fun w => decide (u32 w ≤ 1)) then .ok (l.map (fun w => u32 w == 1)) else .error .binValue

/-- The cutoff `s32(B)` of the scheme `TU` (40_binarizer.md R134, R141). -/
def cutoffOperand (b : Word) : Except Cause Nat :=
  if s32 b < 0 then .error .negCutoff else .ok (s32 b).toNat

/-- The order `s32(B)` of the schemes `EGU` and `EGS`, 0 to 31 (40_binarizer.md R135, R136, R142, R143). -/
def orderOperand (b : Word) : Except Cause Nat :=
  if s32 b < 0 ∨ 31 < s32 b then .error .badOrder else .ok (s32 b).toNat

/-- The length `s32(B)` of the scheme `FL`, 0 to 32 (40_binarizer.md R137, R144). -/
def lengthOperand (b : Word) : Except Cause Nat :=
  if s32 b < 0 ∨ 32 < s32 b then .error .badLength else .ok (s32 b).toNat

/-- The value `s32(A)` of the schemes `U`, `TU` and `EGU`, not negative (40_binarizer.md R132). -/
def valueOperand (a : Word) : Except Cause Nat :=
  if s32 a < 0 then .error .negValue else .ok (s32 a).toNat

/-- The value `s32(A)` of the scheme `FL`, which must fit in `len` bits (40_binarizer.md R137). -/
def flValueOperand (a : Word) (len : Nat) : Except Cause Nat :=
  if s32 a < 0 then .error .flRange
  else if 2 ^ len ≤ (s32 a).toNat then .error .flRange
  else .ok (s32 a).toNat

end Sys2Proof.Machine
end

