-- ==== Sys2Proof/Machine/Ops.lean ====
section
/-! DEFINITION. Ops.lean: the operations that several commands share: reading the parameters, writing registers of a
stated width, the context table, the bit packer and the bit source, session checks, what an error does, and how a
command's rule is run.

A command's rule is a function from the block to a new block and a result, or to the cause it raises; `execute` runs it
(spec/60_exceptions.md R318). -/

namespace Sys2Proof.Machine

/-! ### The parameters (00_scope.md R12, 20_memory.md R76) -/

/-- `N_CTX`. -/
def nCtx (cfg : Config) : Nat := cfg.lastCtx.toNat + 1

/-- `LPS_TABLE(p, q)`. -/
def lpsEntry (cfg : Config) (p : BitVec 6) (q : BitVec 2) : Nat := (cfg.lpsTable[p.toNat][q.toNat]).toNat

/-- `NEXT_MPS(p)`. -/
def nextMpsEntry (cfg : Config) (p : BitVec 6) : BitVec 6 := cfg.nextMps[p.toNat]

/-- `NEXT_LPS(p)`. -/
def nextLpsEntry (cfg : Config) (p : BitVec 6) : BitVec 6 := cfg.nextLps[p.toNat]

/-- `CTX_RANGE(se, mode)`, `none` when absent. -/
def ctxRangeEntry (cfg : Config) (se mode : Byte) : Option (Nat × Nat) := cfg.ctxRange.lookup (se, mode)

/-- `CTX_OFFSET(se, cat)`, `none` when absent. -/
def ctxOffsetEntry (cfg : Config) (se cat : Byte) : Option Nat := cfg.ctxOffset.lookup (se, cat)

/-- `CTX_BININC(se, binIdx)`. -/
def ctxBinIncEntry (cfg : Config) (se : Byte) (binIdx : Word) : Nat :=
  (cfg.ctxBinInc.lookup (se, binIdx)).getD cfg.ctxBinIncElse

/-- A seed entry as a context state, when it is in range: `pStateIdx` at most 63 and `valMPS` at most 1 (41_context.md
R171). -/
def seedContext (e : SeedEntry) : Option ContextState :=
  if e.pStateIdx ≤ 63 ∧ e.valMPS ≤ 1 then some ⟨BitVec.ofNat 6 e.pStateIdx, e.valMPS == 1⟩ else none

/-- The context states `SEED` gives the indices of a list; `none` when an entry is missing or out of range. -/
def seedFrom (rows : List (Nat × SeedEntry)) : List Nat → Option (List ContextState)
  | [] => some []
  | i :: is =>
    match rows.lookup i with
    | none => none
    | some e =>
      match seedContext e, seedFrom rows is with
      | some c, some cs => some (c :: cs)
      | _, _ => none

/-- `SEED(mode)` at all of `0 .. N_CTX-1`; `none` when it is absent, incomplete or out of range (41_context.md R171). -/
def seedTable (cfg : Config) (mode : Byte) : Option (List ContextState) :=
  match cfg.seed.lookup mode with
  | none => none
  | some rows => seedFrom rows (List.range (nCtx cfg))

/-- Every `LPS_TABLE(p, q)` is in `1 .. 255 + 64*q` (00_scope.md R14, 41_context.md R171). -/
def lpsTableLegal (cfg : Config) : Bool :=
  (List.range 64).all fun p =>
    (List.range 4).all fun q =>
      let e := lpsEntry cfg (BitVec.ofNat 6 p) (BitVec.ofNat 2 q)
      decide (1 ≤ e) && decide (e ≤ 255 + 64 * q)

/-! ### Registers of a stated width

A value that does not fit its register is an internal invariant failure (00_scope.md R19, 60_exceptions.md R314),
raised at the assignment (log 9). -/

/-- `LOW <- v`. -/
def writeLow (v : Int) (b : Block) : Except Cause Block :=
  if 0 ≤ v ∧ v < 1024 then .ok { b with low := BitVec.ofNat 10 v.toNat } else .error .lowBounds

/-- `RANGE <- v`. -/
def writeRange (v : Int) (b : Block) : Except Cause Block :=
  if 0 ≤ v ∧ v < 512 then .ok { b with range := BitVec.ofNat 9 v.toNat } else .error .rangeBounds

/-- `CountBin()` (42_encoder.md R209). -/
def countBin (b : Block) : Except Cause Block :=
  if b.binCount.toNat = 2 ^ 32 - 1 then .error .binCountOverflow else .ok { b with binCount := b.binCount + 1 }

/-! ### The context table (10_state.md R36, 41_context.md) -/

/-- The check of a context index of the command word (20_memory.md R71). -/
def checkCtxIndex (cfg : Config) (i : BitVec 16) : Except Cause Unit :=
  if nCtx cfg ≤ i.toNat then .error .ctxRange else .ok ()

/-- `CTX[i]`. An entry that holds no value is refused with `NO_CONTEXT` (93_implementation_defined.md I14; log 11). -/
def readCtx (i : BitVec 16) (b : Block) : Except Cause ContextState :=
  match b.ctx with
  | none => .error .noContext
  | some t =>
    match t[i.toNat]? with
    | none => .error .noContext
    | some c => .ok c

/-- `CTX[i] <- c`. -/
def writeCtx (i : BitVec 16) (c : ContextState) (b : Block) : Block :=
  { b with ctx := b.ctx.map fun t => t.set i.toNat c }

/-- The context state after the bin `bin` (41_context.md R173, R174: the flip tests the state before the update). -/
def adapt (cfg : Config) (c : ContextState) (bin : Bit) : ContextState :=
  if bin = c.valMPS then ⟨nextMpsEntry cfg c.pStateIdx, c.valMPS⟩
  else ⟨nextLpsEntry cfg c.pStateIdx, if c.pStateIdx = 0 then !c.valMPS else c.valMPS⟩

/-- `UpdateContext(i, bin)` (41_context.md R173). -/
def updateContext (cfg : Config) (i : BitVec 16) (bin : Bit) (b : Block) : Except Cause Block :=
  match readCtx i b with
  | .error e => .error e
  | .ok c => .ok (writeCtx i (adapt cfg c bin) b)

/-- `LpsRange(p, range)`: the entry for the state `p` and the quarter `RANGE[7:6]` (41_context.md R181). -/
def lpsRange (cfg : Config) (p : BitVec 6) (range : BitVec 9) : Nat := lpsEntry cfg p (range.extractLsb' 6 2)

/-- `SeedContexts(mode)` (41_context.md R171). -/
def seedContexts (cfg : Config) (mode : Byte) (b : Block) : Except Cause Block :=
  match seedTable cfg mode with
  | none => .error .noSeed
  | some t => if lpsTableLegal cfg then .ok { b with ctx := some t, mode := mode } else .error .badLpsTable

/-! ### The bit packer (43_bit_sink.md) -/

/-- `WriteBit(b)` (43_bit_sink.md R230; bit order 20_memory.md R74). -/
def writeBit (cfg : Config) (bit : Bit) (b : Block) : Except Cause Block :=
  let v : Byte := BitVec.ofNat 8 (2 * b.part.toNat + bit.toNat)
  if b.pcnt = 7 then
    if cfg.obufCap = some b.obuf.length then .error .outputOverflow
    else .ok { b with last := bit, obuf := b.obuf ++ [v], part := 0, pcnt := 0 }
  else .ok { b with last := bit, part := v, pcnt := b.pcnt + 1 }

/-- The loop of `PutBit`: `while PENDING > 0`, run `n = PENDING` times (43_bit_sink.md R231). -/
def writePending (cfg : Config) (bit : Bit) : Nat → Block → Except Cause Block
  | 0, b => .ok b
  | n + 1, b =>
    match writeBit cfg bit b with
    | .error e => .error e
    | .ok b => writePending cfg bit n { b with pending := b.pending - 1 }

/-- `PutBit(b)` (43_bit_sink.md R231). -/
def putBit (cfg : Config) (bit : Bit) (b : Block) : Except Cause Block := do
  let b ← if b.first then .ok { b with first := false } else writeBit cfg bit b
  writePending cfg (!bit) b.pending.toNat b

/-- `IncPending()` (43_bit_sink.md R232). -/
def incPending (b : Block) : Except Cause Block :=
  if b.pending.toNat = 2 ^ 32 - 1 then .error .pendingOverflow else .ok { b with pending := b.pending + 1 }

/-! ### The bit source (44_decoder.md R262) -/

/-- `ReadBit()`: the bit at `IPOS`, most significant first in each byte (44_decoder.md R262, 20_memory.md R74). -/
def readBit (b : Block) : Except Cause (Bit × Block) :=
  match b.ibuf[b.ipos / 8]? with
  | none => .error .sourceExhausted
  | some byte => .ok (byte.getLsbD (7 - b.ipos % 8), { b with ipos := b.ipos + 1 })

/-- `repeat n times: v <- (v << 1) + ReadBit()` (44_decoder.md R260). -/
def readBits : Nat → Nat → Block → Except Cause (Nat × Block)
  | 0, v, b => .ok (v, b)
  | n + 1, v, b =>
    match readBit b with
    | .error e => .error e
    | .ok (bit, b) => readBits n (2 * v + bit.toNat) b

/-! ### Session checks (45_session.md R290, R291) -/

/-- The commands with a state check: those whose accepted set is smaller than every state (45_session.md R290). -/
inductive Checked where
  | encode   -- ENC.REG, ENC.BYP, ENC.FIN
  | decode   -- DEC.REG, DEC.BYP, DEC.END
  | ctxSel
  | ctxRd
deriving DecidableEq, Repr

/-- `Accepted(cmd)` (45_session.md R290). -/
def accepted : Checked → SessionState → Bool
  | .encode, s => s == .encActive
  | .decode, s => s == .decActive
  | .ctxSel, s => s == .encActive || s == .decActive
  | .ctxRd, s => s == .encActive || s == .encFinal || s == .decActive || s == .decEnded

/-- `CheckState(cmd)` (45_session.md R291). -/
def checkState (k : Checked) (b : Block) : Except Cause Unit :=
  if accepted k b.sstate then .ok ()
  else if b.sstate = .failed then .error .sessionFailed
  else if k = .encode ∧ b.sstate = .encFinal then .error .afterFinalize
  else if k = .decode ∧ b.sstate = .decEnded then .error .afterEnd
  else if k = .ctxRd ∧ b.sstate = .idle then .error .noContext
  else .error .wrongState

/-- `CheckDeclared()` (44_decoder.md R267). -/
def checkDeclared (b : Block) : Except Cause Unit :=
  if b.hasDecl ∧ b.declCount.toNat ≤ b.binCount.toNat then .error .pastCount else .ok ()

/-! ### Running a command, and what an error does (60_exceptions.md R318 to R321) -/

/-- `ResetState()` (70_reset_and_hazards.md R340): whatever the block held, it is the reset state. -/
def resetState (_ : Block) : Block := Block.reset

/-- What a rule answers in `R0`, `R1` and `BOUT`; a command that writes no result answers 0, 0 and [] (10_state.md R32). -/
structure Result where
  r0 : Word := 0
  r1 : Word := 0
  bout : List Bit := []
deriving DecidableEq, Repr

/-- The error record is sticky: only the first error is kept (60_exceptions.md R319). -/
def recordError (c : Cause) (b : Block) : Block :=
  if b.errClass = 0 then { b with errClass := c.errorClass.code, errCause := c.code } else b

/-- An error fails the session in progress (60_exceptions.md R318). -/
def failSession (b : Block) : Block :=
  if b.sstate = .idle then b else { b with sstate := .failed }

/-- What an error does to the block as it was when the command was presented: an `INIT` that fails with a class other
than `IllegalCommand` resets it, then the error is recorded and the session fails (60_exceptions.md R318, R321). -/
def errorEntry (isInit : Bool) (c : Cause) (b : Block) : Block :=
  let b := if isInit ∧ c.errorClass ≠ .illegalCommand then resetState b else b
  failSession (recordError c b)

/-- A command that raises the cause `c`: no effect but the error's, and the error in the response (60_exceptions.md
R318). There is no handler and no return (R320). -/
def takeError (isInit : Bool) (c : Cause) (s : State) : State :=
  { s with block := errorEntry isInit c s.block, response := some ⟨.error c, 0, 0, []⟩ }

/-- A command that completes: its new block and its results. -/
def complete (b : Block) (r : Result) (s : State) : State :=
  { s with block := b, response := some ⟨.ok, r.r0, r.r1, r.bout⟩ }

/-- The state after a command whose rule gave `o`. -/
def answer (isInit : Bool) (o : Except Cause (Block × Result)) (s : State) : State :=
  match o with
  | .ok (b, r) => complete b r s
  | .error c => takeError isInit c s

/-- `Execute` for a legal command word: run the rule; `isInit` says that the command is `ENC.INIT` or `DEC.INIT`
(60_exceptions.md R318). -/
def execute (isInit : Bool) (rule : Config → Block → Except Cause (Block × Result)) (s : State) :
    Host.Outcome State Fault Refusal :=
  .next (answer isInit (rule s.config s.block) s)

/-- `Execute` for an illegal command word: the session goes by R318 like any other error, also when the opcode is that
of an `INIT` (60_exceptions.md R315, R321). -/
def executeIllegal (e : Illegal) (s : State) : Host.Outcome State Fault Refusal :=
  .next (takeError false (Cause.ofIllegal e) s)

/-! ### Presenting a command (00_scope.md R17, 10_state.md R31) -/

/-- The command the caller presents now and the state with it taken; `none` when the caller presents none (log 3). -/
def fetch (s : State) : Option (Command × State) :=
  match s.commands with
  | [] => none
  | c :: rest => some (c, { s with commands := rest })

/-- The caller presents `c` next. -/
def present (c : Command) (s : State) : State := { s with commands := c :: s.commands }

end Sys2Proof.Machine
end

