-- ==== Sys2Proof/Machine/Binarizer.lean ====
section
/-! DEFINITION. Binarizer.lean: `BIN.*` and `DEBIN.*` (spec/40_binarizer.md). The binarizer holds no state: every rule
here leaves the block as it was (R130). -/

namespace Sys2Proof.Machine

/-! ### The codes -/

/-- The unary code of `n` (40_binarizer.md R133). -/
def unaryBins (n : Nat) : List Bit := ones n ++ [false]

/-- The truncated unary code of `n` with cutoff `c` (40_binarizer.md R134). -/
def truncatedBins (n c : Nat) : List Bit := ones (min n c) ++ (if n < c then [false] else [])

/-- `EGk(u, k)`: `(u >> k) + 1` ones, a zero, and the `k` low bits of `u` (40_binarizer.md R135). -/
def expGolombBins (u k : Nat) : List Bit := ones (u >>> k + 1) ++ [false] ++ msbBits u k

/-- The sign folding `2 * |n| - (1 if n < 0 else 0)` (40_binarizer.md R136). -/
def foldSign (n : Int) : Nat := 2 * n.natAbs - (if n < 0 then 1 else 0)

/-- The inverse of the sign folding (40_binarizer.md R143). -/
def unfoldSign (u : Nat) : Int := if u % 2 = 0 then (u / 2 : Nat) else -(((u + 1) / 2 : Nat) : Int)

/-! ### `BIN.*` -/

/-- The template of `BIN.*`: the bins, and their number saturated to 32 bits (40_binarizer.md R131). -/
def binResult (bins : List Bit) : Result where
  r0 := BitVec.ofNat 32 (min bins.length (2 ^ 32 - 1))
  r1 := 0
  bout := bins

/-- `BIN.U` (40_binarizer.md R133). -/
def binURule (value : Word) (_ : Config) (b : Block) : Except Cause (Block × Result) := do
  let n ← valueOperand value
  .ok (b, binResult (unaryBins n))

/-- `BIN.TU` (40_binarizer.md R134). -/
def binTuRule (value cutoff : Word) (_ : Config) (b : Block) : Except Cause (Block × Result) := do
  let c ← cutoffOperand cutoff
  let n ← valueOperand value
  .ok (b, binResult (truncatedBins n c))

/-- `BIN.EGU` (40_binarizer.md R135). -/
def binEguRule (value order : Word) (_ : Config) (b : Block) : Except Cause (Block × Result) := do
  let k ← orderOperand order
  let n ← valueOperand value
  .ok (b, binResult (expGolombBins n k))

/-- `BIN.EGS` (40_binarizer.md R136). -/
def binEgsRule (value order : Word) (_ : Config) (b : Block) : Except Cause (Block × Result) := do
  let k ← orderOperand order
  .ok (b, binResult (expGolombBins (foldSign (s32 value)) k))

/-- `BIN.FL` (40_binarizer.md R137). -/
def binFlRule (value length : Word) (_ : Config) (b : Block) : Except Cause (Block × Result) := do
  let len ← lengthOperand length
  let n ← flValueOperand value len
  .ok (b, binResult (msbBits n len))

/-! ### `DEBIN.*` -/

/-- The outcome "complete" with the value `v` (40_binarizer.md R139). -/
def debinComplete (v : Int) : Result where
  r0 := BitVec.ofInt 32 v
  r1 := 1

/-- The outcome "incomplete" (40_binarizer.md R139). -/
def debinIncomplete : Result := {}

/-- The parse of `DEBIN.U` (40_binarizer.md R140). -/
def parseUnary (bins : List Bit) : Except Cause Result :=
  match bins.findIdx? (· == false) with
  | none => if 2 ^ 31 - 1 < bins.length then .error .debinOverflow else .ok debinIncomplete
  | some i =>
    if i + 1 < bins.length then .error .debinExtra
    else if 2 ^ 31 - 1 < i then .error .debinOverflow
    else .ok (debinComplete i)

/-- The parse of `DEBIN.TU` (40_binarizer.md R141). -/
def parseTruncated (c : Nat) (bins : List Bit) : Except Cause Result :=
  match (bins.take (min bins.length c)).findIdx? (· == false) with
  | some i => if i + 1 < bins.length then .error .debinExtra else .ok (debinComplete i)
  | none =>
    if bins.length < c then .ok debinIncomplete
    else if c < bins.length then .error .debinExtra
    else .ok (debinComplete c)

/-- `ParseEG(bins, k, MAXV)`: the value when complete, `none` when incomplete (40_binarizer.md R142; the shift of the
suffix binds tighter than the sum, log 12). -/
def parseExpGolomb (bins : List Bit) (k maxV : Nat) : Except Cause (Option Nat) :=
  match bins with
  | [] => .ok none
  | false :: _ => .error .debinMalformed
  | true :: _ =>
    let t := (bins.takeWhile (· == true)).length
    if t = bins.length then
      if maxV < (t - 1) <<< k then .error .debinOverflow else .ok none
    else
      let q := t - 1
      let s := bins.drop (t + 1)
      if k < s.length then .error .debinExtra
      else
        let v := q <<< k + bitsValue s <<< (k - s.length)
        if maxV < v then .error .debinOverflow
        else if s.length < k then .ok none
        else .ok (some v)

/-- The parse of `DEBIN.FL` (40_binarizer.md R144). -/
def parseFixed (len : Nat) (bins : List Bit) : Except Cause Result :=
  if len < bins.length then .error .debinExtra
  else
    let v := bitsValue bins <<< (len - bins.length)
    if 2 ^ 31 - 1 < v then .error .debinOverflow
    else if bins.length < len then .ok debinIncomplete
    else .ok (debinComplete v)

/-- `DEBIN.U` (40_binarizer.md R140). -/
def debinURule (bins : List Word) (_ : Config) (b : Block) : Except Cause (Block × Result) := do
  let l ← checkBins bins
  let r ← parseUnary l
  .ok (b, r)

/-- `DEBIN.TU` (40_binarizer.md R141). -/
def debinTuRule (cutoff : Word) (bins : List Word) (_ : Config) (b : Block) : Except Cause (Block × Result) := do
  let c ← cutoffOperand cutoff
  let l ← checkBins bins
  let r ← parseTruncated c l
  .ok (b, r)

/-- `DEBIN.EGU` (40_binarizer.md R142). -/
def debinEguRule (order : Word) (bins : List Word) (_ : Config) (b : Block) : Except Cause (Block × Result) := do
  let k ← orderOperand order
  let l ← checkBins bins
  let v ← parseExpGolomb l k (2 ^ 31 - 1)
  .ok (b, match v with | none => debinIncomplete | some u => debinComplete u)

/-- `DEBIN.EGS` (40_binarizer.md R143). -/
def debinEgsRule (order : Word) (bins : List Word) (_ : Config) (b : Block) : Except Cause (Block × Result) := do
  let k ← orderOperand order
  let l ← checkBins bins
  let v ← parseExpGolomb l k (2 ^ 32 - 1)
  .ok (b, match v with | none => debinIncomplete | some u => debinComplete (unfoldSign u))

/-- `DEBIN.FL` (40_binarizer.md R144). -/
def debinFlRule (length : Word) (bins : List Word) (_ : Config) (b : Block) : Except Cause (Block × Result) := do
  let len ← lengthOperand length
  let l ← checkBins bins
  let r ← parseFixed len l
  .ok (b, r)

/-! ### The meanings -/

/-- `BIN.U #v`. -/
def execBinU (value : Word) (s : State) : Host.Outcome State Fault Refusal := execute false (binURule value) s

/-- `BIN.TU #v, #c`. -/
def execBinTu (value cutoff : Word) (s : State) : Host.Outcome State Fault Refusal :=
  execute false (binTuRule value cutoff) s

/-- `BIN.EGU #v, #k`. -/
def execBinEgu (value order : Word) (s : State) : Host.Outcome State Fault Refusal :=
  execute false (binEguRule value order) s

/-- `BIN.EGS #v, #k`. -/
def execBinEgs (value order : Word) (s : State) : Host.Outcome State Fault Refusal :=
  execute false (binEgsRule value order) s

/-- `BIN.FL #v, #len`. -/
def execBinFl (value length : Word) (s : State) : Host.Outcome State Fault Refusal :=
  execute false (binFlRule value length) s

/-- `DEBIN.U "bins"`. -/
def execDebinU (bins : List Word) (s : State) : Host.Outcome State Fault Refusal := execute false (debinURule bins) s

/-- `DEBIN.TU #c, "bins"`. -/
def execDebinTu (cutoff : Word) (bins : List Word) (s : State) : Host.Outcome State Fault Refusal :=
  execute false (debinTuRule cutoff bins) s

/-- `DEBIN.EGU #k, "bins"`. -/
def execDebinEgu (order : Word) (bins : List Word) (s : State) : Host.Outcome State Fault Refusal :=
  execute false (debinEguRule order bins) s

/-- `DEBIN.EGS #k, "bins"`. -/
def execDebinEgs (order : Word) (bins : List Word) (s : State) : Host.Outcome State Fault Refusal :=
  execute false (debinEgsRule order bins) s

/-- `DEBIN.FL #len, "bins"`. -/
def execDebinFl (length : Word) (bins : List Word) (s : State) : Host.Outcome State Fault Refusal :=
  execute false (debinFlRule length bins) s

end Sys2Proof.Machine
end

