-- ==== Sys2Proof/Machine/Encoder.lean ====
section
/-! DEFINITION. Encoder.lean: the arithmetic encoder, `ENC.INIT`, `ENC.REG`, `ENC.BYP` (spec/42_encoder.md). -/

namespace Sys2Proof.Machine

/-- `EncodeDecision(i, bin)`: the MPS takes the lower sub-interval, the LPS the upper (42_encoder.md R203). -/
def encodeDecision (cfg : Config) (i : BitVec 16) (bin : Bit) (b : Block) : Except Cause Block := do
  let c ← readCtx i b
  let lps := lpsRange cfg c.pStateIdx b.range
  let b ← writeRange (b.range.toNat - lps) b
  if bin = c.valMPS then .ok b
  else
    let b ← writeLow (b.low.toNat + b.range.toNat) b
    writeRange lps b

/-- The bit that one iteration of `RenormE` settles or leaves pending (42_encoder.md R205). -/
def renormBit (cfg : Config) (b : Block) : Except Cause Block := do
  if b.low.toNat < 256 then putBit cfg false b
  else if 512 ≤ b.low.toNat then
    let b ← writeLow (b.low.toNat - 512) b
    putBit cfg true b
  else
    let b ← writeLow (b.low.toNat - 256) b
    incPending b

/-- `RenormE()` (42_encoder.md R205), of at most `n` iterations: a range that 8 doublings do not bring to 256 is an
engine failure (00_scope.md R23; log 8). -/
def renormE (cfg : Config) : Nat → Block → Except Cause Block
  | 0, b => if 256 ≤ b.range.toNat then .ok b else .error .rangeBounds
  | n + 1, b =>
    if 256 ≤ b.range.toNat then .ok b
    else do
      let b ← renormBit cfg b
      let b ← writeRange (2 * b.range.toNat) b
      let b ← writeLow (2 * b.low.toNat) b
      renormE cfg n b

/-- `CheckInvariantE()` (42_encoder.md R212). -/
def checkInvariantE (b : Block) : Except Cause Unit :=
  if b.range.toNat < 256 ∨ 511 < b.range.toNat then .error .rangeBounds
  else if 1023 < b.low.toNat then .error .lowBounds
  else .ok ()

/-- `EncodeBypass(bin)` (42_encoder.md R208). -/
def encodeBypass (cfg : Config) (bin : Bit) (b : Block) : Except Cause Block :=
  let t : Nat := 2 * b.low.toNat + (if bin then b.range.toNat else 0)
  if 1024 ≤ t then do
    let b ← writeLow (t - 1024) b
    putBit cfg true b
  else if t < 512 then do
    let b ← writeLow t b
    putBit cfg false b
  else do
    let b ← writeLow (t - 512) b
    incPending b

/-- `ENC.INIT mode` (42_encoder.md R200, R201). -/
def encInitRule (mode : Byte) (cfg : Config) (b : Block) : Except Cause (Block × Result) := do
  let b := resetState b
  let b ← seedContexts cfg mode b
  let b ← writeLow 0 b
  let b ← writeRange 510 b
  .ok ({ b with first := true, sstate := .encActive }, {})

/-- `ENC.REG ctx, #bin` (42_encoder.md R202, R204). -/
def encRegRule (i : BitVec 16) (bin : Word) (cfg : Config) (b : Block) : Except Cause (Block × Result) := do
  checkState .encode b
  checkCtxIndex cfg i
  let bin ← binOperand bin
  let b ← countBin b
  let b ← encodeDecision cfg i bin b
  let b ← updateContext cfg i bin b
  let b ← renormE cfg 8 b
  checkInvariantE b
  .ok (b, {})

/-- `ENC.BYP #bin` (42_encoder.md R207). -/
def encBypRule (bin : Word) (cfg : Config) (b : Block) : Except Cause (Block × Result) := do
  checkState .encode b
  let bin ← binOperand bin
  let b ← countBin b
  let b ← encodeBypass cfg bin b
  checkInvariantE b
  .ok (b, {})

/-- `ENC.INIT mode`. -/
def execEncInit (mode : Byte) (s : State) : Host.Outcome State Fault Refusal := execute true (encInitRule mode) s

/-- `ENC.REG ctx, #bin`. -/
def execEncReg (ctx : BitVec 16) (bin : Word) (s : State) : Host.Outcome State Fault Refusal :=
  execute false (encRegRule ctx bin) s

/-- `ENC.BYP #bin`. -/
def execEncByp (bin : Word) (s : State) : Host.Outcome State Fault Refusal := execute false (encBypRule bin) s

end Sys2Proof.Machine
end

