-- ==== Sys2Proof/Machine/BitSink.lean ====
section
/-! DEFINITION. BitSink.lean: the flush and `ENC.FIN` (spec/43_bit_sink.md R235 to R237). The packer's primitives are in
Ops.lean. -/

namespace Sys2Proof.Machine

/-- The padding loop `while PCNT != 0: WriteBit(0)` of at most `n` iterations; 7 always suffice (43_bit_sink.md R237). -/
def padByte (cfg : Config) : Nat → Block → Except Cause Block
  | 0, b => .ok b
  | n + 1, b =>
    if b.pcnt = 0 then .ok b
    else
      match writeBit cfg false b with
      | .error e => .error e
      | .ok b => padByte cfg n b

/-- `FlushE()` (43_bit_sink.md R236). -/
def flushE (cfg : Config) (b : Block) : Except Cause Block := do
  let b ← writeRange (b.range.toNat - 2) b
  let b ← writeLow (b.low.toNat + b.range.toNat) b
  let b ← writeRange 2 b
  let b ← renormE cfg 8 b
  let b ← putBit cfg (b.low.getLsbD 9) b
  let b ← writeBit cfg (b.low.getLsbD 8) b
  let b ← writeBit cfg true b
  padByte cfg 7 b

/-- `ENC.FIN` (43_bit_sink.md R235). -/
def encFinRule (cfg : Config) (b : Block) : Except Cause (Block × Result) := do
  checkState .encode b
  let b ← flushE cfg b
  .ok ({ b with sstate := .encFinal }, { r0 := BitVec.ofNat 32 b.obuf.length })

/-- `ENC.FIN`. -/
def execEncFin (s : State) : Host.Outcome State Fault Refusal := execute false encFinRule s

end Sys2Proof.Machine
end

