-- ==== Sys2Proof/Machine/Context.lean ====
section
/-! DEFINITION. Context.lean: `CTX.SEL` and `CTX.RD` (spec/41_context.md R177 to R179). -/

namespace Sys2Proof.Machine

/-- `CTX.SEL se, cat, #binIdx`: state, then range table, offset table, bounds (41_context.md R177, R178). -/
def ctxSelRule (se cat : Byte) (binIdx : Word) (cfg : Config) (b : Block) : Except Cause (Block × Result) := do
  checkState .ctxSel b
  match ctxRangeEntry cfg se b.mode with
  | none => .error .noRange
  | some (start, len) =>
    match ctxOffsetEntry cfg se cat with
    | none => .error .noOffset
    | some off =>
      let inc := ctxBinIncEntry cfg se binIdx
      if len ≤ off + inc ∨ nCtx cfg < start + len then .error .ctxOutsideRange
      else .ok (b, { r0 := BitVec.ofNat 32 (start + off + inc) })

/-- A context state as `CTX.RD` shows it: bits 5:0 `pStateIdx`, bit 6 `valMPS` (41_context.md R170, R179). -/
def contextWord (c : ContextState) : Word := 0#25 ++ BitVec.ofBool c.valMPS ++ c.pStateIdx

/-- `CTX.RD ctx` (41_context.md R179). -/
def ctxRdRule (i : BitVec 16) (cfg : Config) (b : Block) : Except Cause (Block × Result) := do
  checkState .ctxRd b
  checkCtxIndex cfg i
  let c ← readCtx i b
  .ok (b, { r0 := contextWord c })

/-- `CTX.SEL se, cat, #binIdx`. -/
def execCtxSel (se cat : Byte) (binIdx : Word) (s : State) : Host.Outcome State Fault Refusal :=
  execute false (ctxSelRule se cat binIdx) s

/-- `CTX.RD ctx`. -/
def execCtxRd (ctx : BitVec 16) (s : State) : Host.Outcome State Fault Refusal := execute false (ctxRdRule ctx) s

end Sys2Proof.Machine
end

