-- ==== Sys2Proof/Machine/Decoder.lean ====
section
/-! DEFINITION. Decoder.lean: the arithmetic decoder, `DEC.INIT`, `DEC.REG`, `DEC.BYP`, `DEC.END` (spec/44_decoder.md). -/

namespace Sys2Proof.Machine

/-- The subdivision of a regular bin in the decoder: the bin, and the block with its sub-interval (44_decoder.md R263). -/
def decodeDecision (cfg : Config) (i : BitVec 16) (b : Block) : Except Cause (Bit × Block) := do
  let c ← readCtx i b
  let lps := lpsRange cfg c.pStateIdx b.range
  let b ← writeRange (b.range.toNat - lps) b
  if b.range.toNat ≤ b.low.toNat then
    let b ← writeLow (b.low.toNat - b.range.toNat) b
    let b ← writeRange lps b
    .ok (!c.valMPS, b)
  else .ok (c.valMPS, b)

/-- `RenormD()` (44_decoder.md R264), of at most `n` iterations, as `renormE` (log 8). -/
def renormD : Nat → Block → Except Cause Block
  | 0, b => if 256 ≤ b.range.toNat then .ok b else .error .rangeBounds
  | n + 1, b =>
    if 256 ≤ b.range.toNat then .ok b
    else do
      let b ← writeRange (2 * b.range.toNat) b
      let (bit, b) ← readBit b
      let b ← writeLow (2 * b.low.toNat + bit.toNat) b
      renormD n b

/-- `CheckInvariantD()` (44_decoder.md R268). -/
def checkInvariantD (b : Block) : Except Cause Unit :=
  if b.range.toNat < 256 ∨ 511 < b.range.toNat then .error .rangeBounds
  else if b.range.toNat ≤ b.low.toNat then .error .lowBounds
  else .ok ()

/-- A decoded bin as a result word. -/
def binResultWord (bin : Bit) : Result := { r0 := BitVec.ofNat 32 bin.toNat }

/-- `DEC.INIT mode[, #count], IN` (44_decoder.md R260, R261). -/
def decInitRule (mode : Byte) (declared : Option Word) (input : List Byte) (cfg : Config) (b : Block) :
    Except Cause (Block × Result) := do
  let b := resetState b
  let b ← seedContexts cfg mode b
  let b ← writeRange 510 { b with ibuf := input, ipos := 0 }
  let (v, b) ← readBits 9 0 b
  if 510 ≤ v then .error .badInitOffset
  else
    let b ← writeLow v b
    .ok ({ b with hasDecl := declared.isSome, declCount := declared.getD 0, sstate := .decActive }, {})

/-- `DEC.REG ctx` (44_decoder.md R263). -/
def decRegRule (i : BitVec 16) (cfg : Config) (b : Block) : Except Cause (Block × Result) := do
  checkState .decode b
  checkCtxIndex cfg i
  checkDeclared b
  let b ← countBin b
  let (bin, b) ← decodeDecision cfg i b
  let b ← updateContext cfg i bin b
  let b ← renormD 8 b
  checkInvariantD b
  .ok (b, binResultWord bin)

/-- The interval step of a bypass bin in the decoder (44_decoder.md R265). -/
def decodeBypass (b : Block) : Except Cause (Bit × Block) := do
  let (bit, b) ← readBit b
  let t : Nat := 2 * b.low.toNat + bit.toNat
  if b.range.toNat ≤ t then
    let b ← writeLow (t - b.range.toNat) b
    .ok (true, b)
  else
    let b ← writeLow t b
    .ok (false, b)

/-- `DEC.BYP` (44_decoder.md R265). -/
def decBypRule (_ : Config) (b : Block) : Except Cause (Block × Result) := do
  checkState .decode b
  checkDeclared b
  let b ← countBin b
  let (bin, b) ← decodeBypass b
  checkInvariantD b
  .ok (b, binResultWord bin)

/-- `DEC.END` (44_decoder.md R266). -/
def decEndRule (_ : Config) (b : Block) : Except Cause (Block × Result) := do
  checkState .decode b
  .ok ({ b with sstate := .decEnded }, { r0 := BitVec.ofNat 32 b.ipos })

/-- `DEC.INIT mode[, #count], IN`. -/
def execDecInit (mode : Byte) (declared : Option Word) (input : List Byte) (s : State) :
    Host.Outcome State Fault Refusal :=
  execute true (decInitRule mode declared input) s

/-- `DEC.REG ctx`. -/
def execDecReg (ctx : BitVec 16) (s : State) : Host.Outcome State Fault Refusal := execute false (decRegRule ctx) s

/-- `DEC.BYP`. -/
def execDecByp (s : State) : Host.Outcome State Fault Refusal := execute false decBypRule s

/-- `DEC.END`. -/
def execDecEnd (s : State) : Host.Outcome State Fault Refusal := execute false decEndRule s

end Sys2Proof.Machine
end

