-- ==== Sys2Proof/Machine/Session.lean ====
section
/-! DEFINITION. Session.lean: `ABORT` and `STAT` (spec/45_session.md R292, R293). -/

namespace Sys2Proof.Machine

/-- `ABORT` (45_session.md R292). -/
def abortRule (_ : Config) (b : Block) : Except Cause (Block × Result) := .ok (resetState b, {})

/-- `STAT sel` (45_session.md R293). A selector 8 to 15 is refused while decoding (30_encoding.md R107); asked for as a
term it raises the same cause. -/
def statRule (sel : BitVec 4) (_ : Config) (b : Block) : Except Cause (Block × Result) :=
  match statusWord sel b with
  | none => .error .badSelector
  | some w => .ok (b, { r0 := w })

/-- `ABORT`. -/
def execAbort (s : State) : Host.Outcome State Fault Refusal := execute false abortRule s

/-- `STAT sel`. -/
def execStat (sel : BitVec 4) (s : State) : Host.Outcome State Fault Refusal := execute false (statRule sel) s

end Sys2Proof.Machine
end

