-- ==== Sys2Proof/Machine/Dispatch.lean ====
section
/-! DEFINITION. Dispatch.lean: one arm per command. -/

namespace Sys2Proof.Machine

def exec (i : Instr) (s : State) : Host.Outcome State Fault Refusal :=
  match i with
  | .encInit mode => Sys2Proof.Machine.execEncInit mode s
  | .encReg ctx bin => Sys2Proof.Machine.execEncReg ctx bin s
  | .encByp bin => Sys2Proof.Machine.execEncByp bin s
  | .encFin => Sys2Proof.Machine.execEncFin s
  | .decInit mode declared input => Sys2Proof.Machine.execDecInit mode declared input s
  | .decReg ctx => Sys2Proof.Machine.execDecReg ctx s
  | .decByp => Sys2Proof.Machine.execDecByp s
  | .decEnd => Sys2Proof.Machine.execDecEnd s
  | .ctxSel se cat binIdx => Sys2Proof.Machine.execCtxSel se cat binIdx s
  | .ctxRd ctx => Sys2Proof.Machine.execCtxRd ctx s
  | .binU value => Sys2Proof.Machine.execBinU value s
  | .binTu value cutoff => Sys2Proof.Machine.execBinTu value cutoff s
  | .binEgu value order => Sys2Proof.Machine.execBinEgu value order s
  | .binEgs value order => Sys2Proof.Machine.execBinEgs value order s
  | .binFl value length => Sys2Proof.Machine.execBinFl value length s
  | .debinU bins => Sys2Proof.Machine.execDebinU bins s
  | .debinTu cutoff bins => Sys2Proof.Machine.execDebinTu cutoff bins s
  | .debinEgu order bins => Sys2Proof.Machine.execDebinEgu order bins s
  | .debinEgs order bins => Sys2Proof.Machine.execDebinEgs order bins s
  | .debinFl length bins => Sys2Proof.Machine.execDebinFl length bins s
  | .abort => Sys2Proof.Machine.execAbort s
  | .stat sel => Sys2Proof.Machine.execStat sel s

end Sys2Proof.Machine
end

