-- ==== Sys2Proof/Machine/Step.lean ====
section
/-! DEFINITION. Step.lean: one step of the machine, and how a command comes to be the next one. -/

namespace Sys2Proof.Machine

/-- One step: the block performs the command the caller presents (00_scope.md R17); an illegal command word raises
`IllegalCommand` (30_encoding.md R107); with no command presented the block waits (70_reset_and_hazards.md R341; log 3). -/
def step (s : State) : Host.Outcome State Fault Refusal :=
  match fetch s with
  | none => .next s
  | some (c, s) =>
    match decode c with
    | .ok i => exec i s
    | .error e => executeIllegal e s

/-- The caller presents the command whose bits are `w` next (log 4, log 14). -/
def State.withFetchWord (s : State) (nbits w : Nat) : State := present (Command.ofBits nbits w) s

end Sys2Proof.Machine
end

