-- ==== Sys2Proof/Safety.lean ====
section
/-! DEFINITION. Safety.lean: the terms the statements use. What the machine never breaks (`Inv`), the exact arithmetic
the encoder realises (spec/43_bit_sink.md R233), the input still unread, and sequences of commands.

Nothing here is used by the machine. -/

namespace Sys2Proof.Machine

/-! ### The bits of the two buffers -/

/-- A byte list as a bit list: most significant bit first, bytes in order (20_memory.md R74, R75). -/
def bytesBits (l : List Byte) : List Bit := l.flatMap fun x => msbBits x.toNat 8

/-- The bits the packer has written in the session: the completed bytes, then the partial one (10_state.md R42, R43). -/
def Block.bits (b : Block) : List Bit := bytesBits b.obuf ++ msbBits b.part.toNat b.pcnt.toNat

/-- The next `n` bits of the input, as many as there are (20_memory.md R73). -/
def Block.nextInput (b : Block) (n : Nat) : List Bit := ((bytesBits b.ibuf).drop b.ipos).take n

/-! ### Exact interval arithmetic

The encoder's interval without a bound on precision: the bits settled so far, the run of pending bits and `LOW` are one
number. A pending run of `p` bits stands for the digits `0 1 ... 1` above `LOW`, which a carry turns into `1 0 ... 0`. -/

/-- The low end of the interval as one natural number, at the scale of the session's `position`. -/
def Block.exactLow (b : Block) : Nat :=
  bitsValue b.bits * 2 ^ (b.pending.toNat + 10) + 512 * (2 ^ b.pending.toNat - 1) + b.low.toNat

/-- How many bits the session has settled or left pending, the suppressed first one included: the number of
renormalization iterations and bypass bins so far (43_bit_sink.md R240). -/
def Block.position (b : Block) : Nat := b.bits.length + b.pending.toNat + (if b.first then 0 else 1)

/-- How many doublings bring a range below 512 to 256 or more (42_encoder.md R205, R206). -/
def doublings (range : Nat) : Nat := 8 - Nat.log2 range

/-- A renormalization of `k` iterations that starts at `low` with a run of `pending` bits meets an iteration that would
make the run longer than `2^32 - 1` (42_encoder.md R205, 43_bit_sink.md R232). An iteration leaves its bit pending when the
low is 256 to 511, and such an iteration doubles the distance of the low to 512; so
iteration `j` and all before it leave their bits pending exactly when `2^j` times that distance is at most 256. -/
abbrev RunPasses (pending low k : Nat) : Prop :=
  ∃ j < k, pending + j = 2 ^ 32 - 1 ∧ low < 512 ∧ 2 ^ j * (512 - low) ≤ 256

/-- The output buffer has room for `n` more settled bits and the pending ones (43_bit_sink.md R230). -/
abbrev Room (cfg : Config) (b : Block) (n : Nat) : Prop :=
  (cfg.obufCap.all fun cap => decide (b.bits.length + b.pending.toNat + n < 8 * (cap + 1))) = true

/-! ### The parameters a session needs -/

/-- `SEED(mode)` is whole and in range (41_context.md R171). -/
def SeedLegal (cfg : Config) (mode : Byte) : Prop :=
  ∃ rows, cfg.seed.lookup mode = some rows ∧
    ∀ i < nCtx cfg, ∃ e, rows.lookup i = some e ∧ e.pStateIdx ≤ 63 ∧ e.valMPS ≤ 1

/-- `LPS_TABLE` meets the constraint of 00_scope.md R14. -/
def LpsLegal (cfg : Config) : Prop :=
  ∀ (p : BitVec 6) (q : BitVec 2), 1 ≤ lpsEntry cfg p q ∧ lpsEntry cfg p q ≤ 255 + 64 * q.toNat

/-! ### The invariant of the machine

Each part is decidable, so that a concrete state can be checked. -/

/-- A session is open: its results or its context table are there to be read (10_state.md R33). -/
abbrev InSession (s : SessionState) : Prop :=
  s = .encActive ∨ s = .encFinal ∨ s = .decActive ∨ s = .decEnded

/-- The context table has `N_CTX` entries whenever it holds values, and it holds values outside `IDLE` (10_state.md R36,
41_context.md R172). -/
abbrev CtxWhole (s : State) : Prop :=
  (s.block.ctx.all fun t => decide (t.length = nCtx s.config)) = true ∧
    (s.block.sstate ≠ .idle → s.block.ctx ≠ none)

/-- Outside `IDLE` the LPS table has passed the check of 41_context.md R171. -/
abbrev LpsChecked (s : State) : Prop := s.block.sstate ≠ .idle → lpsTableLegal s.config = true

/-- The encoder's interval (10_state.md R52): its registers, and the exact interval inside the initial one,
`[0, 510)` at scale 1. -/
abbrev EncInterval (s : State) : Prop :=
  s.block.sstate = .encActive →
    256 ≤ s.block.range.toNat ∧ s.block.low.toNat + s.block.range.toNat ≤ 1024 ∧
      (s.block.first = true → s.block.bits = []) ∧
      s.block.exactLow + s.block.range.toNat ≤ 510 * 2 ^ s.block.position

/-- After `ENC.FIN` everything is flushed (43_bit_sink.md R235), and the registers are still within the scale (10_state.md
R52). -/
abbrev EncFinal (s : State) : Prop :=
  s.block.sstate = .encFinal →
    s.block.range = 256 ∧ s.block.low.toNat ≤ 768 ∧ s.block.pending = 0 ∧ s.block.first = false ∧ s.block.part = 0 ∧ s.block.pcnt = 0

/-- In an encode session `LAST` is the last bit written, 0 if none has been (10_state.md R41), and the decoder's
registers have their reset values (10_state.md R44, R46). -/
abbrev EncSide (s : State) : Prop :=
  (s.block.sstate = .encActive ∨ s.block.sstate = .encFinal) →
    s.block.last = s.block.bits.getLastD false ∧
      s.block.ibuf = [] ∧ s.block.ipos = 0 ∧ s.block.hasDecl = false ∧ s.block.declCount = 0

/-- The decoder's interval and its place in the input (10_state.md R53, 44_decoder.md R260, R262). -/
abbrev DecInterval (s : State) : Prop :=
  (s.block.sstate = .decActive ∨ s.block.sstate = .decEnded) →
    256 ≤ s.block.range.toNat ∧ s.block.low.toNat < s.block.range.toNat ∧
      9 ≤ s.block.ipos ∧ s.block.ipos ≤ 8 * s.block.ibuf.length

/-- In a decode session the packer's registers keep their reset values (43_bit_sink.md, opening words), and a declared
count is not passed (44_decoder.md R267). -/
abbrev DecSide (s : State) : Prop :=
  (s.block.sstate = .decActive ∨ s.block.sstate = .decEnded) →
    s.block.pending = 0 ∧ s.block.first = false ∧ s.block.last = false ∧ s.block.part = 0 ∧ s.block.pcnt = 0 ∧
      s.block.obuf = [] ∧ (s.block.hasDecl = true → s.block.binCount.toNat ≤ s.block.declCount.toNat) ∧
      (s.block.hasDecl = false → s.block.declCount = 0)

/-- The partial byte holds its `PCNT` bits and no more, and the output is within its capacity (10_state.md R42, R43). -/
abbrev PackerFits (s : State) : Prop :=
  s.block.part.toNat < 2 ^ s.block.pcnt.toNat ∧
    (s.config.obufCap.all fun cap => decide (s.block.obuf.length ≤ cap)) = true

/-- In `IDLE` the block is in the reset state but for the error record (45_session.md R295, 60_exceptions.md R321). -/
abbrev IdleIsReset (s : State) : Prop :=
  s.block.sstate = .idle →
    s.block = { Block.reset with errClass := s.block.errClass, errCause := s.block.errCause }

/-- The error record: none in an open session, one in `FAILED` (10_state.md R35, 60_exceptions.md R318). -/
abbrev ErrorRecord (s : State) : Prop :=
  (InSession s.block.sstate → s.block.errClass = 0 ∧ s.block.errCause = 0) ∧
    (s.block.sstate = .failed → s.block.errClass ≠ 0)

/-- What holds of the machine after reset and after every step. -/
structure Inv (s : State) : Prop where
  ctxWhole : CtxWhole s
  lpsChecked : LpsChecked s
  encInterval : EncInterval s
  encFinal : EncFinal s
  encSide : EncSide s
  decInterval : DecInterval s
  decSide : DecSide s
  packerFits : PackerFits s
  idleIsReset : IdleIsReset s
  errorRecord : ErrorRecord s

/-! ### Sequences of commands -/

/-- The state after a command that completes; `none` when it raises an error. -/
def perform (i : Instr) (s : State) : Option State :=
  match exec i s with
  | .next t =>
    match t.response with
    | some ⟨.ok, _, _, _⟩ => some t
    | _ => none
  | _ => none

/-- The states after each command of a list, when all of them complete. -/
def performAll : List Instr → State → Option (List State)
  | [], _ => some []
  | i :: is, s =>
    match perform i s with
    | none => none
    | some t => (performAll is t).map (t :: ·)

/-- A bin as an encode session codes it and a decode session reads it back (44_decoder.md R269). -/
inductive CodedBin where
  | regular (ctx : BitVec 16) (bin : Bit)
  | bypass (bin : Bit)
deriving DecidableEq, Repr

/-- A bin as an operand word. -/
def bitWord (bin : Bit) : Word := BitVec.ofNat 32 bin.toNat

/-- The bin. -/
def CodedBin.bin : CodedBin → Bit
  | .regular _ bin => bin
  | .bypass bin => bin

/-- The command that encodes it. -/
def CodedBin.encode : CodedBin → Instr
  | .regular ctx bin => .encReg ctx (bitWord bin)
  | .bypass bin => .encByp (bitWord bin)

/-- The command that decodes it. -/
def CodedBin.decode : CodedBin → Instr
  | .regular ctx _ => .decReg ctx
  | .bypass _ => .decByp

/-! ### The permission table and the error table -/

/-- The cause with which a command of a row of 45_session.md R290 is refused in a session state; `none` where it is
accepted. -/
def refusedWith : Checked → SessionState → Option Cause
  | _, .failed => some .sessionFailed
  | .encode, .encActive => none
  | .encode, .encFinal => some .afterFinalize
  | .encode, .idle | .encode, .decActive | .encode, .decEnded => some .wrongState
  | .decode, .decActive => none
  | .decode, .decEnded => some .afterEnd
  | .decode, .idle | .decode, .encActive | .decode, .encFinal => some .wrongState
  | .ctxSel, .encActive | .ctxSel, .decActive => none
  | .ctxSel, .idle | .ctxSel, .encFinal | .ctxSel, .decEnded => some .wrongState
  | .ctxRd, .idle => some .noContext
  | .ctxRd, .encActive | .ctxRd, .encFinal | .ctxRd, .decActive | .ctxRd, .decEnded => none

/-- The causes a state check can raise (45_session.md R291). -/
def stateCauses : Checked → List Cause
  | .encode => [.wrongState, .afterFinalize, .sessionFailed]
  | .decode => [.wrongState, .afterEnd, .sessionFailed]
  | .ctxSel => [.wrongState, .sessionFailed]
  | .ctxRd => [.noContext, .sessionFailed]

/-- The errors each command can raise beside those of class `IllegalCommand` and, since they never occur
(60_exceptions.md R314), the bounds failures (60_exceptions.md R316). -/
def errorsOf : Instr → List Cause
  | .encInit _ => [.noSeed, .badLpsTable]
  | .encReg _ _ => stateCauses .encode ++ [.ctxRange, .binValue, .binCountOverflow, .pendingOverflow, .outputOverflow]
  | .encByp _ => stateCauses .encode ++ [.binValue, .binCountOverflow, .pendingOverflow, .outputOverflow]
  | .encFin => stateCauses .encode ++ [.pendingOverflow, .outputOverflow]
  | .decInit _ _ _ => [.noSeed, .badLpsTable, .sourceExhausted, .badInitOffset]
  | .decReg _ => stateCauses .decode ++ [.ctxRange, .pastCount, .binCountOverflow, .sourceExhausted]
  | .decByp => stateCauses .decode ++ [.pastCount, .binCountOverflow, .sourceExhausted]
  | .decEnd => stateCauses .decode
  | .ctxSel _ _ _ => stateCauses .ctxSel ++ [.noRange, .noOffset, .ctxOutsideRange]
  | .ctxRd _ => stateCauses .ctxRd ++ [.ctxRange]
  | .binU _ => [.negValue]
  | .binTu _ _ => [.negCutoff, .negValue]
  | .binEgu _ _ => [.badOrder, .negValue]
  | .binEgs _ _ => [.badOrder]
  | .binFl _ _ => [.badLength, .flRange]
  | .debinU _ => [.binValue, .debinExtra, .debinOverflow]
  | .debinTu _ _ => [.negCutoff, .binValue, .debinExtra]
  | .debinEgu _ _ => [.badOrder, .binValue, .debinMalformed, .debinExtra, .debinOverflow]
  | .debinEgs _ _ => [.badOrder, .binValue, .debinMalformed, .debinExtra, .debinOverflow]
  | .debinFl _ _ => [.badLength, .binValue, .debinExtra, .debinOverflow]
  | .abort => []
  | .stat _ => []

/-- The two commands that start a session. -/
def isInit : Instr → Bool
  | .encInit _ => true
  | .decInit _ _ _ => true
  | .encReg _ _ | .encByp _ | .encFin | .decReg _ | .decByp | .decEnd | .ctxSel _ _ _ | .ctxRd _ | .binU _ | .binTu _ _
  | .binEgu _ _ | .binEgs _ _ | .binFl _ _ | .debinU _ | .debinTu _ _ | .debinEgu _ _ | .debinEgs _ _ | .debinFl _ _
  | .abort | .stat _ => false

/-- The commands that write no register when they complete (40_binarizer.md R130, 45_session.md R294). -/
def writesNothing : Instr → Bool
  | .ctxSel _ _ _ | .ctxRd _ | .binU _ | .binTu _ _ | .binEgu _ _ | .binEgs _ _ | .binFl _ _ | .debinU _ | .debinTu _ _
  | .debinEgu _ _ | .debinEgs _ _ | .debinFl _ _ | .stat _ => true
  | .encInit _ | .encReg _ _ | .encByp _ | .encFin | .decInit _ _ _ | .decReg _ | .decByp | .decEnd | .abort => false

/-- The state check a command makes, if any (45_session.md R290). -/
def stateCheckOf : Instr → Option Checked
  | .encReg _ _ | .encByp _ | .encFin => some .encode
  | .decReg _ | .decByp | .decEnd => some .decode
  | .ctxSel _ _ _ => some .ctxSel
  | .ctxRd _ => some .ctxRd
  | .encInit _ | .decInit _ _ _ | .binU _ | .binTu _ _ | .binEgu _ _ | .binEgs _ _ | .binFl _ _ | .debinU _ | .debinTu _ _
  | .debinEgu _ _ | .debinEgs _ _ | .debinFl _ _ | .abort | .stat _ => none

end Sys2Proof.Machine
end

