-- ==== Sys2Proof/Certificates/Slice0/Obligations.lean ====
section
/-! DEFINITION. Obligations.lean: the statements for the provers. Rules R<n> are those of spec/; where a clause is the
model's choice its docstring says so and names the log entry. -/

open Sys2Proof Sys2Proof.Machine

/-! ### Reset, steps, encoding -/

/-- 10_state.md R50, 70_reset_and_hazards.md R340: what every register holds after reset. -/
def Obligations.ResetLeavesEveryRegisterAtItsValue : Prop :=
  State.reset.block.sstate = .idle ∧ State.reset.block.mode = 0 ∧ State.reset.block.errClass = 0 ∧
    State.reset.block.errCause = 0 ∧ (∀ j : Nat, State.reset.block.ctx.bind (·[j]?) = none) ∧
    State.reset.block.low = 0 ∧ State.reset.block.range = 0 ∧ State.reset.block.pending = 0 ∧
    State.reset.block.first = false ∧ State.reset.block.last = false ∧ State.reset.block.part = 0 ∧
    State.reset.block.pcnt = 0 ∧ State.reset.block.obuf = [] ∧ State.reset.block.ibuf = [] ∧
    State.reset.block.ipos = 0 ∧ State.reset.block.binCount = 0 ∧ State.reset.block.hasDecl = false ∧
    State.reset.block.declCount = 0

/-- The invariant holds at reset, under every parameter set. -/
def Obligations.InvariantHoldsAtReset : Prop :=
  Inv State.reset ∧ ∀ cfg : Config, Inv (State.resetWith cfg)

/-- 00_scope.md R17: a step performs the command presented. -/
def Obligations.StepRunsTheDecodedCommand : Prop :=
  ∀ (s : State) (c : Command) (rest : List Command) (i : Instr),
    s.commands = c :: rest → decode c = .ok i → step s = exec i { s with commands := rest }

/-- 60_exceptions.md R315, R318: an illegal command word has no effect but the error's; the session in progress goes by
R318 also when the opcode is that of an `INIT` (R321). -/
def Obligations.IllegalWordTakesTheError : Prop :=
  ∀ (s : State) (c : Command) (rest : List Command) (e : Illegal),
    s.commands = c :: rest → decode c = .error e →
      ∃ code : Byte,
        (e = .badOpcode → code = 0x51) ∧ (e = .reservedBits → code = 0x52) ∧ (e = .badScheme → code = 0x53) ∧
        (e = .badSelector → code = 0x54) ∧
        step s = .next { s with
          commands := rest
          block := { s.block with
            errClass := if s.block.errClass = 0 then 5 else s.block.errClass
            errCause := if s.block.errClass = 0 then code else s.block.errCause
            sstate := if s.block.sstate = .idle then .idle else .failed }
          response := some ⟨.error (Cause.ofIllegal e), 0, 0, []⟩ }

/-- The model's choice (log 3): with no command presented the block waits (70_reset_and_hazards.md R341). -/
def Obligations.StepWaitsWhenNothingIsPresented : Prop :=
  ∀ s : State, s.commands = [] → step s = .next s

/-- The command placed by `withFetchWord` is the one the next step runs (the model's convention, logs 4 and 14). -/
def Obligations.PresentedTableWordRunsNext : Prop :=
  ∀ (s : State) (nbits w : Nat) (i : Instr),
    decodeTableWord nbits w = some i → step (s.withFetchWord nbits w) = exec i s

/-- 30_encoding.md R112 and vectors of 95_test_vectors.md: words of every family read as the commands they stand for. -/
def Obligations.ExampleWordsDecode : Prop :=
  decode ⟨0x02000003, 0, 0, .absent⟩ = .ok (.encReg 3 0) ∧
    decode ⟨0x09000100, 5, 0, .absent⟩ = .ok (.ctxSel 0 1 5) ∧
    decode ⟨0x0B000003, 0xFFFFFFFD, 1, .absent⟩ = .ok (.binEgs 0xFFFFFFFD 1) ∧
    decode ⟨0x05000001, 4, 0, .bytes [0x5C, 0x7F, 0xC0]⟩ = .ok (.decInit 0 (some 4) [0x5C, 0x7F, 0xC0]) ∧
    decode ⟨0x0E000004, 0, 0, .absent⟩ = .ok (.stat 4) ∧
    decode ⟨0x02010000, 0, 0, .absent⟩ = .error .reservedBits ∧
    decode ⟨0x01070000, 0, 0, .absent⟩ = .ok (.encInit 7) ∧
    decode ⟨0x0C000002, 0, 2, .words [1, 0]⟩ = .ok (.debinEgu 2 [1, 0])

/-- Decode and encode agree: no bit of an encoding is dropped. -/
def Obligations.DecodeOfEncodeIsTheCommand : Prop :=
  ∀ i : Instr, i.wellFormed = true → decode (encode i) = .ok i

/-- The other direction, on the command word: it has one meaning only, and every command read is well formed. -/
def Obligations.DecodedCommandEncodesToItsWord : Prop :=
  ∀ (c : Command) (i : Instr), decode c = .ok i → encodeWord i = c.cmd ∧ i.wellFormed = true

/-- 30_encoding.md R108, R109: a legal command word matches exactly one row of the table, the row of its command; an
illegal one matches none; the word 0 is illegal. -/
def Obligations.LegalWordMatchesExactlyItsRow : Prop :=
  (∀ (a b : Word) (l : ListOperand), decode ⟨0, a, b, l⟩ = .error .badOpcode) ∧
  (∀ (c : Command) (i : Instr), decode c = .ok i →
      ∃ row, opcodeRows[i.row]? = some row ∧ rowMatches c.cmd row = true ∧
        ∀ (k : Nat) (other : Word × Word), opcodeRows[k]? = some other → rowMatches c.cmd other = true → k = i.row) ∧
    (∀ (c : Command) (e : Illegal) (row : Word × Word),
      decode c = .error e → row ∈ opcodeRows → rowMatches c.cmd row = false)

/-- 30_encoding.md R107: the checks of a command word, in their order, with the reserved bits of R101; the first that
fails ends the command, whatever the state, with its cause. -/
def Obligations.IllegalWordsAreRefusedInOrder : Prop :=
  ∀ c : Command,
    let opc := c.cmd.toNat / 2 ^ 24
    let reserved : Word :=
      if opc ∈ [3, 4, 7, 8, 13] then 0x00FFFFFF
      else if opc = 1 then 0x0000FFFF
      else if opc = 5 then 0x0000FFFE
      else if opc ∈ [2, 6, 10] then 0x00FF0000
      else if opc = 9 then 0x000000FF
      else if opc ∈ [11, 12] then 0x00FFFFF8
      else 0x00FFFFF0
    let ends : Cause → Prop := fun e =>
      e.errorClass = .illegalCommand ∧ ∀ (s : State) (rest : List Command), s.commands = c :: rest →
        ∃ t, step s = .next t ∧ t.response = some ⟨.error e, 0, 0, []⟩
    if opc = 0 ∨ 14 < opc then ends .badOpcode
    else if c.cmd &&& reserved ≠ 0 then ends .reservedBits
    else if (opc = 11 ∨ opc = 12) ∧ 5 ≤ c.cmd.toNat % 8 then ends .badScheme
    else if opc = 14 ∧ 8 ≤ c.cmd.toNat % 16 then ends .badSelector
    else ∃ i, decode c = .ok i

/-- 30_encoding.md R103: operand words and lists that the table calls ignored have no effect: two commands with one
command word that agree on the operands it reads are one command. -/
def Obligations.IgnoredOperandsHaveNoEffect : Prop :=
  ∀ c d : Command,
    c.cmd = d.cmd →
    (c.cmd.toNat / 2 ^ 24 ∈ [2, 3, 9, 11] → c.a = d.a) →
    (c.cmd.toNat / 2 ^ 24 = 5 → c.cmd.toNat % 2 = 1 → c.a = d.a) →
    (c.cmd.toNat / 2 ^ 24 ∈ [11, 12] → c.cmd.toNat % 8 ≠ 0 → c.b = d.b) →
    (c.cmd.toNat / 2 ^ 24 ∈ [5, 12] → c.list = d.list) →
    decode c = decode d

/-! ### Responses, errors and session states -/

/-- 00_scope.md R16, R17, 20_memory.md R76: every command answers at once, and writes neither the parameters nor what the
caller has yet to present. -/
def Obligations.EveryCommandAnswers : Prop :=
  ∀ (i : Instr) (s : State),
    ∃ t r, exec i s = .next t ∧ t.response = some r ∧ t.config = s.config ∧ t.commands = s.commands

/-- 60_exceptions.md R318, R319: an error of a command other than an `INIT` changes nothing but the error registers and
`SSTATE`, and answers no result. -/
def Obligations.ErrorChangesOnlyTheErrorRegisters : Prop :=
  ∀ (i : Instr) (s t : State) (c : Cause) (r0 r1 : Word) (bout : List Bit),
    isInit i = false → exec i s = .next t → t.response = some ⟨.error c, r0, r1, bout⟩ →
      r0 = 0 ∧ r1 = 0 ∧ bout = [] ∧ t.config = s.config ∧ t.commands = s.commands ∧
      t.block = { s.block with
        errClass := if s.block.errClass = 0 then c.errorClass.code else s.block.errClass
        errCause := if s.block.errClass = 0 then c.code else s.block.errCause
        sstate := if s.block.sstate = .idle then .idle else .failed }

/-- 60_exceptions.md R321: an `INIT` that fails leaves the reset state with the error recorded. -/
def Obligations.FailedInitLeavesTheResetState : Prop :=
  ∀ (i : Instr) (s t : State) (c : Cause) (r0 r1 : Word) (bout : List Bit),
    isInit i = true → exec i s = .next t → t.response = some ⟨.error c, r0, r1, bout⟩ →
      r0 = 0 ∧ r1 = 0 ∧ bout = [] ∧ t.config = s.config ∧ t.commands = s.commands ∧
      t.block = { Block.reset with errClass := c.errorClass.code, errCause := c.code } ∧ t.block.errClass ≠ 0

/-- 60_exceptions.md R319: the error record keeps the first error until an `INIT` or `ABORT`. -/
def Obligations.FirstErrorIsKept : Prop :=
  ∀ (i : Instr) (s t : State),
    isInit i = false → i ≠ .abort → s.block.errClass ≠ 0 → exec i s = .next t →
      t.block.errClass = s.block.errClass ∧ t.block.errCause = s.block.errCause

/-- 45_session.md R295: every transition of `SSTATE`. -/
def Obligations.SessionStateFollowsTheTable : Prop :=
  ∀ (i : Instr) (s t : State),
    exec i s = .next t →
      (∀ r0 r1 bout, t.response = some ⟨.ok, r0, r1, bout⟩ →
        (i = .abort → t.block.sstate = .idle) ∧
        (∀ mode, i = .encInit mode → t.block.sstate = .encActive) ∧
        (∀ mode declared input, i = .decInit mode declared input → t.block.sstate = .decActive) ∧
        (i = .encFin → s.block.sstate = .encActive ∧ t.block.sstate = .encFinal) ∧
        (i = .decEnd → s.block.sstate = .decActive ∧ t.block.sstate = .decEnded) ∧
        (isInit i = false → i ≠ .abort → i ≠ .encFin → i ≠ .decEnd → t.block.sstate = s.block.sstate)) ∧
      (∀ c r0 r1 bout, t.response = some ⟨.error c, r0, r1, bout⟩ →
        t.block.sstate = if isInit i = true ∨ s.block.sstate = .idle then .idle else .failed)

/-- 45_session.md R290, R291: a command presented in a state that does not accept it is refused with the cause of the
table. -/
def Obligations.CommandsOutsideTheirStatesAreRefused : Prop :=
  ∀ (i : Instr) (k : Checked) (s : State) (c : Cause),
    stateCheckOf i = some k → refusedWith k s.block.sstate = some c →
      ∃ t, exec i s = .next t ∧ t.response = some ⟨.error c, 0, 0, []⟩

/-- 60_exceptions.md R316, R317, R314: from a state of the invariant a command raises no error but those its row lists,
so none of the bounds failures. -/
def Obligations.ErrorsAreThoseOfTheTable : Prop :=
  ∀ (i : Instr) (s t : State) (c : Cause) (r0 r1 : Word) (bout : List Bit),
    Inv s → i.wellFormed = true → exec i s = .next t → t.response = some ⟨.error c, r0, r1, bout⟩ → c ∈ errorsOf i

/-! ### Starting a session -/

/-- 42_encoder.md R200, R201, 41_context.md R171: `ENC.INIT`, from every state. -/
def Obligations.EncInitStartsASession : Prop :=
  ∀ (s : State) (mode : Byte),
    SeedLegal s.config mode → LpsLegal s.config →
      ∃ tab : List ContextState,
        tab.length = nCtx s.config ∧
        (∀ rows i e, s.config.seed.lookup mode = some rows → i < nCtx s.config → rows.lookup i = some e →
          ∃ c, tab[i]? = some c ∧ c.pStateIdx.toNat = e.pStateIdx ∧ c.valMPS.toNat = e.valMPS) ∧
        exec (.encInit mode) s = .next { s with
          block := { Block.reset with
            sstate := .encActive, mode := mode, ctx := some tab, low := 0, range := 510, first := true }
          response := some ⟨.ok, 0, 0, []⟩ }

/-- 44_decoder.md R260, R261, 41_context.md R171: `DEC.INIT` reads nine bits, the first byte and the top bit of the
second. -/
def Obligations.DecInitStartsASession : Prop :=
  ∀ (s : State) (mode : Byte) (declared : Option Word) (b0 b1 : Byte) (more : List Byte),
    SeedLegal s.config mode → LpsLegal s.config → 2 * b0.toNat + b1.toNat / 128 < 510 →
      ∃ tab : List ContextState,
        tab.length = nCtx s.config ∧
        (∀ rows i e, s.config.seed.lookup mode = some rows → i < nCtx s.config → rows.lookup i = some e →
          ∃ c, tab[i]? = some c ∧ c.pStateIdx.toNat = e.pStateIdx ∧ c.valMPS.toNat = e.valMPS) ∧
        exec (.decInit mode declared (b0 :: b1 :: more)) s = .next { s with
          block := { Block.reset with
            sstate := .decActive, mode := mode, ctx := some tab
            low := BitVec.ofNat 10 (2 * b0.toNat + b1.toNat / 128), range := 510
            ibuf := b0 :: b1 :: more, ipos := 9
            hasDecl := declared.isSome, declCount := declared.getD 0 }
          response := some ⟨.ok, 0, 0, []⟩ }

/-- 41_context.md R171: the two checks of the parameters at session start, in their order. -/
def Obligations.InitRefusesBadParameters : Prop :=
  ∀ (s : State) (mode : Byte) (i : Instr),
    (i = .encInit mode ∨ ∃ declared input, i = .decInit mode declared input) →
      (¬ SeedLegal s.config mode → ∃ t, exec i s = .next t ∧ t.response = some ⟨.error .noSeed, 0, 0, []⟩) ∧
      (SeedLegal s.config mode → ¬ LpsLegal s.config →
        ∃ t, exec i s = .next t ∧ t.response = some ⟨.error .badLpsTable, 0, 0, []⟩)

/-- 44_decoder.md R260, R261, R262: an input of fewer than nine bits, and first bits of 510 or 511, are refused. -/
def Obligations.DecInitRefusesBadInput : Prop :=
  ∀ (s : State) (mode : Byte) (declared : Option Word),
    SeedLegal s.config mode → LpsLegal s.config →
      (∀ input : List Byte, input.length < 2 →
        ∃ t, exec (.decInit mode declared input) s = .next t ∧
          t.response = some ⟨.error .sourceExhausted, 0, 0, []⟩) ∧
      (∀ (b0 b1 : Byte) (more : List Byte), 510 ≤ 2 * b0.toNat + b1.toNat / 128 →
        ∃ t, exec (.decInit mode declared (b0 :: b1 :: more)) s = .next t ∧
          t.response = some ⟨.error .badInitOffset, 0, 0, []⟩)

/-- 10_state.md R55, 45_session.md R296: nothing of the old session survives the start of a new one. -/
def Obligations.InitForgetsTheOldSession : Prop :=
  ∀ (i : Instr) (s s' t t' : State),
    isInit i = true → s.config = s'.config → exec i s = .next t → exec i s' = .next t' →
      t.block = t'.block ∧ t.response = t'.response

/-! ### The encoder -/

/-- 42_encoder.md R202 to R206, 41_context.md R173, R174, 43_bit_sink.md R233: a regular bin narrows the exact interval
to the sub-interval of the bin (the MPS the lower part, the LPS the upper), doubles it until the range is at least 256,
and adapts its one context. -/
def Obligations.EncRegNarrowsTheExactInterval : Prop :=
  ∀ (s : State) (i : BitVec 16) (bin : Bit) (tab : List ContextState) (c : ContextState),
    Inv s → s.block.sstate = .encActive → s.block.ctx = some tab → tab[i.toNat]? = some c →
    s.block.binCount.toNat < 2 ^ 32 - 1 →
    let lps := lpsEntry s.config c.pStateIdx (BitVec.ofNat 2 (s.block.range.toNat / 64))
    let mps := s.block.range.toNat - lps
    let r := if bin = c.valMPS then mps else lps
    let k := doublings r
    ¬ RunPasses s.block.pending.toNat (s.block.low.toNat + if bin = c.valMPS then 0 else mps) k →
    Room s.config s.block k →
      ∃ t, exec (.encReg i (bitWord bin)) s = .next t ∧ t.response = some ⟨.ok, 0, 0, []⟩ ∧
        t.block.range.toNat = r * 2 ^ k ∧
        t.block.exactLow = (s.block.exactLow + if bin = c.valMPS then 0 else mps) * 2 ^ k ∧
        t.block.position = s.block.position + k ∧
        t.block.ctx = some (tab.set i.toNat
          (if bin = c.valMPS then ⟨s.config.nextMps[c.pStateIdx.toNat], c.valMPS⟩
           else ⟨s.config.nextLps[c.pStateIdx.toNat], if c.pStateIdx = 0 then !c.valMPS else c.valMPS⟩)) ∧
        t.block.binCount.toNat = s.block.binCount.toNat + 1 ∧
        s.block.bits <+: t.block.bits ∧ s.block.obuf <+: t.block.obuf ∧
        t.config = s.config ∧ t.commands = s.commands ∧ t.block.sstate = .encActive ∧ t.block.mode = s.block.mode ∧
        t.block.errClass = s.block.errClass ∧ t.block.errCause = s.block.errCause ∧ t.block.ibuf = s.block.ibuf ∧
        t.block.ipos = s.block.ipos ∧ t.block.hasDecl = s.block.hasDecl ∧ t.block.declCount = s.block.declCount

/-- 42_encoder.md R207, R208, 43_bit_sink.md R231, R232: the bypass step bit by bit. The doubled low, with the range
added for a bin of 1, lies in one of three bands: it settles a 1 and with it every pending bit as 0, settles a 0 and
with it every pending bit as 1, or leaves one more bit pending; the session's first settled bit is not written. -/
def Obligations.EncBypSettlesOneBit : Prop :=
  ∀ (s : State) (bin : Bit),
    Inv s → s.block.sstate = .encActive → s.block.binCount.toNat < 2 ^ 32 - 1 → Room s.config s.block 1 →
    let v := 2 * s.block.low.toNat + if bin then s.block.range.toNat else 0
    (512 ≤ v → v < 1024 → s.block.pending.toNat < 2 ^ 32 - 1) →
    let settled : Bit → List Bit := fun x =>
      s.block.bits ++ (if s.block.first then [] else [x]) ++ List.replicate s.block.pending.toNat (!x)
    ∃ t, exec (.encByp (bitWord bin)) s = .next t ∧ t.response = some ⟨.ok, 0, 0, []⟩ ∧
      (if 1024 ≤ v then
        t.block.low.toNat = v - 1024 ∧ t.block.bits = settled true ∧ t.block.pending = 0 ∧ t.block.first = false
      else if v < 512 then
        t.block.low.toNat = v ∧ t.block.bits = settled false ∧ t.block.pending = 0 ∧ t.block.first = false
      else
        t.block.low.toNat = v - 512 ∧ t.block.bits = s.block.bits ∧
          t.block.pending.toNat = s.block.pending.toNat + 1 ∧ t.block.first = s.block.first) ∧
      t.block.range = s.block.range ∧ t.block.ctx = s.block.ctx ∧
      t.block.binCount.toNat = s.block.binCount.toNat + 1 ∧ s.block.obuf <+: t.block.obuf ∧
      t.block.last = t.block.bits.getLastD false ∧
      t.config = s.config ∧ t.commands = s.commands ∧ t.block.sstate = .encActive ∧ t.block.mode = s.block.mode ∧
      t.block.errClass = s.block.errClass ∧ t.block.errCause = s.block.errCause ∧ t.block.ibuf = s.block.ibuf ∧
      t.block.ipos = s.block.ipos ∧ t.block.hasDecl = s.block.hasDecl ∧ t.block.declCount = s.block.declCount

/-- 42_encoder.md R210, 43_bit_sink.md R233: the same step on the exact interval: twice the scale, the upper half for a
bin of 1. -/
def Obligations.EncBypHalvesTheExactInterval : Prop :=
  ∀ (s t : State) (bin : Bit),
    Inv s → exec (.encByp (bitWord bin)) s = .next t → t.response = some ⟨.ok, 0, 0, []⟩ →
      t.block.exactLow = 2 * s.block.exactLow + (if bin then s.block.range.toNat else 0) ∧
      t.block.position = s.block.position + 1 ∧ t.block.range = s.block.range

/-- 43_bit_sink.md R235, R236, R237, R240: `ENC.FIN` writes the top of the exact interval, scaled by the seven doublings
of the flush, without its last eight bits, then the stop bit, in exactly `position + 9` bits, and pads with zeros to a
byte. -/
def Obligations.EncFinWritesTheFinalInterval : Prop :=
  ∀ s : State,
    Inv s → s.block.sstate = .encActive →
    ¬ RunPasses s.block.pending.toNat (s.block.low.toNat + s.block.range.toNat - 2) 7 →
    let n := s.block.position + 9
    let value := 2 * (2 ^ 7 * (s.block.exactLow + s.block.range.toNat - 2) / 2 ^ 8) + 1
    let pad := (8 - n % 8) % 8
    (∀ cap, s.config.obufCap = some cap → n + pad ≤ 8 * cap) →
      ∃ t, exec .encFin s = .next t ∧ t.response = some ⟨.ok, BitVec.ofNat 32 t.block.obuf.length, 0, []⟩ ∧
        8 * t.block.obuf.length = n + pad ∧
        bytesBits t.block.obuf = msbBits value n ++ List.replicate pad false ∧
        s.block.obuf <+: t.block.obuf ∧
        t.block.sstate = .encFinal ∧ t.block.range = 256 ∧ t.block.pending = 0 ∧ t.block.first = false ∧
        t.block.part = 0 ∧ t.block.pcnt = 0 ∧ t.block.last = decide (pad = 0) ∧
        t.config = s.config ∧ t.commands = s.commands ∧ t.block.ctx = s.block.ctx ∧ t.block.mode = s.block.mode ∧
        t.block.errClass = s.block.errClass ∧ t.block.errCause = s.block.errCause ∧ t.block.ibuf = s.block.ibuf ∧
        t.block.ipos = s.block.ipos ∧ t.block.binCount = s.block.binCount ∧ t.block.hasDecl = s.block.hasDecl ∧
        t.block.declCount = s.block.declCount

/-- 42_encoder.md R202, R207, R209, 60_exceptions.md R317: the operand checks of the encoder, in their order. -/
def Obligations.EncoderChecksItsOperandsInOrder : Prop :=
  ∀ (s : State) (i : BitVec 16) (bin : Word),
    s.block.sstate = .encActive →
      (if nCtx s.config ≤ i.toNat then
        ∃ t, exec (.encReg i bin) s = .next t ∧ t.response = some ⟨.error .ctxRange, 0, 0, []⟩
      else if 1 < bin.toNat then
        ∃ t, exec (.encReg i bin) s = .next t ∧ t.response = some ⟨.error .binValue, 0, 0, []⟩
      else if s.block.binCount.toNat = 2 ^ 32 - 1 then
        ∃ t, exec (.encReg i bin) s = .next t ∧ t.response = some ⟨.error .binCountOverflow, 0, 0, []⟩
      else True) ∧
      (if 1 < bin.toNat then
        ∃ t, exec (.encByp bin) s = .next t ∧ t.response = some ⟨.error .binValue, 0, 0, []⟩
      else if s.block.binCount.toNat = 2 ^ 32 - 1 then
        ∃ t, exec (.encByp bin) s = .next t ∧ t.response = some ⟨.error .binCountOverflow, 0, 0, []⟩
      else True)

/-- 43_bit_sink.md R230: the capacity of the output buffer. An encoder command that would complete without a bound does
exactly the same within the bound, or raises `OUTPUT_OVERFLOW` when its output would pass it. -/
def Obligations.OutputCapacityIsExact : Prop :=
  ∀ (i : Instr) (s t : State) (cap : Nat) (r : Response),
    (∃ ctx bin, i = .encReg ctx bin) ∨ (∃ bin, i = .encByp bin) ∨ i = .encFin →
    s.config.obufCap = some cap → s.block.obuf.length ≤ cap →
    exec i { s with config := { s.config with obufCap := none } } = .next t →
    t.response = some r → r.resp = .ok →
      if t.block.obuf.length ≤ cap then exec i s = .next { t with config := s.config }
      else ∃ t', exec i s = .next t' ∧ t'.response = some ⟨.error .outputOverflow, 0, 0, []⟩

/-- 43_bit_sink.md R232, 60_exceptions.md R314: a pending run cannot grow past 2^32 - 1 bits. A regular bin, a bypass bin
and the flush each raise `PENDING_OVERFLOW` when one of their steps would leave one more bit pending. -/
def Obligations.PendingRunIsBounded : Prop :=
  (∀ (s : State) (bin : Bit),
    Inv s → s.block.sstate = .encActive → s.block.binCount.toNat < 2 ^ 32 - 1 →
    s.block.pending.toNat = 2 ^ 32 - 1 →
    512 ≤ (2 * s.block.low.toNat + if bin then s.block.range.toNat else 0) →
    (2 * s.block.low.toNat + if bin then s.block.range.toNat else 0) < 1024 →
      ∃ t, exec (.encByp (bitWord bin)) s = .next t ∧ t.response = some ⟨.error .pendingOverflow, 0, 0, []⟩) ∧
  (∀ (s : State) (i : BitVec 16) (bin : Bit) (tab : List ContextState) (c : ContextState),
    Inv s → s.block.sstate = .encActive → s.block.ctx = some tab → tab[i.toNat]? = some c →
    s.block.binCount.toNat < 2 ^ 32 - 1 →
    let lps := lpsEntry s.config c.pStateIdx (BitVec.ofNat 2 (s.block.range.toNat / 64))
    let mps := s.block.range.toNat - lps
    RunPasses s.block.pending.toNat (s.block.low.toNat + if bin = c.valMPS then 0 else mps)
      (doublings (if bin = c.valMPS then mps else lps)) →
      ∃ t, exec (.encReg i (bitWord bin)) s = .next t ∧ t.response = some ⟨.error .pendingOverflow, 0, 0, []⟩) ∧
  (∀ s : State,
    Inv s → s.block.sstate = .encActive →
    RunPasses s.block.pending.toNat (s.block.low.toNat + s.block.range.toNat - 2) 7 →
      ∃ t, exec .encFin s = .next t ∧ t.response = some ⟨.error .pendingOverflow, 0, 0, []⟩)

/-! ### The decoder -/

/-- 44_decoder.md R263, R264, 41_context.md R173, R174: a regular bin. The offset below the MPS sub-range means the MPS;
the sub-interval is doubled until the range is at least 256, one input bit for each doubling. -/
def Obligations.DecRegDecodesTheBin : Prop :=
  ∀ (s : State) (i : BitVec 16) (tab : List ContextState) (c : ContextState),
    Inv s → s.block.sstate = .decActive → s.block.ctx = some tab → tab[i.toNat]? = some c →
    (s.block.hasDecl = true → s.block.binCount.toNat < s.block.declCount.toNat) →
    s.block.binCount.toNat < 2 ^ 32 - 1 →
    let lps := lpsEntry s.config c.pStateIdx (BitVec.ofNat 2 (s.block.range.toNat / 64))
    let mps := s.block.range.toNat - lps
    let isMps := decide (s.block.low.toNat < mps)
    let bin := if isMps then c.valMPS else !c.valMPS
    let r := if isMps then mps else lps
    let k := doublings r
    s.block.ipos + k ≤ 8 * s.block.ibuf.length →
      exec (.decReg i) s = .next { s with
        block := { s.block with
          range := BitVec.ofNat 9 (r * 2 ^ k)
          low := BitVec.ofNat 10
            ((s.block.low.toNat - if isMps then 0 else mps) * 2 ^ k + bitsValue (s.block.nextInput k))
          ipos := s.block.ipos + k
          binCount := s.block.binCount + 1
          ctx := some (tab.set i.toNat
            (if bin = c.valMPS then ⟨s.config.nextMps[c.pStateIdx.toNat], c.valMPS⟩
             else ⟨s.config.nextLps[c.pStateIdx.toNat], if c.pStateIdx = 0 then !c.valMPS else c.valMPS⟩)) }
        response := some ⟨.ok, bitWord bin, 0, []⟩ } ∧
      (s.block.nextInput k).length = k ∧ r * 2 ^ k < 512 ∧
      (s.block.low.toNat - if isMps then 0 else mps) * 2 ^ k + bitsValue (s.block.nextInput k) < r * 2 ^ k

/-- 44_decoder.md R265, R262: a bypass bin: one input bit, and a comparison of the doubled offset with the range. -/
def Obligations.DecBypDecodesTheBin : Prop :=
  ∀ s : State,
    Inv s → s.block.sstate = .decActive →
    (s.block.hasDecl = true → s.block.binCount.toNat < s.block.declCount.toNat) →
    s.block.binCount.toNat < 2 ^ 32 - 1 →
    s.block.ipos < 8 * s.block.ibuf.length →
    let v := 2 * s.block.low.toNat + bitsValue (s.block.nextInput 1)
    let bin := decide (s.block.range.toNat ≤ v)
    exec .decByp s = .next { s with
      block := { s.block with
        low := BitVec.ofNat 10 (if bin then v - s.block.range.toNat else v)
        ipos := s.block.ipos + 1
        binCount := s.block.binCount + 1 }
      response := some ⟨.ok, bitWord bin, 0, []⟩ } ∧
    (s.block.nextInput 1).length = 1 ∧ (if bin then v - s.block.range.toNat else v) < s.block.range.toNat

/-- 44_decoder.md R266: `DEC.END` ends the session and answers the bits consumed. -/
def Obligations.DecEndAnswersTheBitsRead : Prop :=
  ∀ s : State,
    s.block.sstate = .decActive →
      exec .decEnd s = .next { s with
        block := { s.block with sstate := .decEnded }
        response := some ⟨.ok, BitVec.ofNat 32 (s.block.ipos % 2 ^ 32), 0, []⟩ }

/-- 44_decoder.md R267, R263, R265, R262, 42_encoder.md R209: the limits of a decode session, in the order they are
checked: the declared count, the bin counter, the end of the input. -/
def Obligations.DecoderStopsAtItsLimits : Prop :=
  ∀ s : State,
    Inv s → s.block.sstate = .decActive →
      (if s.block.hasDecl = true ∧ s.block.declCount.toNat ≤ s.block.binCount.toNat then
        ∃ t, exec .decByp s = .next t ∧ t.response = some ⟨.error .pastCount, 0, 0, []⟩
      else if s.block.binCount.toNat = 2 ^ 32 - 1 then
        ∃ t, exec .decByp s = .next t ∧ t.response = some ⟨.error .binCountOverflow, 0, 0, []⟩
      else if s.block.ipos = 8 * s.block.ibuf.length then
        ∃ t, exec .decByp s = .next t ∧ t.response = some ⟨.error .sourceExhausted, 0, 0, []⟩
      else True) ∧
      (∀ (i : BitVec 16) (tab : List ContextState) (c : ContextState),
        s.block.ctx = some tab → tab[i.toNat]? = some c →
        let lps := lpsEntry s.config c.pStateIdx (BitVec.ofNat 2 (s.block.range.toNat / 64))
        let mps := s.block.range.toNat - lps
        let r := if s.block.low.toNat < mps then mps else lps
        if s.block.hasDecl = true ∧ s.block.declCount.toNat ≤ s.block.binCount.toNat then
          ∃ t, exec (.decReg i) s = .next t ∧ t.response = some ⟨.error .pastCount, 0, 0, []⟩
        else if s.block.binCount.toNat = 2 ^ 32 - 1 then
          ∃ t, exec (.decReg i) s = .next t ∧ t.response = some ⟨.error .binCountOverflow, 0, 0, []⟩
        else if 8 * s.block.ibuf.length < s.block.ipos + doublings r then
          ∃ t, exec (.decReg i) s = .next t ∧ t.response = some ⟨.error .sourceExhausted, 0, 0, []⟩
        else True) ∧
      (∀ i : BitVec 16, nCtx s.config ≤ i.toNat →
        ∃ t, exec (.decReg i) s = .next t ∧ t.response = some ⟨.error .ctxRange, 0, 0, []⟩)

/-! ### Contexts -/

/-- 41_context.md R177, R178: `CTX.SEL` answers `start + off + inc`, always a valid index, or the first check that
fails. -/
def Obligations.CtxSelSelectsByTheTables : Prop :=
  ∀ (s : State) (se cat : Byte) (binIdx : Word),
    s.block.sstate = .encActive ∨ s.block.sstate = .decActive →
      (s.config.ctxRange.lookup (se, s.block.mode) = none →
        ∃ t, exec (.ctxSel se cat binIdx) s = .next t ∧ t.response = some ⟨.error .noRange, 0, 0, []⟩) ∧
      (∀ start len, s.config.ctxRange.lookup (se, s.block.mode) = some (start, len) →
        (s.config.ctxOffset.lookup (se, cat) = none →
          ∃ t, exec (.ctxSel se cat binIdx) s = .next t ∧ t.response = some ⟨.error .noOffset, 0, 0, []⟩) ∧
        (∀ off, s.config.ctxOffset.lookup (se, cat) = some off →
          let inc := (s.config.ctxBinInc.lookup (se, binIdx)).getD s.config.ctxBinIncElse
          if len ≤ off + inc ∨ s.config.lastCtx.toNat + 1 < start + len then
            ∃ t, exec (.ctxSel se cat binIdx) s = .next t ∧ t.response = some ⟨.error .ctxOutsideRange, 0, 0, []⟩
          else
            ∃ w : Word, w.toNat = start + off + inc ∧ w.toNat < nCtx s.config ∧
              exec (.ctxSel se cat binIdx) s = .next { s with response := some ⟨.ok, w, 0, []⟩ }))

/-- 41_context.md R179, R170: `CTX.RD` answers `pStateIdx + 64 * valMPS` and writes nothing; an index at or above
`N_CTX` is refused. -/
def Obligations.CtxRdAnswersTheEntry : Prop :=
  ∀ (s : State) (i : BitVec 16),
    InSession s.block.sstate →
      (∀ tab c, s.block.ctx = some tab → tab[i.toNat]? = some c → i.toNat < nCtx s.config →
        ∃ w : Word, w.toNat = c.pStateIdx.toNat + 64 * c.valMPS.toNat ∧
          exec (.ctxRd i) s = .next { s with response := some ⟨.ok, w, 0, []⟩ }) ∧
      (nCtx s.config ≤ i.toNat →
        ∃ t, exec (.ctxRd i) s = .next t ∧ t.response = some ⟨.error .ctxRange, 0, 0, []⟩)

/-! ### The binarizer -/

/-- 40_binarizer.md R133, R134: the unary and truncated unary codes, in every session state. -/
def Obligations.BinUnaryAnswersItsCode : Prop :=
  (∀ (s : State) (v : Word), 0 ≤ v.toInt →
      exec (.binU v) s = .next { s with
        response := some ⟨.ok, BitVec.ofNat 32 (v.toNat + 1), 0, List.replicate v.toNat true ++ [false]⟩ }) ∧
    (∀ (s : State) (v c : Word), 0 ≤ v.toInt → 0 ≤ c.toInt →
      exec (.binTu v c) s = .next { s with
        response := some (if v.toNat < c.toNat
          then ⟨.ok, BitVec.ofNat 32 (v.toNat + 1), 0, List.replicate v.toNat true ++ [false]⟩
          else ⟨.ok, c, 0, List.replicate c.toNat true⟩) })

/-- 40_binarizer.md R135, R136: the exp-Golomb codes: a prefix of `(u >> k) + 1` ones, a zero, and the low `k` bits of
`u`, most significant first, where a signed value is folded first; `R0` saturates. -/
def Obligations.BinExpGolombAnswersItsCode : Prop :=
  (∀ (s : State) (v k : Word), 0 ≤ v.toInt → k.toNat ≤ 31 →
      ∃ suffix : List Bit, suffix.length = k.toNat ∧ bitsValue suffix = v.toNat % 2 ^ k.toNat ∧
        exec (.binEgu v k) s = .next { s with
          response := some ⟨.ok, BitVec.ofNat 32 (min (v.toNat / 2 ^ k.toNat + 2 + k.toNat) (2 ^ 32 - 1)), 0,
            List.replicate (v.toNat / 2 ^ k.toNat + 1) true ++ false :: suffix⟩ }) ∧
    (∀ (s : State) (v k : Word), k.toNat ≤ 31 →
      ∃ (u : Nat) (suffix : List Bit),
        (u : Int) = 2 * (v.toInt.natAbs : Int) - (if v.toInt < 0 then 1 else 0) ∧
        suffix.length = k.toNat ∧ bitsValue suffix = u % 2 ^ k.toNat ∧
        exec (.binEgs v k) s = .next { s with
          response := some ⟨.ok, BitVec.ofNat 32 (min (u / 2 ^ k.toNat + 2 + k.toNat) (2 ^ 32 - 1)), 0,
            List.replicate (u / 2 ^ k.toNat + 1) true ++ false :: suffix⟩ })

/-- 40_binarizer.md R137: the fixed-length code of a value that fits. -/
def Obligations.BinFixedAnswersItsCode : Prop :=
  ∀ (s : State) (v len : Word), 0 ≤ v.toInt → len.toNat ≤ 32 → v.toNat < 2 ^ len.toNat →
    ∃ bins : List Bit, bins.length = len.toNat ∧ bitsValue bins = v.toNat ∧
      exec (.binFl v len) s = .next { s with response := some ⟨.ok, len, 0, bins⟩ }

/-- 40_binarizer.md R132, R138: the checks of `BIN.*`, the parameter first. -/
def Obligations.BinChecksItsOperandsInOrder : Prop :=
  ∀ (s : State) (v p : Word),
    (v.toInt < 0 → ∃ t, exec (.binU v) s = .next t ∧ t.response = some ⟨.error .negValue, 0, 0, []⟩) ∧
    (if p.toInt < 0 then ∃ t, exec (.binTu v p) s = .next t ∧ t.response = some ⟨.error .negCutoff, 0, 0, []⟩
     else if v.toInt < 0 then ∃ t, exec (.binTu v p) s = .next t ∧ t.response = some ⟨.error .negValue, 0, 0, []⟩
     else True) ∧
    (if 31 < p.toNat then
      (∃ t, exec (.binEgu v p) s = .next t ∧ t.response = some ⟨.error .badOrder, 0, 0, []⟩) ∧
      (∃ t, exec (.binEgs v p) s = .next t ∧ t.response = some ⟨.error .badOrder, 0, 0, []⟩)
     else if v.toInt < 0 then ∃ t, exec (.binEgu v p) s = .next t ∧ t.response = some ⟨.error .negValue, 0, 0, []⟩
     else True) ∧
    (if 32 < p.toNat then ∃ t, exec (.binFl v p) s = .next t ∧ t.response = some ⟨.error .badLength, 0, 0, []⟩
     else if v.toInt < 0 ∨ 2 ^ p.toNat ≤ v.toInt then
      ∃ t, exec (.binFl v p) s = .next t ∧ t.response = some ⟨.error .flRange, 0, 0, []⟩
     else True)

/-- 40_binarizer.md R139 to R144: `DEBIN.*` is complete on every code of a value its `BIN` command accepts, and answers
that value. -/
def Obligations.DebinCompletesOnEveryCode : Prop :=
  (∀ (s : State) (n : Nat), n ≤ 2 ^ 31 - 1 →
      exec (.debinU ((List.replicate n true ++ [false]).map bitWord)) s =
        .next { s with response := some ⟨.ok, BitVec.ofNat 32 n, 1, []⟩ }) ∧
    (∀ (s : State) (c : Word), 0 ≤ c.toInt →
      (∀ n < c.toNat, exec (.debinTu c ((List.replicate n true ++ [false]).map bitWord)) s =
        .next { s with response := some ⟨.ok, BitVec.ofNat 32 n, 1, []⟩ }) ∧
      exec (.debinTu c ((List.replicate c.toNat true).map bitWord)) s =
        .next { s with response := some ⟨.ok, c, 1, []⟩ }) ∧
    (∀ (s : State) (k : Word) (q : Nat) (suffix : List Bit), k.toNat ≤ 31 → suffix.length = k.toNat →
      let u := q * 2 ^ k.toNat + bitsValue suffix
      let bins := (List.replicate (q + 1) true ++ false :: suffix).map bitWord
      (u ≤ 2 ^ 31 - 1 → exec (.debinEgu k bins) s =
        .next { s with response := some ⟨.ok, BitVec.ofNat 32 u, 1, []⟩ }) ∧
      (u ≤ 2 ^ 32 - 1 → ∃ v : Word,
        (u : Int) = 2 * (v.toInt.natAbs : Int) - (if v.toInt < 0 then 1 else 0) ∧
        exec (.debinEgs k bins) s = .next { s with response := some ⟨.ok, v, 1, []⟩ })) ∧
    (∀ (s : State) (len : Word) (bins : List Bit), len.toNat ≤ 32 → bins.length = len.toNat →
      bitsValue bins ≤ 2 ^ 31 - 1 →
      exec (.debinFl len (bins.map bitWord)) s =
        .next { s with response := some ⟨.ok, BitVec.ofNat 32 (bitsValue bins), 1, []⟩ })

/-- 40_binarizer.md R145: `DEBIN.*` given what `BIN.*` answers returns the value, except that a truncated unary value
above the cutoff comes back as the cutoff. -/
def Obligations.DebinInvertsBin : Prop :=
  ∀ (s t s' : State) (v p r0 r1 : Word) (bins : List Bit),
    t.response = some ⟨.ok, r0, r1, bins⟩ →
      (exec (.binU v) s = .next t →
        exec (.debinU (bins.map bitWord)) s' = .next { s' with response := some ⟨.ok, v, 1, []⟩ }) ∧
      (exec (.binTu v p) s = .next t →
        exec (.debinTu p (bins.map bitWord)) s' =
          .next { s' with response := some ⟨.ok, if v.toNat ≤ p.toNat then v else p, 1, []⟩ }) ∧
      (exec (.binEgu v p) s = .next t →
        exec (.debinEgu p (bins.map bitWord)) s' = .next { s' with response := some ⟨.ok, v, 1, []⟩ }) ∧
      (exec (.binEgs v p) s = .next t →
        exec (.debinEgs p (bins.map bitWord)) s' = .next { s' with response := some ⟨.ok, v, 1, []⟩ }) ∧
      (exec (.binFl v p) s = .next t →
        exec (.debinFl p (bins.map bitWord)) s' = .next { s' with response := some ⟨.ok, v, 1, []⟩ })

/-- 40_binarizer.md R145, R139: every proper prefix of what `BIN.*` answers is incomplete. -/
def Obligations.DebinWaitsOnProperPrefixes : Prop :=
  ∀ (s t s' : State) (v p r0 r1 : Word) (bins l : List Bit),
    t.response = some ⟨.ok, r0, r1, bins⟩ → l <+: bins → l ≠ bins →
      let incomplete : Instr → Prop := fun i => exec i s' = .next { s' with response := some ⟨.ok, 0, 0, []⟩ }
      (exec (.binU v) s = .next t → incomplete (.debinU (l.map bitWord))) ∧
      (exec (.binTu v p) s = .next t → incomplete (.debinTu p (l.map bitWord))) ∧
      (exec (.binEgu v p) s = .next t → incomplete (.debinEgu p (l.map bitWord))) ∧
      (exec (.binEgs v p) s = .next t → incomplete (.debinEgs p (l.map bitWord))) ∧
      (exec (.binFl v p) s = .next t → incomplete (.debinFl p (l.map bitWord)))

/-- 40_binarizer.md R139: a complete answer is given only for exactly what `BIN.*` answers for the value returned. -/
def Obligations.DebinCompletesOnlyOnCodes : Prop :=
  ∀ (s t : State) (p r0 : Word) (bout : List Bit) (ws : List Word),
    t.response = some ⟨.ok, r0, 1, bout⟩ →
      let isCode : Instr → Prop := fun i =>
        ∃ t' len bins, exec i s = .next t' ∧ t'.response = some ⟨.ok, len, 0, bins⟩ ∧ ws = bins.map bitWord
      (exec (.debinU ws) s = .next t → isCode (.binU r0)) ∧
      (exec (.debinTu p ws) s = .next t → isCode (.binTu r0 p)) ∧
      (exec (.debinEgu p ws) s = .next t → isCode (.binEgu r0 p)) ∧
      (exec (.debinEgs p ws) s = .next t → isCode (.binEgs r0 p)) ∧
      (exec (.debinFl p ws) s = .next t → isCode (.binFl r0 p))

/-- 40_binarizer.md R139: an incomplete answer is given only for a proper prefix of what `BIN.*` answers for some value,
and answers no value. -/
def Obligations.DebinWaitsOnlyOnProperPrefixes : Prop :=
  ∀ (s t : State) (p r0 : Word) (bout : List Bit) (ws : List Word),
    t.response = some ⟨.ok, r0, 0, bout⟩ →
      let isPrefix : (Word → Instr) → Prop := fun f =>
        r0 = 0 ∧ ∃ v t' len bins l, exec (f v) s = .next t' ∧ t'.response = some ⟨.ok, len, 0, bins⟩ ∧
          ws = l.map bitWord ∧ l <+: bins ∧ l ≠ bins
      (exec (.debinU ws) s = .next t → isPrefix (fun v => .binU v)) ∧
      (exec (.debinTu p ws) s = .next t → isPrefix (fun v => .binTu v p)) ∧
      (exec (.debinEgu p ws) s = .next t → isPrefix (fun v => .binEgu v p)) ∧
      (exec (.debinEgs p ws) s = .next t → isPrefix (fun v => .binEgs v p)) ∧
      (exec (.debinFl p ws) s = .next t → isPrefix (fun v => .binFl v p))

/-- 40_binarizer.md R139: bins after a complete code are refused with `DEBIN_EXTRA`. -/
def Obligations.DebinRefusesBinsAfterACode : Prop :=
  ∀ (s t s' : State) (p r0 : Word) (bout more : List Bit) (ws : List Word),
    t.response = some ⟨.ok, r0, 1, bout⟩ → more ≠ [] →
      let extra : Instr → Prop := fun i =>
        ∃ t', exec i s' = .next t' ∧ t'.response = some ⟨.error .debinExtra, 0, 0, []⟩
      (exec (.debinU ws) s = .next t → extra (.debinU (ws ++ more.map bitWord))) ∧
      (exec (.debinTu p ws) s = .next t → extra (.debinTu p (ws ++ more.map bitWord))) ∧
      (exec (.debinEgu p ws) s = .next t → extra (.debinEgu p (ws ++ more.map bitWord))) ∧
      (exec (.debinEgs p ws) s = .next t → extra (.debinEgs p (ws ++ more.map bitWord))) ∧
      (exec (.debinFl p ws) s = .next t → extra (.debinFl p (ws ++ more.map bitWord)))

/-- 40_binarizer.md R139: a bin list that begins the code of some natural number, but of none in range, is refused with
`DEBIN_OVERFLOW`. -/
def Obligations.DebinRefusesValuesOutOfRange : Prop :=
  ∀ (s : State) (k : Word) (l : List Bit),
    let overflow : Instr → Prop := fun i =>
      ∃ t, exec i s = .next t ∧ t.response = some ⟨.error .debinOverflow, 0, 0, []⟩
    ((∃ u, l <+: unaryBins u) → (¬ ∃ u ≤ 2 ^ 31 - 1, l <+: unaryBins u) → overflow (.debinU (l.map bitWord))) ∧
    (k.toNat ≤ 31 → (∃ u, l <+: expGolombBins u k.toNat) → (¬ ∃ u ≤ 2 ^ 31 - 1, l <+: expGolombBins u k.toNat) →
      overflow (.debinEgu k (l.map bitWord))) ∧
    (k.toNat ≤ 31 → (∃ u, l <+: expGolombBins u k.toNat) → (¬ ∃ u ≤ 2 ^ 32 - 1, l <+: expGolombBins u k.toNat) →
      overflow (.debinEgs k (l.map bitWord))) ∧
    (k.toNat ≤ 32 → l.length ≤ k.toNat → (¬ ∃ u ≤ 2 ^ 31 - 1, l <+: msbBits u k.toNat) →
      overflow (.debinFl k (l.map bitWord)))

/-- 40_binarizer.md R139, R142, 60_exceptions.md R317: the parameter is checked first, then every bin, then the parse;
an exp-Golomb list that begins with 0 is malformed. -/
def Obligations.DebinChecksBeforeParsing : Prop :=
  ∀ (s : State) (p : Word) (ws : List Word),
    let raises : Instr → Cause → Prop := fun i c =>
      ∃ t, exec i s = .next t ∧ t.response = some ⟨.error c, 0, 0, []⟩
    let bad := ∃ w ∈ ws, 1 < w.toNat
    (bad → raises (.debinU ws) .binValue) ∧
    (p.toInt < 0 → raises (.debinTu p ws) .negCutoff) ∧
    (0 ≤ p.toInt → bad → raises (.debinTu p ws) .binValue) ∧
    (31 < p.toNat → raises (.debinEgu p ws) .badOrder ∧ raises (.debinEgs p ws) .badOrder) ∧
    (p.toNat ≤ 31 → bad → raises (.debinEgu p ws) .binValue ∧ raises (.debinEgs p ws) .binValue) ∧
    (p.toNat ≤ 31 → ¬ bad → ws.head? = some 0 →
      raises (.debinEgu p ws) .debinMalformed ∧ raises (.debinEgs p ws) .debinMalformed) ∧
    (32 < p.toNat → raises (.debinFl p ws) .badLength) ∧
    (p.toNat ≤ 32 → bad → raises (.debinFl p ws) .binValue)

/-! ### Session control -/

/-- 45_session.md R292: `ABORT`, the word 0x0D000000 whatever its operands, returns the block to the reset state from
every state, with no error. -/
def Obligations.AbortReturnsToReset : Prop :=
  (∀ (a b : Word) (l : ListOperand), decode ⟨0x0D000000, a, b, l⟩ = .ok .abort) ∧
    ∀ s : State, exec .abort s = .next { s with block := Block.reset, response := some ⟨.ok, 0, 0, []⟩ }

/-- 45_session.md R293, 10_state.md R48, R49: the eight status words, in every state, reserved bits 0. -/
def Obligations.StatAnswersTheStatusWords : Prop :=
  ∀ (s : State) (sel : BitVec 4), sel.toNat < 8 →
    ∃ w : Word, exec (.stat sel) s = .next { s with response := some ⟨.ok, w, 0, []⟩ } ∧
      (sel = 0 → w.toNat =
        (match s.block.sstate with
          | .idle => 0 | .encActive => 1 | .encFinal => 2 | .decActive => 3 | .decEnded => 4 | .failed => 5) +
        2 ^ 4 * s.block.errClass.toNat + 2 ^ 8 * s.block.errCause.toNat + 2 ^ 16 * s.block.mode.toNat) ∧
      (sel = 1 → w = s.block.binCount) ∧
      (sel = 2 → w = s.block.declCount) ∧
      (sel = 3 → w.toNat = s.block.obuf.length % 2 ^ 32) ∧
      (sel = 4 → w.toNat = s.block.range.toNat + 2 ^ 16 * s.block.low.toNat) ∧
      (sel = 5 → w = s.block.pending) ∧
      (sel = 6 → w.toNat = s.block.pcnt.toNat + 2 ^ 8 * s.block.part.toNat + 2 ^ 16 * s.block.first.toNat +
        2 ^ 17 * s.block.last.toNat + 2 ^ 18 * s.block.hasDecl.toNat) ∧
      (sel = 7 → w.toNat = s.block.ipos % 2 ^ 32)

/-! ### What no command changes -/

/-- 40_binarizer.md R130, 45_session.md R294: the binarizer, `STAT`, `CTX.SEL` and `CTX.RD` write no register when they
complete. -/
def Obligations.ReadingCommandsWriteNoRegister : Prop :=
  ∀ (i : Instr) (s t : State) (r0 r1 : Word) (bout : List Bit),
    writesNothing i = true → exec i s = .next t → t.response = some ⟨.ok, r0, r1, bout⟩ → t.block = s.block

/-- 41_context.md R172, R173, R176: within a session a context entry changes only by the regular bin that names it. -/
def Obligations.ContextsChangeOnlyByTheirRegularBins : Prop :=
  ∀ (i : Instr) (s t : State) (j : Nat),
    isInit i = false → i ≠ .abort → exec i s = .next t →
    (∀ ctx bin, i = .encReg ctx bin → ctx.toNat ≠ j) → (∀ ctx, i = .decReg ctx → ctx.toNat ≠ j) →
      t.block.ctx.bind (·[j]?) = s.block.ctx.bind (·[j]?)

/-- 20_memory.md R72, 43_bit_sink.md R230, R238: output is only appended, bits and bytes, and only by the encoder's
commands. -/
def Obligations.OutputIsAppendOnly : Prop :=
  ∀ (i : Instr) (s t : State),
    isInit i = false → i ≠ .abort → exec i s = .next t →
      s.block.obuf <+: t.block.obuf ∧ s.block.bits <+: t.block.bits ∧
      (stateCheckOf i ≠ some .encode → t.block.bits = s.block.bits ∧ t.block.obuf = s.block.obuf)

/-- 20_memory.md R73, R78: within a session the input is not written, and its position only moves forward, by a decode
command that completes. -/
def Obligations.InputIsReadInOrder : Prop :=
  ∀ (i : Instr) (s t : State),
    isInit i = false → i ≠ .abort → exec i s = .next t →
      t.block.ibuf = s.block.ibuf ∧ s.block.ipos ≤ t.block.ipos ∧
      (t.block.ipos ≠ s.block.ipos → stateCheckOf i = some .decode ∧ s.block.sstate = .decActive ∧
        ∃ r0 r1 bout, t.response = some ⟨.ok, r0, r1, bout⟩)

/-! ### Headline results -/

/-- The invariant is kept by every step, from every state that has it (10_state.md R52, R53 among its parts). -/
def Obligations.StepKeepsTheInvariant : Prop :=
  ∀ s t : State, Inv s → step s = .next t → Inv t

/-- 10_state.md R54, 42_encoder.md R212, 44_decoder.md R268: no step from a state of the invariant raises
`RANGE_BOUNDS` or `LOW_BOUNDS`. -/
def Obligations.BoundsChecksNeverFail : Prop :=
  ∀ (s t : State) (i : Instr) (c : Cause) (r0 r1 : Word) (bout : List Bit),
    Inv s → exec i s = .next t → t.response = some ⟨.error c, r0, r1, bout⟩ → c ≠ .rangeBounds ∧ c ≠ .lowBounds

/-- 44_decoder.md R269, 41_context.md R180, 43_bit_sink.md R241: the round trip. A decode session on the output of an
encode session, driven by the same sequence, returns every bin, with equal context tables and ranges after each, and
has then read every bit before the padding. -/
def Obligations.DecoderReturnsTheEncodedBins : Prop :=
  ∀ (mode : Byte) (ops : List CodedBin) (s s' e0 ef : State) (es : List State),
    perform (.encInit mode) s = some e0 →
    performAll (ops.map CodedBin.encode) e0 = some es →
    perform .encFin (es.getLastD e0) = some ef →
    s'.config = s.config →
      ∃ (d0 : State) (ds : List State),
        perform (.decInit mode none ef.block.obuf) s' = some d0 ∧
        performAll (ops.map CodedBin.decode) d0 = some ds ∧
        ds.length = ops.length ∧
        (∀ (k : Nat) (op : CodedBin) (e d : State), ops[k]? = some op → es[k]? = some e → ds[k]? = some d →
          d.response = some ⟨.ok, bitWord op.bin, 0, []⟩ ∧ d.block.ctx = e.block.ctx ∧ d.block.range = e.block.range) ∧
        (ds.getLastD d0).block.ipos = (es.getLastD e0).block.position + 9
end

