-- ==== Sys2Proof/Laws/State.lean ====
section
/-! SUPPORT. State.lean: what each named update of the state does to each field, so that no proof unfolds a record
update. -/

namespace Sys2Proof.Machine

/-! ### A command that completes -/

@[simp] theorem complete_block (b : Block) (r : Result) (s : State) : (complete b r s).block = b := rfl
@[simp] theorem complete_config (b : Block) (r : Result) (s : State) : (complete b r s).config = s.config := rfl
@[simp] theorem complete_commands (b : Block) (r : Result) (s : State) : (complete b r s).commands = s.commands := rfl
@[simp] theorem complete_response (b : Block) (r : Result) (s : State) : (complete b r s).response = some ⟨.ok, r.r0, r.r1, r.bout⟩ := rfl

/-! ### A command that raises an error -/

@[simp] theorem takeError_block (isInit : Bool) (c : Cause) (s : State) : (takeError isInit c s).block = errorEntry isInit c s.block := rfl
@[simp] theorem takeError_config (isInit : Bool) (c : Cause) (s : State) : (takeError isInit c s).config = s.config := rfl
@[simp] theorem takeError_commands (isInit : Bool) (c : Cause) (s : State) : (takeError isInit c s).commands = s.commands := rfl
@[simp] theorem takeError_response (isInit : Bool) (c : Cause) (s : State) : (takeError isInit c s).response = some ⟨.error c, 0, 0, []⟩ := rfl

/-! ### What a rule gave -/

@[simp] theorem answer_ok (isInit : Bool) (b : Block) (r : Result) (s : State) : answer isInit (.ok (b, r)) s = complete b r s := rfl
@[simp] theorem answer_error (isInit : Bool) (c : Cause) (s : State) : answer isInit (.error c) s = takeError isInit c s := rfl

/-! ### Presenting a command -/

@[simp] theorem present_block (c : Command) (s : State) : (present c s).block = s.block := rfl
@[simp] theorem present_config (c : Command) (s : State) : (present c s).config = s.config := rfl
@[simp] theorem present_commands (c : Command) (s : State) : (present c s).commands = c :: s.commands := rfl
@[simp] theorem present_response (c : Command) (s : State) : (present c s).response = s.response := rfl
@[simp] theorem fetch_present (c : Command) (s : State) : fetch (present c s) = some (c, s) := rfl

/-! ### The state after reset -/

@[simp] theorem resetWith_block (cfg : Config) : (State.resetWith cfg).block = Block.reset := rfl
@[simp] theorem resetWith_config (cfg : Config) : (State.resetWith cfg).config = cfg := rfl
@[simp] theorem resetWith_commands (cfg : Config) : (State.resetWith cfg).commands = [] := rfl
@[simp] theorem resetWith_response (cfg : Config) : (State.resetWith cfg).response = none := rfl
@[simp] theorem resetState_eq (b : Block) : resetState b = Block.reset := rfl
@[simp] theorem reset_sstate : Block.reset.sstate = .idle := rfl
@[simp] theorem reset_mode : Block.reset.mode = 0 := rfl
@[simp] theorem reset_errClass : Block.reset.errClass = 0 := rfl
@[simp] theorem reset_errCause : Block.reset.errCause = 0 := rfl
@[simp] theorem reset_ctx : Block.reset.ctx = none := rfl
@[simp] theorem reset_low : Block.reset.low = 0 := rfl
@[simp] theorem reset_range : Block.reset.range = 0 := rfl
@[simp] theorem reset_pending : Block.reset.pending = 0 := rfl
@[simp] theorem reset_first : Block.reset.first = false := rfl
@[simp] theorem reset_last : Block.reset.last = false := rfl
@[simp] theorem reset_part : Block.reset.part = 0 := rfl
@[simp] theorem reset_pcnt : Block.reset.pcnt = 0 := rfl
@[simp] theorem reset_obuf : Block.reset.obuf = [] := rfl
@[simp] theorem reset_ibuf : Block.reset.ibuf = [] := rfl
@[simp] theorem reset_ipos : Block.reset.ipos = 0 := rfl
@[simp] theorem reset_binCount : Block.reset.binCount = 0 := rfl
@[simp] theorem reset_hasDecl : Block.reset.hasDecl = false := rfl
@[simp] theorem reset_declCount : Block.reset.declCount = 0 := rfl

/-! ### One entry of the context table -/

@[simp] theorem writeCtx_sstate (i : BitVec 16) (c : ContextState) (b : Block) : (writeCtx i c b).sstate = b.sstate := rfl
@[simp] theorem writeCtx_mode (i : BitVec 16) (c : ContextState) (b : Block) : (writeCtx i c b).mode = b.mode := rfl
@[simp] theorem writeCtx_errClass (i : BitVec 16) (c : ContextState) (b : Block) : (writeCtx i c b).errClass = b.errClass := rfl
@[simp] theorem writeCtx_errCause (i : BitVec 16) (c : ContextState) (b : Block) : (writeCtx i c b).errCause = b.errCause := rfl
@[simp] theorem writeCtx_ctx (i : BitVec 16) (c : ContextState) (b : Block) : (writeCtx i c b).ctx = b.ctx.map fun t => t.set i.toNat c := rfl
@[simp] theorem writeCtx_low (i : BitVec 16) (c : ContextState) (b : Block) : (writeCtx i c b).low = b.low := rfl
@[simp] theorem writeCtx_range (i : BitVec 16) (c : ContextState) (b : Block) : (writeCtx i c b).range = b.range := rfl
@[simp] theorem writeCtx_pending (i : BitVec 16) (c : ContextState) (b : Block) : (writeCtx i c b).pending = b.pending := rfl
@[simp] theorem writeCtx_first (i : BitVec 16) (c : ContextState) (b : Block) : (writeCtx i c b).first = b.first := rfl
@[simp] theorem writeCtx_last (i : BitVec 16) (c : ContextState) (b : Block) : (writeCtx i c b).last = b.last := rfl
@[simp] theorem writeCtx_part (i : BitVec 16) (c : ContextState) (b : Block) : (writeCtx i c b).part = b.part := rfl
@[simp] theorem writeCtx_pcnt (i : BitVec 16) (c : ContextState) (b : Block) : (writeCtx i c b).pcnt = b.pcnt := rfl
@[simp] theorem writeCtx_obuf (i : BitVec 16) (c : ContextState) (b : Block) : (writeCtx i c b).obuf = b.obuf := rfl
@[simp] theorem writeCtx_ibuf (i : BitVec 16) (c : ContextState) (b : Block) : (writeCtx i c b).ibuf = b.ibuf := rfl
@[simp] theorem writeCtx_ipos (i : BitVec 16) (c : ContextState) (b : Block) : (writeCtx i c b).ipos = b.ipos := rfl
@[simp] theorem writeCtx_binCount (i : BitVec 16) (c : ContextState) (b : Block) : (writeCtx i c b).binCount = b.binCount := rfl
@[simp] theorem writeCtx_hasDecl (i : BitVec 16) (c : ContextState) (b : Block) : (writeCtx i c b).hasDecl = b.hasDecl := rfl
@[simp] theorem writeCtx_declCount (i : BitVec 16) (c : ContextState) (b : Block) : (writeCtx i c b).declCount = b.declCount := rfl

/-! ### The error record and the failed session -/

/-- What the two registers of the error record and the session state are after an error (60_exceptions.md R318, R319); no
other register changes. -/
theorem errorEntry_running (c : Cause) (b : Block) :
    errorEntry false c b = { b with
      errClass := if b.errClass = 0 then c.errorClass.code else b.errClass
      errCause := if b.errClass = 0 then c.code else b.errCause
      sstate := if b.sstate = .idle then .idle else .failed } := by
  cases b with
  | mk sstate _ errClass =>
    cases sstate <;> by_cases h : errClass = 0#4 <;> simp [errorEntry, failSession, recordError, h]

/-- Every class has a code other than 0 (60_exceptions.md R310), so a recorded error shows. -/
theorem errorClass_code_ne_zero (k : ErrorClass) : k.code ≠ 0 := by cases k <;> decide

/-- An `INIT` that fails for a cause of another class than `IllegalCommand` leaves the reset state and the error
(60_exceptions.md R321). -/
theorem errorEntry_init (c : Cause) (b : Block) (h : c.errorClass ≠ .illegalCommand) :
    errorEntry true c b = { Block.reset with errClass := c.errorClass.code, errCause := c.code } := by
  simp [errorEntry, failSession, recordError, h, Block.reset]

end Sys2Proof.Machine
end

