-- ==== Sys2Proof/Laws/Ops.lean ====
section
/-! SUPPORT. Ops.lean: for each shared operation, once, everything it can do. -/

namespace Sys2Proof.Machine

/-! ### Sequencing -/

@[simp] theorem ok_bind {α β : Type} (a : α) (f : α → Except Cause β) : (Except.ok a >>= f) = f a := rfl

@[simp] theorem error_bind {α β : Type} (c : Cause) (f : α → Except Cause β) :
    ((Except.error c : Except Cause α) >>= f) = .error c := rfl

theorem bind_ok_iff {α β : Type} {x : Except Cause α} {f : α → Except Cause β} {r : β} :
    (x >>= f) = .ok r ↔ ∃ a, x = .ok a ∧ f a = .ok r := by
  cases x <;> simp

theorem bind_error_iff {α β : Type} {x : Except Cause α} {f : α → Except Cause β} {c : Cause} :
    (x >>= f) = .error c ↔ x = .error c ∨ ∃ a, x = .ok a ∧ f a = .error c := by
  cases x <;> simp

/-! ### Running a command -/

/-- A command either completes with what its rule gave or takes the error its rule raised. -/
theorem execute_cases {isInit : Bool} {rule : Config → Block → Except Cause (Block × Result)} {s t : State}
    (h : execute isInit rule s = .next t) :
    (∃ b r, rule s.config s.block = .ok (b, r) ∧ t = complete b r s) ∨
      (∃ c, rule s.config s.block = .error c ∧ t = takeError isInit c s) := by
  simp only [execute, Host.Outcome.next.injEq] at h
  subst h
  rcases e : rule s.config s.block with c | ⟨b, r⟩
  · exact .inr ⟨c, rfl, rfl⟩
  · exact .inl ⟨b, r, rfl, rfl⟩

theorem execute_ok {isInit : Bool} {rule : Config → Block → Except Cause (Block × Result)} {s : State} {b : Block}
    {r : Result} (h : rule s.config s.block = .ok (b, r)) : execute isInit rule s = .next (complete b r s) := by
  simp [execute, h]

theorem execute_error {isInit : Bool} {rule : Config → Block → Except Cause (Block × Result)} {s : State} {c : Cause}
    (h : rule s.config s.block = .error c) : execute isInit rule s = .next (takeError isInit c s) := by
  simp [execute, h]

/-! ### Registers of a stated width -/

theorem writeLow_ok {n : Nat} (h : n < 1024) (b : Block) :
    writeLow n b = .ok { b with low := BitVec.ofNat 10 n } := by
  simp [writeLow, show (n : Int) < 1024 by omega]

theorem writeLow_cases {v : Int} {b b' : Block} (h : writeLow v b = .ok b') :
    0 ≤ v ∧ v < 1024 ∧ b' = { b with low := BitVec.ofNat 10 v.toNat } := by
  unfold writeLow at h
  split at h
  · rename_i hv; exact ⟨hv.1, hv.2, by simpa using h.symm⟩
  · cases h

theorem writeLow_error {v : Int} {b : Block} {c : Cause} (h : writeLow v b = .error c) : c = .lowBounds := by
  unfold writeLow at h
  split at h
  · cases h
  · simpa using h.symm

theorem writeRange_ok {n : Nat} (h : n < 512) (b : Block) :
    writeRange n b = .ok { b with range := BitVec.ofNat 9 n } := by
  simp [writeRange, show (n : Int) < 512 by omega]

theorem writeRange_cases {v : Int} {b b' : Block} (h : writeRange v b = .ok b') :
    0 ≤ v ∧ v < 512 ∧ b' = { b with range := BitVec.ofNat 9 v.toNat } := by
  unfold writeRange at h
  split at h
  · rename_i hv; exact ⟨hv.1, hv.2, by simpa using h.symm⟩
  · cases h

theorem writeRange_error {v : Int} {b : Block} {c : Cause} (h : writeRange v b = .error c) : c = .rangeBounds := by
  unfold writeRange at h
  split at h
  · cases h
  · simpa using h.symm

/-- `CountBin` counts one bin, or raises `BIN_COUNT_OVERFLOW` at the end of the counter. -/
theorem countBin_cases {b b' : Block} (h : countBin b = .ok b') :
    b.binCount.toNat < 2 ^ 32 - 1 ∧ b' = { b with binCount := b.binCount + 1 } ∧
      b'.binCount.toNat = b.binCount.toNat + 1 := by
  unfold countBin at h
  split at h
  · cases h
  · rename_i hc
    have hb := b.binCount.isLt
    obtain rfl : _ = b' := by simpa using h
    refine ⟨by omega, rfl, ?_⟩
    simp only [BitVec.toNat_add, BitVec.toNat_ofNat]
    omega

theorem countBin_error {b : Block} {c : Cause} (h : countBin b = .error c) :
    c = .binCountOverflow ∧ b.binCount.toNat = 2 ^ 32 - 1 := by
  unfold countBin at h
  split at h
  · rename_i hc; exact ⟨by simpa using h.symm, hc⟩
  · cases h

/-! ### Checks -/

theorem checkCtxIndex_ok_iff {cfg : Config} {i : BitVec 16} : checkCtxIndex cfg i = .ok () ↔ i.toNat < nCtx cfg := by
  unfold checkCtxIndex; split <;> simp <;> omega

theorem checkCtxIndex_error_iff {cfg : Config} {i : BitVec 16} {c : Cause} :
    checkCtxIndex cfg i = .error c ↔ c = .ctxRange ∧ nCtx cfg ≤ i.toNat := by
  unfold checkCtxIndex; split <;> simp_all [eq_comm]

theorem checkDeclared_ok_iff {b : Block} :
    checkDeclared b = .ok () ↔ (b.hasDecl = true → b.binCount.toNat < b.declCount.toNat) := by
  unfold checkDeclared; split <;> simp_all

theorem checkDeclared_error_iff {b : Block} {c : Cause} :
    checkDeclared b = .error c ↔ c = .pastCount ∧ b.hasDecl = true ∧ b.declCount.toNat ≤ b.binCount.toNat := by
  unfold checkDeclared
  split <;> rename_i h
  · simp [h, eq_comm]
  · simp [h]

/-- The state check raises exactly the cause of the permission table (45_session.md R290, R291). -/
theorem checkState_eq (k : Checked) (b : Block) :
    checkState k b = match refusedWith k b.sstate with | none => .ok () | some c => .error c := by
  unfold checkState
  cases k <;> cases h : b.sstate <;> rfl

theorem binOperand_bitWord (bin : Bit) : binOperand (bitWord bin) = .ok bin := by cases bin <;> rfl

/-- The bins of a list of words that are all 0 or 1. -/
theorem checkBins_map_bitWord (l : List Bit) : checkBins (l.map bitWord) = .ok l := by
  have h : ∀ x : Bit, (u32 (bitWord x) == 1) = x := by decide
  unfold checkBins
  rw [if_pos]
  · simp [Function.comp_def, h]
  · simp only [List.all_map, List.all_eq_true]
    intro x _; cases x <;> rfl

/-- `CheckBins` accepts exactly the lists of words 0 and 1. -/
theorem checkBins_ok {ws : List Word} {l : List Bit} (h : checkBins ws = .ok l) : ws = l.map bitWord := by
  unfold checkBins at h
  split at h
  · rename_i hw
    obtain rfl : _ = l := by simpa using h
    rw [List.map_map]
    refine (List.map_id ws).symm.trans (List.map_congr_left fun w hm => ?_)
    have hw : w.toNat ≤ 1 := of_decide_eq_true (List.all_eq_true.mp hw w hm)
    refine BitVec.eq_of_toNat_eq ?_
    rcases Nat.le_one_iff_eq_zero_or_eq_one.mp hw with e | e <;> simp [e, u32, bitWord]
  · cases h

theorem checkBins_error_iff {ws : List Word} {c : Cause} :
    checkBins ws = .error c ↔ c = .binValue ∧ ∃ w ∈ ws, 1 < w.toNat := by
  unfold checkBins
  split <;> rename_i h
  · simp only [reduceCtorEq, false_iff, not_and, not_exists]
    intro _ w hw
    exact not_lt.mpr (of_decide_eq_true (List.all_eq_true.mp h w hw))
  · obtain ⟨w, hw, hn⟩ : ∃ w ∈ ws, 1 < u32 w := by
      simpa only [List.all_eq_true, not_forall, decide_eq_true_eq, not_le, exists_prop] using h
    simp only [Except.error.injEq, eq_comm, iff_self_and]
    exact fun _ => ⟨w, hw, hn⟩

/-! ### The context table -/

theorem readCtx_ok_iff {i : BitVec 16} {b : Block} {c : ContextState} :
    readCtx i b = .ok c ↔ ∃ t, b.ctx = some t ∧ t[i.toNat]? = some c := by
  unfold readCtx
  split
  · simp_all
  · split <;> simp_all

/-- `UpdateContext` changes the entry it names and nothing else (41_context.md R173). -/
theorem updateContext_ok_iff {cfg : Config} {i : BitVec 16} {bin : Bit} {b b' : Block} :
    updateContext cfg i bin b = .ok b' ↔
      ∃ t c, b.ctx = some t ∧ t[i.toNat]? = some c ∧ b' = { b with ctx := some (t.set i.toNat (adapt cfg c bin)) } := by
  unfold updateContext
  split
  · rename_i e h
    simp only [reduceCtorEq, false_iff]
    rintro ⟨t, c, ht, hc, -⟩
    rw [readCtx_ok_iff.mpr ⟨t, ht, hc⟩] at h
    cases h
  · rename_i c h
    obtain ⟨t, ht, hc⟩ := readCtx_ok_iff.mp h
    simp only [Except.ok.injEq, writeCtx, ht, Option.map_some]
    constructor
    · rintro rfl; exact ⟨t, c, rfl, hc, rfl⟩
    · rintro ⟨t', c', ht', hc', rfl⟩
      cases ht'
      rw [hc] at hc'
      cases hc'
      rfl

theorem lpsTableLegal_iff {cfg : Config} : lpsTableLegal cfg = true ↔ LpsLegal cfg := by
  simp only [lpsTableLegal, LpsLegal, List.all_eq_true, List.mem_range, Bool.and_eq_true, decide_eq_true_eq]
  constructor
  · intro h p q
    have := h p.toNat p.isLt q.toNat q.isLt
    simpa using this
  · intro h p hp q hq
    have := h (BitVec.ofNat 6 p) (BitVec.ofNat 2 q)
    rwa [BitVec.toNat_ofNat, Nat.mod_eq_of_lt (show q < 2 ^ 2 by omega)] at this

theorem seedContext_some_iff {e : SeedEntry} {c : ContextState} :
    seedContext e = some c ↔ c.pStateIdx.toNat = e.pStateIdx ∧ c.valMPS.toNat = e.valMPS := by
  obtain ⟨p, m⟩ := e
  obtain ⟨q, x⟩ := c
  have hq := q.isLt
  unfold seedContext
  split
  · rename_i h
    simp only [Option.some.injEq, ContextState.mk.injEq]
    constructor
    · rintro ⟨rfl, rfl⟩
      refine ⟨by rw [BitVec.toNat_ofNat]; simp only at h; omega, ?_⟩
      rcases Nat.le_one_iff_eq_zero_or_eq_one.mp h.2 with e | e <;> simp_all
    · rintro ⟨h₁, h₂⟩
      refine ⟨BitVec.eq_of_toNat_eq (by rw [BitVec.toNat_ofNat]; simp only at h h₁; omega), ?_⟩
      subst h₂
      cases x <;> rfl
  · rename_i h
    simp only [reduceCtorEq, false_iff]
    rintro ⟨h₁, h₂⟩
    cases x <;> simp_all <;> omega

/-- The entries of a seed list: the index list's length, and entry by entry what the rows hold. -/
theorem seedFrom_some {rows : List (Nat × SeedEntry)} {is : List Nat} {t : List ContextState}
    (h : seedFrom rows is = some t) :
    t.length = is.length ∧ ∀ k i : Nat, is[k]? = some i → ∃ e c, rows.lookup i = some e ∧ seedContext e = some c ∧ t[k]? = some c := by
  induction is generalizing t with
  | nil => simp [seedFrom] at h; subst h; simp
  | cons i is ih =>
    unfold seedFrom at h
    split at h
    · cases h
    · rename_i e he
      split at h
      · rename_i c cs hc hcs
        obtain rfl : c :: cs = t := by simpa using h
        obtain ⟨hl, hk⟩ := ih hcs
        refine ⟨by simp [hl], fun k j hj => ?_⟩
        cases k with
        | zero => simp at hj; subst hj; exact ⟨e, c, he, hc, rfl⟩
        | succ k => simpa using hk k j (by simpa using hj)
      · cases h

theorem seedFrom_isSome {rows : List (Nat × SeedEntry)} {is : List Nat}
    (h : ∀ i ∈ is, ∃ e, rows.lookup i = some e ∧ e.pStateIdx ≤ 63 ∧ e.valMPS ≤ 1) :
    ∃ t, seedFrom rows is = some t := by
  induction is with
  | nil => exact ⟨_, rfl⟩
  | cons i is ih =>
    obtain ⟨cs, hcs⟩ := ih fun j hj => h j (List.mem_cons_of_mem _ hj)
    obtain ⟨e, he, hp, hm⟩ := h i List.mem_cons_self
    exact ⟨⟨BitVec.ofNat 6 e.pStateIdx, e.valMPS == 1⟩ :: cs, by simp [seedFrom, he, hcs, seedContext, hp, hm]⟩

/-- The seed check passes exactly on a legal seed (41_context.md R171). -/
theorem seedTable_isSome_iff {cfg : Config} {mode : Byte} : (∃ t, seedTable cfg mode = some t) ↔ SeedLegal cfg mode := by
  unfold seedTable SeedLegal
  cases hr : cfg.seed.lookup mode with
  | none => simp
  | some rows =>
    simp only [Option.some.injEq, exists_eq_left']
    constructor
    · rintro ⟨t, ht⟩ i hi
      obtain ⟨e, c, he, hc, -⟩ := (seedFrom_some ht).2 i i (by simp [hi])
      have hp := c.pStateIdx.isLt
      have hm : c.valMPS.toNat ≤ 1 := by cases c.valMPS <;> simp
      obtain ⟨h₁, h₂⟩ := seedContext_some_iff.mp hc
      exact ⟨e, he, by omega, by omega⟩
    · intro h
      exact seedFrom_isSome fun i hi => h i (by simpa using hi)

/-- The table that seeding writes (41_context.md R171). -/
theorem seedTable_some {cfg : Config} {mode : Byte} {t : List ContextState} (h : seedTable cfg mode = some t) :
    t.length = nCtx cfg ∧ ∀ rows i e, cfg.seed.lookup mode = some rows → i < nCtx cfg → rows.lookup i = some e →
      ∃ c, t[i]? = some c ∧ c.pStateIdx.toNat = e.pStateIdx ∧ c.valMPS.toNat = e.valMPS := by
  unfold seedTable at h
  split at h
  · cases h
  · rename_i rows hr
    obtain ⟨hl, hk⟩ := seedFrom_some h
    refine ⟨by simpa using hl, fun rows' i e hr' hi he => ?_⟩
    rw [hr] at hr'
    cases hr'
    obtain ⟨e', c, he', hc, ht⟩ := hk i i (by simp [hi])
    rw [he] at he'
    cases he'
    exact ⟨c, ht, seedContext_some_iff.mp hc⟩

/-- `SeedContexts` writes `CTX` and `MODE`, or raises the first of its two causes (41_context.md R171). -/
theorem seedContexts_cases (cfg : Config) (mode : Byte) (b : Block) :
    (¬ SeedLegal cfg mode ∧ seedContexts cfg mode b = .error .noSeed) ∨
      (SeedLegal cfg mode ∧ ¬ LpsLegal cfg ∧ seedContexts cfg mode b = .error .badLpsTable) ∨
      (SeedLegal cfg mode ∧ LpsLegal cfg ∧ ∃ t, seedTable cfg mode = some t ∧
        seedContexts cfg mode b = .ok { b with ctx := some t, mode := mode }) := by
  rw [← seedTable_isSome_iff, ← lpsTableLegal_iff]
  unfold seedContexts
  cases seedTable cfg mode with
  | none => simp
  | some t => cases lpsTableLegal cfg <;> simp

/-! ### The invariant -/

/-- The invariant is about the block and its parameters alone: not the commands to come, nor the last response. -/
theorem Inv.of_block {s t : State} (h : Inv s) (hb : t.block = s.block) (hc : t.config = s.config) : Inv t := by
  cases s
  cases t
  subst hb hc
  exact { h with }

end Sys2Proof.Machine
end

