-- ==== Sys2Proof/Laws/Bits.lean ====
section
/-! SUPPORT. Bits.lean: bit lists and their values, the bits of a byte list, and what the packer and the bit source do to
them. -/

namespace Sys2Proof.Machine

/-! ### Bit lists as numbers -/

@[simp] theorem msbBits_length (v n : Nat) : (msbBits v n).length = n := by
  induction n with
  | zero => rfl
  | succ n ih => simp [msbBits, ih]

theorem bitsValueFrom_eq (acc : Nat) (l : List Bit) : bitsValueFrom acc l = acc * 2 ^ l.length + bitsValue l := by
  unfold bitsValue
  induction l generalizing acc with
  | nil => simp [bitsValueFrom]
  | cons b l ih =>
    simp only [bitsValueFrom, List.length_cons, pow_succ]
    rw [ih, ih (2 * 0 + b.toNat)]
    ring

@[simp] theorem bitsValue_nil : bitsValue [] = 0 := rfl

theorem bitsValue_cons (b : Bit) (l : List Bit) : bitsValue (b :: l) = b.toNat * 2 ^ l.length + bitsValue l := by
  rw [bitsValue, bitsValueFrom, bitsValueFrom_eq]; simp

theorem bitsValue_append (l m : List Bit) : bitsValue (l ++ m) = bitsValue l * 2 ^ m.length + bitsValue m := by
  induction l with
  | nil => simp
  | cons b l ih => simp only [List.cons_append, bitsValue_cons, ih, List.length_append, pow_add]; ring

theorem bitsValue_lt (l : List Bit) : bitsValue l < 2 ^ l.length := by
  induction l with
  | nil => simp
  | cons b l ih =>
    have : b.toNat ≤ 1 := by cases b <;> simp
    have := Nat.mul_le_mul_right (2 ^ l.length) this
    simp only [bitsValue_cons, List.length_cons, pow_succ]
    omega

theorem bitsValue_replicate_false (n : Nat) : bitsValue (List.replicate n false) = 0 := by
  induction n with
  | zero => rfl
  | succ n ih => simp [List.replicate_succ, bitsValue_cons, ih]

theorem bitsValue_replicate_true (n : Nat) : bitsValue (List.replicate n true) = 2 ^ n - 1 := by
  induction n with
  | zero => rfl
  | succ n ih =>
    have := Nat.one_le_two_pow (n := n)
    simp only [List.replicate_succ, bitsValue_cons, ih, Bool.toNat_true, List.length_replicate, pow_succ]
    omega

theorem bitsValue_msbBits (v n : Nat) : bitsValue (msbBits v n) = v % 2 ^ n := by
  induction n with
  | zero => simp [msbBits, Nat.mod_one]
  | succ n ih =>
    rw [msbBits, bitsValue_cons, ih, msbBits_length, Nat.mod_pow_succ, Nat.toNat_testBit]
    ring

theorem bitsValue_injective {l m : List Bit} (h : l.length = m.length) (hv : bitsValue l = bitsValue m) : l = m := by
  induction l generalizing m with
  | nil => cases m with
    | nil => rfl
    | cons _ _ => simp at h
  | cons b l ih =>
    cases m with
    | nil => simp at h
    | cons c m =>
      replace h : l.length = m.length := by simpa using h
      have hl := bitsValue_lt l
      have hm := bitsValue_lt m
      rw [bitsValue_cons, bitsValue_cons, ← h] at hv
      rw [← h] at hm
      cases b <;> cases c <;> simp only [Bool.toNat_false, Bool.toNat_true] at hv
      · rw [ih h (by omega)]
      · omega
      · omega
      · rw [ih h (by omega)]

theorem msbBits_bitsValue (l : List Bit) : msbBits (bitsValue l) l.length = l :=
  bitsValue_injective (by simp) (by rw [bitsValue_msbBits, Nat.mod_eq_of_lt (bitsValue_lt l)])

theorem msbBits_snoc (v n : Nat) (b : Bit) : msbBits (2 * v + b.toNat) (n + 1) = msbBits v n ++ [b] := by
  refine bitsValue_injective (by simp) ?_
  have : b.toNat < 2 := by cases b <;> simp
  rw [bitsValue_msbBits, bitsValue_append, bitsValue_msbBits, bitsValue_cons]
  simp only [List.length_nil, pow_zero, mul_one, bitsValue_nil, add_zero, List.length_cons, zero_add, pow_one]
  rw [pow_succ, mul_comm (2 ^ n) 2, Nat.add_mod, Nat.mul_mod_mul_left, Nat.mod_eq_of_lt (a := b.toNat)]
  · rw [Nat.mod_eq_of_lt, mul_comm]
    have := Nat.mod_lt v (Nat.two_pow_pos n)
    omega
  · have := Nat.two_pow_pos n
    omega

/-! ### Bytes as bits -/

@[simp] theorem bytesBits_nil : bytesBits [] = [] := rfl

theorem bytesBits_append (l m : List Byte) : bytesBits (l ++ m) = bytesBits l ++ bytesBits m := by
  simp [bytesBits]

theorem bytesBits_cons (x : Byte) (l : List Byte) : bytesBits (x :: l) = msbBits x.toNat 8 ++ bytesBits l := rfl

@[simp] theorem bytesBits_length (l : List Byte) : (bytesBits l).length = 8 * l.length := by
  induction l with
  | nil => rfl
  | cons x l ih => simp [bytesBits_cons, ih]; ring

/-- The bit at a stream position: bit `7 - (n & 7)` of byte `n >> 3` (20_memory.md R74). -/
theorem bytesBits_getElem? (l : List Byte) (n : Nat) :
    (bytesBits l)[n]? = (l[n / 8]?).map fun x => x.getLsbD (7 - n % 8) := by
  have hbyte : ∀ (x : Byte) (k : Nat), k < 8 → (msbBits x.toNat 8)[k]? = some (x.getLsbD (7 - k)) := by
    intro x k hk
    interval_cases k <;> simp [msbBits, BitVec.getLsbD]
  induction l generalizing n with
  | nil => simp
  | cons x l ih =>
    rw [bytesBits_cons]
    by_cases h : n < 8
    · rw [List.getElem?_append_left (by simpa using h), hbyte x n h, Nat.div_eq_of_lt h, Nat.mod_eq_of_lt h]
      rfl
    · rw [List.getElem?_append_right (by simpa using h), msbBits_length, ih, Nat.mod_eq_sub_mod (a := n) (by omega)]
      rw [show n / 8 = (n - 8) / 8 + 1 by omega, List.getElem?_cons_succ]

/-! ### The packer -/

/-- The bits `l` have been written after those of `b`, giving `b'` (43_bit_sink.md R230, R234). -/
structure Packed (l : List Bit) (b b' : Block) : Prop where
  bits : b'.bits = b.bits ++ l
  fits : b'.part.toNat < 2 ^ b'.pcnt.toNat
  bytes : b.obuf <+: b'.obuf
  last : b'.last = l.getLastD b.last
  frame : b' = { b with last := b'.last, obuf := b'.obuf, part := b'.part, pcnt := b'.pcnt }

theorem Packed.nil {b : Block} (h : b.part.toNat < 2 ^ b.pcnt.toNat) : Packed [] b b :=
  ⟨by simp, h, List.prefix_refl _, rfl, rfl⟩

theorem Packed.trans {l m : List Bit} {b b' b'' : Block} (h : Packed l b b') (k : Packed m b' b'') :
    Packed (l ++ m) b b'' where
  bits := by rw [k.bits, h.bits, List.append_assoc]
  fits := k.fits
  bytes := h.bytes.trans k.bytes
  last := by
    rw [k.last, h.last]
    cases m with
    | nil => simp
    | cons x m =>
      obtain ⟨m', y, hm⟩ : ∃ m' y, x :: m = m' ++ [y] :=
        ⟨_, _, (List.dropLast_append_getLast (List.cons_ne_nil x m)).symm⟩
      rw [hm, ← List.append_assoc]
      simp
  frame := by rw [k.frame, h.frame]

/-- The number of completed bytes, from the number of bits. -/
theorem obuf_length_eq (b : Block) : b.obuf.length = b.bits.length / 8 := by
  have := b.pcnt.isLt
  simp only [Block.bits, List.length_append, bytesBits_length, msbBits_length]
  omega

theorem pcnt_eq (b : Block) : b.pcnt.toNat = b.bits.length % 8 := by
  have := b.pcnt.isLt
  simp only [Block.bits, List.length_append, bytesBits_length, msbBits_length]
  omega

theorem bits_length (b : Block) : b.bits.length = 8 * b.obuf.length + b.pcnt.toNat := by
  simp [Block.bits]

/-- `WriteBit` writes its bit. -/
theorem writeBit_ok {cfg : Config} {bit : Bit} {b b' : Block} (hb : b.part.toNat < 2 ^ b.pcnt.toNat)
    (h : writeBit cfg bit b = .ok b') :
    Packed [bit] b b' ∧ (b.pcnt = 7 → cfg.obufCap ≠ some b.obuf.length) := by
  have hbit : bit.toNat < 2 := by cases bit <;> simp
  have hv : ∀ n, n ≤ 7 → b.pcnt.toNat = n →
      (BitVec.ofNat 8 (2 * b.part.toNat + bit.toNat) : Byte).toNat = 2 * b.part.toNat + bit.toNat := by
    intro n hn hp
    rw [hp] at hb
    have : 2 ^ n ≤ 2 ^ 7 := Nat.pow_le_pow_right (by omega) hn
    rw [BitVec.toNat_ofNat, Nat.mod_eq_of_lt (by omega)]
  unfold writeBit at h
  simp only at h
  split at h
  · rename_i hp
    have hp' : b.pcnt.toNat = 7 := by rw [hp]; rfl
    split at h
    · cases h
    · rename_i hc
      injection h with h
      subst h
      refine ⟨⟨?_, by simp, List.prefix_append _ _, by simp, rfl⟩, fun _ => hc⟩
      simp only [Block.bits, bytesBits_append, bytesBits_cons, bytesBits_nil, List.append_nil, hv 7 (by omega) hp', hp']
      rw [msbBits_snoc b.part.toNat 7 bit, ← List.append_assoc, show (0 : BitVec 3).toNat = 0 from rfl, msbBits]
      exact List.append_nil _
  · rename_i hp
    injection h with h
    subst h
    have hl := b.pcnt.isLt
    have hp' : b.pcnt.toNat ≤ 6 := by
      have : b.pcnt.toNat ≠ 7 := fun e => hp (BitVec.eq_of_toNat_eq e)
      omega
    have hs : (b.pcnt + 1).toNat = b.pcnt.toNat + 1 := by
      rw [BitVec.toNat_add, show (1 : BitVec 3).toNat = 1 from rfl]
      omega
    refine ⟨⟨?_, ?_, List.prefix_refl _, by simp, rfl⟩, fun e => absurd e hp⟩
    · simp only [Block.bits, hv _ (by omega) rfl, hs, msbBits_snoc, List.append_assoc]
    · simp only [hv _ (by omega) rfl, hs, pow_succ]
      omega

/-- `WriteBit` fails only for want of room (43_bit_sink.md R230). -/
theorem writeBit_error {cfg : Config} {bit : Bit} {b : Block} {c : Cause} (h : writeBit cfg bit b = .error c) :
    c = .outputOverflow ∧ b.pcnt = 7 ∧ cfg.obufCap = some b.obuf.length := by
  unfold writeBit at h
  simp only at h
  split at h
  · rename_i hp
    split at h
    · rename_i hc; exact ⟨by simpa using h.symm, hp, hc⟩
    · cases h
  · cases h

/-- The room `n` more written bits need. -/
def HasRoom (cfg : Config) (b : Block) (n : Nat) : Prop :=
  ∀ cap, cfg.obufCap = some cap → b.bits.length + n < 8 * (cap + 1)

theorem room_iff {cfg : Config} {b : Block} {n : Nat} : Room cfg b n ↔ HasRoom cfg b (b.pending.toNat + n) := by
  unfold Room HasRoom
  cases cfg.obufCap <;> simp [add_assoc]

theorem HasRoom.mono {cfg : Config} {b : Block} {m n : Nat} (h : HasRoom cfg b n) (hm : m ≤ n) : HasRoom cfg b m :=
  fun cap hc => by have := h cap hc; omega

theorem HasRoom.of_bits {cfg : Config} {b b' : Block} {n : Nat} (h : HasRoom cfg b n) (e : b'.bits = b.bits) :
    HasRoom cfg b' n := fun cap hc => by rw [e]; exact h cap hc

theorem HasRoom.after {cfg : Config} {b b' : Block} {l : List Bit} {n : Nat} (h : HasRoom cfg b (l.length + n))
    (hp : b'.bits = b.bits ++ l) : HasRoom cfg b' n := fun cap hc => by
  have := h cap hc
  rw [hp, List.length_append]
  omega

theorem writeBit_room {cfg : Config} {b : Block} (bit : Bit) (h : HasRoom cfg b 1) :
    ∃ b', writeBit cfg bit b = .ok b' := by
  cases hw : writeBit cfg bit b with
  | ok b' => exact ⟨b', rfl⟩
  | error c =>
    obtain ⟨-, hp, hc⟩ := writeBit_error hw
    have := h _ hc
    have hl := bits_length b
    rw [hp] at hl
    simp at hl
    omega

/-- The pending loop writes its run and counts `PENDING` down. -/
theorem writePending_ok {cfg : Config} {bit : Bit} {n : Nat} {b b' : Block} (hb : b.part.toNat < 2 ^ b.pcnt.toNat)
    (hn : b.pending.toNat = n) (h : writePending cfg bit n b = .ok b') :
    ∃ m, Packed (List.replicate n bit) b m ∧ b' = { m with pending := 0 } := by
  induction n generalizing b with
  | zero =>
    obtain rfl : b = b' := by simpa [writePending] using h
    have h0 : b.pending = 0 := BitVec.eq_of_toNat_eq (by simpa using hn)
    exact ⟨b, Packed.nil hb, by rw [← h0]⟩
  | succ n ih =>
    unfold writePending at h
    split at h
    · cases h
    · rename_i c hw
      have hw := (writeBit_ok hb hw).1
      have hpend : (c.pending - 1).toNat = n := by
        have hc : c.pending = b.pending := by rw [hw.frame]
        have := b.pending.isLt
        rw [hc, BitVec.toNat_sub, show (1 : BitVec 32).toNat = 1 from rfl]
        omega
      obtain ⟨m, hm, rfl⟩ := ih (b := { c with pending := c.pending - 1 }) hw.fits hpend h
      refine ⟨{ m with pending := c.pending }, ?_, rfl⟩
      have hm' : Packed (List.replicate n bit) c { m with pending := c.pending } :=
        ⟨hm.bits, hm.fits, hm.bytes, hm.last, by rw [hm.frame]⟩
      simpa [List.replicate_succ] using hw.trans hm'

theorem writePending_error {cfg : Config} {bit : Bit} {n : Nat} {b : Block} {c : Cause}
    (h : writePending cfg bit n b = .error c) : c = .outputOverflow := by
  induction n generalizing b with
  | zero => simp [writePending] at h
  | succ n ih =>
    unfold writePending at h
    split at h
    · rename_i e hw
      obtain rfl : e = c := by simpa using h
      exact (writeBit_error hw).1
    · exact ih h

theorem writePending_room {cfg : Config} {bit : Bit} {n : Nat} {b : Block} (hb : b.part.toNat < 2 ^ b.pcnt.toNat)
    (h : HasRoom cfg b n) : ∃ b', writePending cfg bit n b = .ok b' := by
  induction n generalizing b with
  | zero => exact ⟨b, rfl⟩
  | succ n ih =>
    obtain ⟨c, hw⟩ := writeBit_room (cfg := cfg) bit (h.mono (by omega))
    have hp := (writeBit_ok hb hw).1
    obtain ⟨b', hb'⟩ := ih (b := { c with pending := c.pending - 1 }) hp.fits
      (HasRoom.after (l := [bit]) (by rwa [List.length_singleton, add_comm]) hp.bits)
    exact ⟨b', by rw [writePending, hw]; exact hb'⟩

/-- The bits that settling a bit writes: the bit, unless it is the session's first, then every pending bit as its
complement (43_bit_sink.md R231). -/
def settledBits (first : Bit) (pending : Nat) (bit : Bit) : List Bit :=
  (if first then [] else [bit]) ++ List.replicate pending (!bit)

theorem putBit_eq (cfg : Config) (bit : Bit) (b : Block) :
    putBit cfg bit b = ((if b.first then .ok { b with first := false } else writeBit cfg bit b) >>= fun b =>
      writePending cfg (!bit) b.pending.toNat b) := by
  unfold putBit
  split <;> rfl

/-- `PutBit` settles its bit. -/
theorem putBit_ok {cfg : Config} {bit : Bit} {b b' : Block} (hb : b.part.toNat < 2 ^ b.pcnt.toNat)
    (h : putBit cfg bit b = .ok b') :
    ∃ m, Packed (settledBits b.first b.pending.toNat bit) b m ∧ b' = { m with first := false, pending := 0 } := by
  rw [putBit_eq] at h
  obtain ⟨c, hc, h⟩ := bind_ok_iff.mp h
  split at hc
  · rename_i hf
    obtain rfl : _ = c := by simpa using hc
    obtain ⟨m, hm, rfl⟩ := writePending_ok (b := { b with first := false }) hb rfl h
    have hmf : m.first = false := by rw [hm.frame]
    refine ⟨{ m with first := true }, ?_, by simp [hmf]⟩
    simp only [settledBits, hf, if_true, List.nil_append]
    exact ⟨hm.bits, hm.fits, hm.bytes, hm.last, by rw [hm.frame, ← hf]⟩
  · rename_i hf
    have hf : b.first = false := by simpa using hf
    have hw := (writeBit_ok hb hc).1
    have hp : c.pending = b.pending := by rw [hw.frame]
    obtain ⟨m, hm, rfl⟩ := writePending_ok hw.fits (by rw [hp]) h
    have hmf : m.first = false := by rw [hm.frame, hw.frame, hf]
    refine ⟨m, ?_, by simp [← hmf]⟩
    simpa [settledBits, hf, hp] using hw.trans hm

theorem putBit_error {cfg : Config} {bit : Bit} {b : Block} {c : Cause} (h : putBit cfg bit b = .error c) :
    c = .outputOverflow := by
  rw [putBit_eq] at h
  rcases bind_error_iff.mp h with h | ⟨d, -, h⟩
  · split at h
    · cases h
    · exact (writeBit_error h).1
  · exact writePending_error h

theorem putBit_room {cfg : Config} {bit : Bit} {b : Block} (hb : b.part.toNat < 2 ^ b.pcnt.toNat)
    (h : HasRoom cfg b (b.pending.toNat + 1)) : ∃ b', putBit cfg bit b = .ok b' := by
  rw [putBit_eq]
  split
  · obtain ⟨b', hb'⟩ := writePending_room (cfg := cfg) (bit := !bit) (b := { b with first := false }) hb
      (n := b.pending.toNat) (h.mono (by omega))
    exact ⟨b', by simpa using hb'⟩
  · obtain ⟨c, hw⟩ := writeBit_room (cfg := cfg) bit (h.mono (by omega))
    have hp := (writeBit_ok hb hw).1
    have hcp : c.pending = b.pending := by rw [hp.frame]
    obtain ⟨b', hb'⟩ := writePending_room (cfg := cfg) (bit := !bit) (b := c) hp.fits (n := c.pending.toNat)
      (HasRoom.after (l := [bit]) (by rwa [List.length_singleton, add_comm, hcp]) hp.bits)
    exact ⟨b', by simpa [hw] using hb'⟩

/-- `IncPending` makes the run one longer, or raises `PENDING_OVERFLOW` at the end of its width (43_bit_sink.md R232). -/
theorem incPending_ok {b b' : Block} (h : incPending b = .ok b') :
    b' = { b with pending := b.pending + 1 } ∧ b'.pending.toNat = b.pending.toNat + 1 := by
  unfold incPending at h
  split at h
  · cases h
  · injection h with h
    subst h
    have := b.pending.isLt
    refine ⟨rfl, ?_⟩
    rw [BitVec.toNat_add, show (1 : BitVec 32).toNat = 1 from rfl]
    omega

theorem incPending_error_iff {b : Block} {c : Cause} :
    incPending b = .error c ↔ c = .pendingOverflow ∧ b.pending.toNat = 2 ^ 32 - 1 := by
  unfold incPending
  split <;> rename_i h
  · simp only [Except.error.injEq, h, and_true, eq_comm]
  · simp only [reduceCtorEq, h, and_false]

/-- The padding loop writes zeros up to the end of the byte (43_bit_sink.md R237). -/
theorem padByte_ok {cfg : Config} {n : Nat} {b b' : Block} (hb : b.part.toNat < 2 ^ b.pcnt.toNat)
    (h : padByte cfg n b = .ok b') (hn : (8 - b.pcnt.toNat) % 8 ≤ n) :
    Packed (List.replicate ((8 - b.pcnt.toNat) % 8) false) b b' ∧ b'.pcnt = 0 ∧ b'.part = 0 := by
  have hl := b.pcnt.isLt
  have hzero : b.pcnt = 0 → b = b' → Packed (List.replicate ((8 - b.pcnt.toNat) % 8) false) b b' ∧
      b'.pcnt = 0 ∧ b'.part = 0 := by
    rintro hp rfl
    refine ⟨by simpa [hp] using Packed.nil hb, hp, ?_⟩
    rw [hp] at hb
    exact BitVec.eq_of_toNat_eq (by simpa using hb)
  induction n generalizing b with
  | zero =>
    exact hzero (BitVec.eq_of_toNat_eq (by rw [show (0 : BitVec 3).toNat = 0 from rfl]; omega)) (by simpa [padByte] using h)
  | succ n ih =>
    unfold padByte at h
    split at h
    · rename_i hp
      exact hzero hp (by simpa using h)
    · rename_i hp
      split at h
      · cases h
      · rename_i c hw
        have hw := (writeBit_ok hb hw).1
        have hp' : b.pcnt.toNat ≠ 0 := fun e => hp (BitVec.eq_of_toNat_eq (by simpa using e))
        have hcl := c.pcnt.isLt
        have hstep : (8 - b.pcnt.toNat) % 8 = (8 - c.pcnt.toNat) % 8 + 1 := by
          have hb1 := pcnt_eq b
          have hc1 := pcnt_eq c
          rw [hw.bits, List.length_append, List.length_singleton] at hc1
          omega
        have hz : c.pcnt = 0 → c = b' → Packed (List.replicate ((8 - c.pcnt.toNat) % 8) false) c b' ∧
            b'.pcnt = 0 ∧ b'.part = 0 := by
          rintro hp rfl
          refine ⟨by simpa [hp] using Packed.nil hw.fits, hp, ?_⟩
          have := hw.fits
          rw [hp] at this
          exact BitVec.eq_of_toNat_eq (by simpa using this)
        obtain ⟨hm, hr⟩ := ih hw.fits h (by omega) hcl hz
        refine ⟨?_, hr⟩
        rw [hstep, List.replicate_succ]
        exact hw.trans hm

/-! ### The bit source -/

/-- `ReadBit` reads the next bit of the input (44_decoder.md R262). -/
theorem readBit_ok_iff {b b' : Block} {bit : Bit} :
    readBit b = .ok (bit, b') ↔ (bytesBits b.ibuf)[b.ipos]? = some bit ∧ b' = { b with ipos := b.ipos + 1 } := by
  unfold readBit
  rw [bytesBits_getElem?]
  cases b.ibuf[b.ipos / 8]? <;> simp [eq_comm]

theorem readBit_error_iff {b : Block} {c : Cause} :
    readBit b = .error c ↔ c = .sourceExhausted ∧ 8 * b.ibuf.length ≤ b.ipos := by
  unfold readBit
  cases h : b.ibuf[b.ipos / 8]? with
  | none =>
    have := List.getElem?_eq_none_iff.mp h
    simp only [Except.error.injEq, eq_comm, iff_self_and]
    omega
  | some x =>
    obtain ⟨hl, -⟩ := List.getElem?_eq_some_iff.mp h
    simp only [reduceCtorEq, false_iff, not_and]
    omega

/-- Nine bits, or any number, one after the other (44_decoder.md R260). -/
theorem readBits_ok {n v w : Nat} {b b' : Block} (h : readBits n v b = .ok (w, b')) :
    (b.nextInput n).length = n ∧ w = v * 2 ^ n + bitsValue (b.nextInput n) ∧ b' = { b with ipos := b.ipos + n } := by
  induction n generalizing v b with
  | zero =>
    obtain ⟨rfl, rfl⟩ : v = w ∧ b = b' := by simpa [readBits] using h
    simp [Block.nextInput]
  | succ n ih =>
    unfold readBits at h
    split at h
    · cases h
    · rename_i bit c hr
      obtain ⟨hg, rfl⟩ := readBit_ok_iff.mp hr
      obtain ⟨hl, rfl, rfl⟩ := ih h
      have hcons : b.nextInput (n + 1) = bit :: Block.nextInput { b with ipos := b.ipos + 1 } n := by
        obtain ⟨hlt, hget⟩ := List.getElem?_eq_some_iff.mp hg
        simp only [Block.nextInput]
        rw [List.drop_eq_getElem_cons hlt, List.take_succ_cons, hget]
      refine ⟨by rw [hcons]; simp [hl], ?_, by simp [add_assoc, add_comm 1 n]⟩
      rw [hcons, bitsValue_cons, hl, pow_succ]
      ring

theorem readBits_error {n v : Nat} {b : Block} {c : Cause} (h : readBits n v b = .error c) :
    c = .sourceExhausted ∧ 8 * b.ibuf.length < b.ipos + n := by
  induction n generalizing v b with
  | zero => simp [readBits] at h
  | succ n ih =>
    unfold readBits at h
    split at h
    · rename_i e hr
      obtain rfl : e = c := by simpa using h
      obtain ⟨hc, hl⟩ := readBit_error_iff.mp hr
      exact ⟨hc, by omega⟩
    · rename_i bit d hr
      obtain ⟨-, rfl⟩ := readBit_ok_iff.mp hr
      obtain ⟨hc, hl⟩ := ih h
      exact ⟨hc, by simp only at hl; omega⟩

end Sys2Proof.Machine
end

