-- ==== Sys2Proof/Laws/Binarizer.lean ====
section
/-! SUPPORT. Binarizer.lean: what the operand checks of `BIN.*` and `DEBIN.*` accept, and the exp-Golomb parse that
`DEBIN.EGU` and `DEBIN.EGS` share. -/

namespace Sys2Proof.Machine

/-! ### Operands -/

theorem toInt_nonneg_iff (w : Word) : 0 ≤ s32 w ↔ w.toNat < 2 ^ 31 := by
  have := w.isLt
  simp only [s32, BitVec.toInt_eq_toNat_cond]
  split <;> omega

theorem toInt_toNat {w : Word} (h : w.toNat < 2 ^ 31) : s32 w = w.toNat := by
  simp only [s32, BitVec.toInt_eq_toNat_cond]
  split <;> omega

theorem valueOperand_ok_iff {a : Word} {n : Nat} : valueOperand a = .ok n ↔ 0 ≤ s32 a ∧ n = a.toNat := by
  have := a.isLt
  unfold valueOperand
  simp only [s32, BitVec.toInt_eq_toNat_cond]
  split <;> split <;> simp <;> omega

theorem cutoffOperand_ok_iff {b : Word} {n : Nat} : cutoffOperand b = .ok n ↔ 0 ≤ s32 b ∧ n = b.toNat := by
  have := b.isLt
  unfold cutoffOperand
  simp only [s32, BitVec.toInt_eq_toNat_cond]
  split <;> split <;> simp <;> omega

theorem orderOperand_ok_iff {b : Word} {n : Nat} : orderOperand b = .ok n ↔ b.toNat ≤ 31 ∧ n = b.toNat := by
  have := b.isLt
  unfold orderOperand
  simp only [s32, BitVec.toInt_eq_toNat_cond]
  split <;> split <;> simp <;> omega

theorem lengthOperand_ok_iff {b : Word} {n : Nat} : lengthOperand b = .ok n ↔ b.toNat ≤ 32 ∧ n = b.toNat := by
  have := b.isLt
  unfold lengthOperand
  simp only [s32, BitVec.toInt_eq_toNat_cond]
  split <;> split <;> simp <;> omega

theorem flValueOperand_ok_iff {a : Word} {len n : Nat} :
    flValueOperand a len = .ok n ↔ 0 ≤ s32 a ∧ a.toNat < 2 ^ len ∧ n = a.toNat := by
  have := a.isLt
  unfold flValueOperand
  simp only [s32, BitVec.toInt_eq_toNat_cond]
  split <;> split <;> (try split) <;> simp <;> omega

/-! ### Codes -/

theorem unaryBins_length (n : Nat) : (unaryBins n).length = n + 1 := by simp [unaryBins, ones]

theorem truncatedBins_length (n c : Nat) : (truncatedBins n c).length = if n < c then n + 1 else c := by
  unfold truncatedBins
  split <;> simp [ones] <;> omega

theorem expGolombBins_length (u k : Nat) : (expGolombBins u k).length = u / 2 ^ k + 2 + k := by
  simp +arith [expGolombBins, ones, Nat.shiftRight_eq_div_pow]

/-- The folding is undone (40_binarizer.md R136, R143). -/
theorem unfoldSign_foldSign (n : Int) : unfoldSign (foldSign n) = n := by
  unfold unfoldSign foldSign
  split <;> split at * <;> omega

theorem foldSign_unfoldSign (u : Nat) : foldSign (unfoldSign u) = u := by
  unfold unfoldSign foldSign
  split <;> split <;> omega

/-! ### The exp-Golomb parse -/

/-- The parse gives back the value of its code (40_binarizer.md R142). -/
theorem parseExpGolomb_expGolombBins {u k maxV : Nat} (h : u ≤ maxV) :
    parseExpGolomb (expGolombBins u k) k maxV = .ok (some u) := by
  have htake : ∀ (n : Nat) (l : List Bit),
      (List.replicate n true ++ false :: l).takeWhile (· == true) = List.replicate n true := by
    intro n l
    induction n with
    | zero => simp
    | succ n ih => simp [List.replicate_succ]
  have hdrop : ∀ (n : Nat) (l : List Bit), (List.replicate n true ++ false :: l).drop (n + 1) = l := by
    intro n l
    rw [List.drop_append]
    simp
  have hform : expGolombBins u k = List.replicate (u / 2 ^ k + 1) true ++ false :: msbBits u k := by
    simp [expGolombBins, ones, Nat.shiftRight_eq_div_pow]
  have hcons : expGolombBins u k = true :: (List.replicate (u / 2 ^ k) true ++ false :: msbBits u k) := by
    rw [hform, List.replicate_succ, List.cons_append]
  have hval : (u / 2 ^ k) * 2 ^ k + u % 2 ^ k = u := by
    rw [mul_comm]; exact Nat.div_add_mod u (2 ^ k)
  unfold parseExpGolomb
  rw [hcons]
  simp only
  rw [← hcons, hform, htake, List.length_replicate, hdrop]
  simp only [List.length_append, List.length_replicate, List.length_cons, msbBits_length, Nat.add_sub_cancel,
    Nat.sub_self, Nat.shiftLeft_eq, pow_zero, mul_one, bitsValue_msbBits, hval, lt_irrefl, if_false]
  rw [if_neg (by omega), if_neg (by omega)]

/-- A complete parse is of a code (40_binarizer.md R139). -/
theorem parseExpGolomb_some {bins : List Bit} {u k maxV : Nat} (h : parseExpGolomb bins k maxV = .ok (some u)) :
    bins = expGolombBins u k ∧ u ≤ maxV := by
  unfold parseExpGolomb at h
  split at h
  · cases h
  · cases h
  · rename_i rest
    dsimp only at h
    generalize hb : true :: rest = bins at h ⊢
    split at h
    · split at h <;> cases h
    · rename_i hne
      split at h
      · cases h
      · rename_i hk
        split at h
        · cases h
        · rename_i hv
          split at h
          · cases h
          · rename_i hk'
            have hlen : (bins.drop ((bins.takeWhile (· == true)).length + 1)).length = k := by omega
            injection h with h
            injection h with h
            rw [hlen, Nat.sub_self, Nat.shiftLeft_zero] at h hv
            rw [Nat.shiftLeft_eq] at h hv
            refine ⟨?_, by omega⟩
            generalize hs : bins.drop ((bins.takeWhile (· == true)).length + 1) = s at *
            have ht : bins.takeWhile (· == true) = List.replicate (bins.takeWhile (· == true)).length true :=
              List.eq_replicate_iff.mpr ⟨rfl, fun b hb => by simpa using List.mem_takeWhile_imp hb⟩
            have hpos : 1 ≤ (bins.takeWhile (· == true)).length := by simp [← hb]
            have hsplit : bins = List.replicate (bins.takeWhile (· == true)).length true ++ false :: s := by
              have hd := List.takeWhile_append_dropWhile (p := (· == true)) (l := bins)
              cases hdw : bins.dropWhile (· == true) with
              | nil =>
                rw [hdw, List.append_nil] at hd
                exact absurd (congrArg List.length hd) hne
              | cons x l =>
                have hx : (x == true) = false := by
                  have := List.head?_dropWhile_not (· == true) bins
                  rw [hdw] at this
                  simpa using this
                have hx : x = false := by simpa using hx
                rw [hdw, hx] at hd
                have : s = l := by
                  rw [← hs]
                  generalize List.takeWhile (· == true) bins = tw at hd ⊢
                  rw [← hd, List.drop_append]
                  simp
                rw [← ht, this, hd]
            have hlt := bitsValue_lt s
            rw [hlen] at hlt
            have hdiv : u / 2 ^ k = (bins.takeWhile (· == true)).length - 1 := by
              rw [← h, mul_comm, Nat.mul_add_div (Nat.two_pow_pos k), Nat.div_eq_of_lt hlt, add_zero]
            have hmod : msbBits u k = s := by
              refine bitsValue_injective (by simp [hlen]) ?_
              rw [bitsValue_msbBits, ← h, mul_comm, Nat.mul_add_mod, Nat.mod_eq_of_lt hlt]
            rw [hsplit]
            simp only [expGolombBins, ones, Nat.shiftRight_eq_div_pow, hdiv, hmod]
            rw [Nat.sub_add_cancel hpos, List.append_assoc]
            simp

end Sys2Proof.Machine
end

