-- ==== Sys2Proof/Laws/Interval.lean ====
section
/-! SUPPORT. Interval.lean: what the operations on the coding interval do: the encoder's subdivision, renormalization
and bypass step on the exact interval, the decoder's on its offset. -/

namespace Sys2Proof.Machine

/-! ### The number of doublings -/

theorem doublings_of_ge {r : Nat} (h : 256 ≤ r) : doublings r = 0 := by
  have : 8 ≤ Nat.log2 r := (Nat.le_log2 (by omega)).mpr h
  unfold doublings
  omega

theorem doublings_of_lt {r : Nat} (h₀ : 1 ≤ r) (h : r < 256) : doublings r = doublings (2 * r) + 1 := by
  have h₁ : Nat.log2 r < 8 := (Nat.log2_lt (by omega)).mpr h
  have h₂ : Nat.log2 (2 * r) = Nat.log2 r + 1 := Nat.log2_two_mul (by omega)
  unfold doublings
  omega

theorem doublings_le (r : Nat) : doublings r ≤ 8 := Nat.sub_le _ _

/-- The doubled range is at least 256 and still fits the register (42_encoder.md R206). -/
theorem doublings_range {r : Nat} (h₀ : 1 ≤ r) (h : r < 512) :
    256 ≤ r * 2 ^ doublings r ∧ r * 2 ^ doublings r < 512 := by
  generalize hk : doublings r = k
  induction k generalizing r with
  | zero =>
    by_cases h' : 256 ≤ r
    · simpa using ⟨h', h⟩
    · rw [doublings_of_lt h₀ (by omega)] at hk; omega
  | succ k ih =>
    by_cases h' : 256 ≤ r
    · rw [doublings_of_ge h'] at hk; omega
    · rw [doublings_of_lt h₀ (by omega)] at hk
      have := ih (r := 2 * r) (by omega) (by omega) (by omega)
      rw [pow_succ, show r * (2 ^ k * 2) = 2 * r * 2 ^ k by ring]
      exact this

/-! ### The end of the pending counter -/

/-- One iteration at a time: it leaves its bit pending, and the run ends its width now or in a later one. -/
theorem runPasses_succ {pending low k : Nat} :
    RunPasses pending low (k + 1) ↔
      (256 ≤ low ∧ low < 512) ∧ (pending = 2 ^ 32 - 1 ∨ RunPasses (pending + 1) (2 * (low - 256)) k) := by
  constructor
  · rintro ⟨j, hj, hp, hl, hd⟩
    have h1 := Nat.one_le_two_pow (n := j)
    have := Nat.le_mul_of_pos_left (512 - low) h1
    refine ⟨⟨by omega, hl⟩, ?_⟩
    cases j with
    | zero => exact .inl hp
    | succ j =>
      refine .inr ⟨j, by omega, by omega, by omega, ?_⟩
      rw [show 512 - 2 * (low - 256) = 2 * (512 - low) by omega, ← mul_assoc, ← pow_succ]
      exact hd
  · rintro ⟨⟨h₁, h₂⟩, hp | ⟨j, hj, hp, hl, hd⟩⟩
    · exact ⟨0, by omega, hp, h₂, by omega⟩
    · refine ⟨j + 1, by omega, by omega, h₂, ?_⟩
      rw [pow_succ, mul_assoc, show 2 * (512 - low) = 512 - 2 * (low - 256) by omega]
      exact hd

/-- A run that starts anew does not end its width within the few iterations of one renormalization. -/
theorem not_runPasses_zero {low k : Nat} (hk : k ≤ 8) : ¬ RunPasses 0 low k := by
  rintro ⟨j, hj, hp, -⟩
  omega

/-! ### The encoder -/

/-- What the encoder's interval meets between any two steps of a rule: a packer in order, the registers within the
scale, and the exact interval inside the initial one. -/
structure Coding (b : Block) : Prop where
  fits : b.part.toNat < 2 ^ b.pcnt.toNat
  pos : 1 ≤ b.range.toNat
  scale : b.low.toNat + b.range.toNat ≤ 1024
  start : b.first = true → b.bits = []
  inside : b.exactLow + b.range.toNat ≤ 510 * 2 ^ b.position

/-- `b'` is `b` after `k` settled or pending bits: the exact interval at `2 ^ k` times the scale, and only the packer's
and the interval's registers written. -/
structure Scaled (k : Nat) (b b' : Block) : Prop where
  coding : Coding b'
  exact : b'.exactLow = b.exactLow * 2 ^ k
  position : b'.position = b.position + k
  range : b'.range.toNat = b.range.toNat * 2 ^ k
  packed : ∃ l, b'.bits = b.bits ++ l ∧ b'.last = l.getLastD b.last
  bytes : b.obuf <+: b'.obuf
  frame : b' = { b with
    low := b'.low, range := b'.range, pending := b'.pending, first := b'.first, last := b'.last, part := b'.part,
    pcnt := b'.pcnt, obuf := b'.obuf }

theorem Scaled.refl {b : Block} (h : Coding b) : Scaled 0 b b :=
  ⟨h, by simp, by simp, by simp, ⟨[], by simp, rfl⟩, List.prefix_refl _, rfl⟩

theorem getLastD_append (l m : List Bit) (x : Bit) : (l ++ m).getLastD x = m.getLastD (l.getLastD x) := by
  cases m with
  | nil => simp
  | cons y m =>
    obtain ⟨m', z, hm⟩ : ∃ m' z, y :: m = m' ++ [z] :=
      ⟨_, _, (List.dropLast_append_getLast (List.cons_ne_nil y m)).symm⟩
    rw [hm, ← List.append_assoc]
    simp

theorem Scaled.trans {k n : Nat} {b b' b'' : Block} (h : Scaled k b b') (g : Scaled n b' b'') :
    Scaled (k + n) b b'' where
  coding := g.coding
  exact := by rw [g.exact, h.exact, pow_add]; ring
  position := by rw [g.position, h.position, add_assoc]
  range := by rw [g.range, h.range, pow_add]; ring
  packed := by
    obtain ⟨l, hb, hl⟩ := h.packed
    obtain ⟨m, gb, gl⟩ := g.packed
    exact ⟨l ++ m, by rw [gb, hb, List.append_assoc], by rw [gl, hl, getLastD_append]⟩
  bytes := h.bytes.trans g.bytes
  frame := by rw [g.frame, h.frame]

theorem bits_congr {b b' : Block} (ho : b.obuf = b'.obuf) (hp : b.part = b'.part) (hc : b.pcnt = b'.pcnt) :
    b.bits = b'.bits := by simp only [Block.bits, ho, hp, hc]

theorem Packed.interval_frame {l : List Bit} {b m : Block} (h : Packed l b m) (low : BitVec 10) (range : BitVec 9)
    (first : Bit) (pending : BitVec 32) :
    { m with low := low, range := range, first := first, pending := pending } = { b with
      low := low, range := range, pending := pending, first := first, last := m.last, part := m.part, pcnt := m.pcnt,
      obuf := m.obuf } := by
  rw [h.frame]

/-- The value and the position after a settled bit, whatever is written to `LOW` and `RANGE`: a 0 leaves the number, a 1
adds what the digit stands for; the session's first settled bit is a 0. -/
theorem settled_exact {b m : Block} {bit : Bit} {low : BitVec 10} {range : BitVec 9}
    (hm : Packed (settledBits b.first b.pending.toNat bit) b m) (hstart : b.first = true → b.bits = [] ∧ bit = false) :
    let b' : Block := { m with first := false, pending := 0, low := low, range := range }
    b'.exactLow + 2 * b.low.toNat = 2 * b.exactLow + low.toNat + bit.toNat * 1024 ∧ b'.position = b.position + 1 := by
  intro b'
  have hbits : b'.bits = b.bits ++ settledBits b.first b.pending.toNat bit := hm.bits
  have h1 := Nat.one_le_two_pow (n := b.pending.toNat)
  have hlow : b'.low = low := rfl
  have hpend : b'.pending.toNat = 0 := rfl
  have hfirst : b'.first = false := rfl
  clear_value b'
  constructor
  · simp only [Block.exactLow]
    rw [hbits, bitsValue_append, hlow, hpend]
    cases hf : b.first with
    | true =>
      obtain ⟨hn, rfl⟩ := hstart hf
      simp only [hn, settledBits, if_true, Bool.not_false, bitsValue_replicate_true, List.nil_append, bitsValue_nil,
        Bool.toNat_false, pow_zero]
      omega
    | false =>
      simp only [settledBits, Bool.false_eq_true, if_false, List.cons_append, List.nil_append, bitsValue_cons,
        List.length_cons, List.length_replicate]
      have hr : bitsValue (List.replicate b.pending.toNat (!bit)) = if bit then 0 else 2 ^ b.pending.toNat - 1 := by
        cases bit <;> simp [bitsValue_replicate_true, bitsValue_replicate_false]
      rw [hr]
      have e : bitsValue b.bits * 2 ^ (b.pending.toNat + 1) * 2 ^ 10 =
          2 * (bitsValue b.bits * 2 ^ (b.pending.toNat + 10)) := by rw [pow_add, pow_add]; ring
      cases bit <;> simp only [Bool.toNat_true, Bool.toNat_false, Bool.false_eq_true, if_true, if_false, add_mul, e, zero_add,
        zero_mul, pow_zero, mul_zero, Nat.sub_self, one_mul] <;> omega
  · simp only [Block.position, hbits, List.length_append, hpend, hfirst]
    cases hf : b.first with
    | true => simp [settledBits, (hstart hf).1]
    | false => simp [settledBits]; omega

/-- One iteration of `RenormE` (42_encoder.md R205): one bit settled or left pending, everything doubled. -/
theorem renormStep {cfg : Config} {b b₁ b' : Block} (hb : Coding b) (hr : b.range.toNat < 256)
    (h₁ : renormBit cfg b = .ok b₁)
    (h' : b' = { b₁ with range := BitVec.ofNat 9 (2 * b.range.toNat), low := BitVec.ofNat 10 (2 * b₁.low.toNat) }) :
    Scaled 1 b b' ∧ b₁.range = b.range ∧ b₁.low.toNat < 512 ∧ b'.pending.toNat ≤ b.pending.toNat + 1 ∧
      b'.bits.length + b'.pending.toNat ≤ b.bits.length + b.pending.toNat + 1 := by
  obtain ⟨hfit, hpos, hscale, hstart, hinside⟩ := hb
  have hrange : (BitVec.ofNat 9 (2 * b.range.toNat)).toNat = 2 * b.range.toNat := by
    rw [BitVec.toNat_ofNat]; omega
  have hlow : ∀ n, n < 512 → (BitVec.ofNat 10 (2 * n)).toNat = 2 * n := by
    intro n hn; rw [BitVec.toNat_ofNat]; omega
  have hkeep : ∀ (x p : Nat), x = 2 * b.exactLow → p = b.position + 1 →
      x + 2 * b.range.toNat ≤ 510 * 2 ^ p := by
    rintro x p rfl rfl
    rw [pow_succ]
    omega
  unfold renormBit at h₁
  split at h₁
  · rename_i hl
    obtain ⟨m, hm, rfl⟩ := putBit_ok hfit h₁
    have hml : m.low = b.low := by rw [hm.frame]
    have hmr : m.range = b.range := by rw [hm.frame]
    have hx := settled_exact (low := BitVec.ofNat 10 (2 * m.low.toNat)) (range := BitVec.ofNat 9 (2 * b.range.toNat))
      hm (fun hf => ⟨hstart hf, rfl⟩)
    simp only [hml, hlow _ (show b.low.toNat < 512 by omega), Bool.toNat_false] at hx
    subst h'
    have hbits : Block.bits { m with
        range := BitVec.ofNat 9 (2 * b.range.toNat), low := BitVec.ofNat 10 (2 * m.low.toNat), first := false,
        pending := 0 } = b.bits ++ settledBits b.first b.pending.toNat false := hm.bits
    refine ⟨⟨⟨hm.fits, ?_, ?_, by simp, ?_⟩, ?_, ?_, ?_, ⟨_, hbits, hm.last⟩, hm.bytes, ?_⟩, hmr, ?_, by simp, ?_⟩
    · simp only [hrange]; omega
    · simp only [hrange, hml, hlow _ (show b.low.toNat < 512 by omega)]; omega
    · simp only [hrange, hml]; exact hkeep _ _ (by omega) hx.2
    · simp only [hml]; omega
    · simp only [hml]; exact hx.2
    · simp only [hrange]; omega
    · exact hm.interval_frame _ _ _ _
    · simp only [hml]; omega
    · rw [hbits]
      simp only [List.length_append, settledBits, List.length_replicate]
      split <;> simp +arith
  · split at h₁
    · rename_i hl
      obtain ⟨c, hc, h₁⟩ := bind_ok_iff.mp h₁
      obtain ⟨-, -, rfl⟩ := writeLow_cases hc
      have hlv : (BitVec.ofNat 10 (((b.low.toNat : Int) - 512).toNat)).toNat = b.low.toNat - 512 := by
        have := b.low.isLt
        rw [BitVec.toNat_ofNat]; omega
      have hfirst : b.first = true → b.bits = [] ∧ true = false := by
        intro hf
        have hn := hstart hf
        have h1 := Nat.one_le_two_pow (n := b.pending.toNat)
        simp only [Block.exactLow, Block.position, hn, hf, if_true, bitsValue_nil, List.length_nil, zero_add,
          add_zero, zero_mul] at hinside
        omega
      obtain ⟨m, hm, rfl⟩ := putBit_ok (b := { b with low := BitVec.ofNat 10 (((b.low.toNat : Int) - 512).toNat) })
        hfit h₁
      have hml : m.low.toNat = b.low.toNat - 512 := by rw [hm.frame]; exact hlv
      have hmr : m.range = b.range := by rw [hm.frame]
      have hm' : Packed (settledBits b.first b.pending.toNat true) b { m with low := b.low } :=
        ⟨hm.bits, hm.fits, hm.bytes, hm.last, by rw [hm.frame]⟩
      have hx := settled_exact (low := BitVec.ofNat 10 (2 * m.low.toNat)) (range := BitVec.ofNat 9 (2 * b.range.toNat))
        hm' hfirst
      simp only [hml, hlow _ (show b.low.toNat - 512 < 512 by have := b.low.isLt; omega), Bool.toNat_true] at hx
      subst h'
      have hbits : Block.bits { m with
          range := BitVec.ofNat 9 (2 * b.range.toNat), low := BitVec.ofNat 10 (2 * m.low.toNat), first := false,
          pending := 0 } = b.bits ++ settledBits b.first b.pending.toNat true := hm.bits
      have hlt := b.low.isLt
      refine ⟨⟨⟨hm.fits, ?_, ?_, by simp, ?_⟩, ?_, ?_, ?_, ⟨_, hbits, hm.last⟩, hm.bytes, ?_⟩, hmr, ?_, by simp, ?_⟩
      · simp only [hrange]; omega
      · simp only [hrange, hml, hlow _ (show b.low.toNat - 512 < 512 by omega)]; omega
      · simp only [hrange, hml]; exact hkeep _ _ (by omega) hx.2
      · simp only [hml]; omega
      · simp only [hml]; exact hx.2
      · simp only [hrange]; omega
      · exact hm.interval_frame _ _ _ _
      · simp only [hml]; omega
      · rw [hbits]
        simp only [List.length_append, settledBits, List.length_replicate]
        split <;> simp +arith
    · rename_i hl₁ hl₂
      obtain ⟨c, hc, h₁⟩ := bind_ok_iff.mp h₁
      obtain ⟨-, -, rfl⟩ := writeLow_cases hc
      have hlv : (BitVec.ofNat 10 (((b.low.toNat : Int) - 256).toNat)).toNat = b.low.toNat - 256 := by
        rw [BitVec.toNat_ofNat]; omega
      obtain ⟨rfl, hp⟩ := incPending_ok h₁
      simp only at hp
      subst h'
      have hx : Block.exactLow { b with
          low := BitVec.ofNat 10 (2 * (b.low.toNat - 256)), range := BitVec.ofNat 9 (2 * b.range.toNat),
          pending := b.pending + 1 } = 2 * b.exactLow := by
        have hbits : Block.bits { b with
          low := BitVec.ofNat 10 (2 * (b.low.toNat - 256)), range := BitVec.ofNat 9 (2 * b.range.toNat),
          pending := b.pending + 1 } = b.bits := bits_congr rfl rfl rfl
        have h1 := Nat.one_le_two_pow (n := b.pending.toNat)
        simp only [Block.exactLow, hbits, hp, hlow _ (show b.low.toNat - 256 < 512 by omega)]
        have e : bitsValue b.bits * 2 ^ (b.pending.toNat + 1 + 10) =
          2 * (bitsValue b.bits * 2 ^ (b.pending.toNat + 10)) := by rw [pow_add, pow_add, pow_add]; ring
        rw [e, pow_succ 2 b.pending.toNat]
        omega
      have hpos' : Block.position { b with
          low := BitVec.ofNat 10 (2 * (b.low.toNat - 256)), range := BitVec.ofNat 9 (2 * b.range.toNat),
          pending := b.pending + 1 } = b.position + 1 := by
        have hbits : Block.bits { b with
          low := BitVec.ofNat 10 (2 * (b.low.toNat - 256)), range := BitVec.ofNat 9 (2 * b.range.toNat),
          pending := b.pending + 1 } = b.bits := bits_congr rfl rfl rfl
        simp only [Block.position, hbits, hp]
        omega
      simp only [hlv]
      have hbits : Block.bits { b with
          low := BitVec.ofNat 10 (2 * (b.low.toNat - 256)), range := BitVec.ofNat 9 (2 * b.range.toNat),
          pending := b.pending + 1 } = b.bits := bits_congr rfl rfl rfl
      refine ⟨⟨⟨hfit, ?_, ?_, fun hf => hbits.trans (hstart hf), ?_⟩, ?_, hpos', ?_, ⟨[], ?_, rfl⟩, List.prefix_refl _, rfl⟩,
        trivial, ?_, ?_, ?_⟩
      · simp only [hrange]; omega
      · simp only [hrange, hlow _ (show b.low.toNat - 256 < 512 by omega)]; omega
      · simp only [hrange]; exact hkeep _ _ hx hpos'
      · rw [hx]; omega
      · simp only [hrange]; omega
      · rw [hbits, List.append_nil]
      · omega
      · simp only [hp]; omega
      · simp only [hp]
        exact le_of_eq (by rw [hbits]; omega)

/-- One iteration fails only for want of room or at the end of the pending counter. -/
theorem renormBit_error {cfg : Config} {b : Block} {c : Cause} (h : renormBit cfg b = .error c) :
    c = .outputOverflow ∨ c = .pendingOverflow := by
  have hlt := b.low.isLt
  unfold renormBit at h
  split at h
  · exact .inl (putBit_error h)
  · split at h
    · rename_i hl
      rcases bind_error_iff.mp h with h | ⟨m, -, h⟩
      · rw [show (b.low.toNat : Int) - 512 = ((b.low.toNat - 512 : Nat) : Int) by omega, writeLow_ok (by omega)] at h
        cases h
      · exact .inl (putBit_error h)
    · rename_i hl₁ hl₂
      rcases bind_error_iff.mp h with h | ⟨m, -, h⟩
      · rw [show (b.low.toNat : Int) - 256 = ((b.low.toNat - 256 : Nat) : Int) by omega, writeLow_ok (by omega)] at h
        cases h
      · exact .inr (incPending_error_iff.mp h).1

/-- With room for the bits and the run, an iteration does not fail. -/
theorem renormBit_room {cfg : Config} {b : Block} (hb : Coding b) (hr : HasRoom cfg b (b.pending.toNat + 1))
    (hp : 256 ≤ b.low.toNat → b.low.toNat < 512 → b.pending.toNat ≠ 2 ^ 32 - 1) : ∃ b', renormBit cfg b = .ok b' := by
  have hlt := b.low.isLt
  unfold renormBit
  split
  · exact putBit_room hb.fits hr
  · split
    · rename_i hl
      rw [show (b.low.toNat : Int) - 512 = ((b.low.toNat - 512 : Nat) : Int) by omega, writeLow_ok (by omega), ok_bind]
      exact putBit_room (b := { b with low := BitVec.ofNat 10 (b.low.toNat - 512) }) hb.fits
        (hr.of_bits (bits_congr rfl rfl rfl))
    · rename_i hl₁ hl₂
      rw [show (b.low.toNat : Int) - 256 = ((b.low.toNat - 256 : Nat) : Int) by omega, writeLow_ok (by omega), ok_bind]
      refine ⟨{ b with low := BitVec.ofNat 10 (b.low.toNat - 256), pending := b.pending + 1 }, ?_⟩
      rw [incPending, if_neg]
      exact hp (by omega) (by omega)

/-- After an iteration the run is one longer and the low as much nearer to 0, or the run starts anew. -/
theorem renormBit_pending {cfg : Config} {b b' : Block} (hb : Coding b) (h : renormBit cfg b = .ok b') :
    (256 ≤ b.low.toNat ∧ b.low.toNat < 512 ∧ b'.low.toNat = b.low.toNat - 256 ∧
      b'.pending.toNat = b.pending.toNat + 1) ∨ b'.pending.toNat = 0 := by
  unfold renormBit at h
  split at h
  · obtain ⟨m, -, rfl⟩ := putBit_ok hb.fits h
    exact .inr rfl
  · split at h
    · obtain ⟨c, hc, h⟩ := bind_ok_iff.mp h
      obtain ⟨-, -, rfl⟩ := writeLow_cases hc
      obtain ⟨m, -, rfl⟩ := putBit_ok (b := { b with low := BitVec.ofNat 10 ((b.low.toNat : Int) - 512).toNat }) hb.fits h
      exact .inr rfl
    · obtain ⟨c, hc, h⟩ := bind_ok_iff.mp h
      obtain ⟨-, -, rfl⟩ := writeLow_cases hc
      obtain ⟨rfl, hp⟩ := incPending_ok h
      refine .inl ⟨by omega, by omega, ?_, hp⟩
      simp only [BitVec.toNat_ofNat]
      omega

/-- At the end of the pending counter an iteration that would leave its bit pending fails. -/
theorem renormBit_pendingOverflow {cfg : Config} {b : Block} (h₁ : 256 ≤ b.low.toNat) (h₂ : b.low.toNat < 512)
    (hp : b.pending.toNat = 2 ^ 32 - 1) : renormBit cfg b = .error .pendingOverflow := by
  unfold renormBit
  rw [if_neg (by omega), if_neg (by omega),
    show (b.low.toNat : Int) - 256 = ((b.low.toNat - 256 : Nat) : Int) by omega, writeLow_ok (by omega), ok_bind]
  exact incPending_error_iff.mpr ⟨rfl, hp⟩

/-- Short of the end of the pending counter, an iteration that leaves its bit pending does no more. -/
theorem renormBit_ambiguous {cfg : Config} {b : Block} (h₁ : 256 ≤ b.low.toNat) (h₂ : b.low.toNat < 512)
    (hp : b.pending.toNat ≠ 2 ^ 32 - 1) :
    renormBit cfg b = .ok { b with low := BitVec.ofNat 10 (b.low.toNat - 256), pending := b.pending + 1 } := by
  unfold renormBit
  rw [if_neg (by omega), if_neg (by omega),
    show (b.low.toNat : Int) - 256 = ((b.low.toNat - 256 : Nat) : Int) by omega, writeLow_ok (by omega), ok_bind,
    incPending, if_neg hp]

/-- `RenormE` doubles the interval until the range is at least 256 (42_encoder.md R205, R206). -/
theorem renormE_ok {cfg : Config} {n : Nat} {b b' : Block} (hb : Coding b) (h : renormE cfg n b = .ok b') :
    256 ≤ b'.range.toNat ∧ Scaled (doublings b.range.toNat) b b' := by
  induction n generalizing b with
  | zero =>
    unfold renormE at h
    split at h
    · rename_i hr
      injection h with h
      subst h
      exact ⟨hr, by rw [doublings_of_ge hr]; exact Scaled.refl hb⟩
    · cases h
  | succ n ih =>
    unfold renormE at h
    split at h
    · rename_i hr
      injection h with h
      subst h
      exact ⟨hr, by rw [doublings_of_ge hr]; exact Scaled.refl hb⟩
    · rename_i hr
      obtain ⟨b₁, h₁, h⟩ := bind_ok_iff.mp h
      obtain ⟨b₂, h₂, h⟩ := bind_ok_iff.mp h
      obtain ⟨b₃, h₃, h⟩ := bind_ok_iff.mp h
      obtain ⟨hs, hrange, hlow, -, -⟩ := renormStep hb (by omega) h₁ rfl
      rw [hrange, show (2 * (b.range.toNat : Int)) = ((2 * b.range.toNat : Nat) : Int) by omega,
        writeRange_ok (by omega)] at h₂
      injection h₂ with h₂
      subst h₂
      rw [show (2 * (b₁.low.toNat : Int)) = ((2 * b₁.low.toNat : Nat) : Int) by omega, writeLow_ok (by omega)] at h₃
      injection h₃ with h₃
      subst h₃
      obtain ⟨hge, hs'⟩ := ih hs.coding h
      refine ⟨hge, ?_⟩
      have hd := doublings_of_lt hb.pos (show b.range.toNat < 256 by omega)
      rw [hs.range, show b.range.toNat * 2 ^ 1 = 2 * b.range.toNat by ring] at hs'
      rw [hd, add_comm]
      exact hs.trans hs'

/-- `RenormE` fails only for want of room or at the end of the pending counter. -/
theorem renormE_error {cfg : Config} {n : Nat} {b : Block} {c : Cause} (hb : Coding b)
    (hn : doublings b.range.toNat ≤ n) (h : renormE cfg n b = .error c) :
    c = .outputOverflow ∨ c = .pendingOverflow := by
  induction n generalizing b with
  | zero =>
    unfold renormE at h
    split at h
    · cases h
    · rename_i hr
      rw [doublings_of_lt hb.pos (by omega)] at hn
      omega
  | succ n ih =>
    unfold renormE at h
    split at h
    · cases h
    · rename_i hr
      rcases bind_error_iff.mp h with h | ⟨b₁, h₁, h⟩
      · exact renormBit_error h
      · obtain ⟨hs, hrange, hlow, -, -⟩ := renormStep hb (by omega) h₁ rfl
        rw [hrange, show (2 * (b.range.toNat : Int)) = ((2 * b.range.toNat : Nat) : Int) by omega,
          writeRange_ok (by omega), ok_bind] at h
        rw [show (2 * (b₁.low.toNat : Int)) = ((2 * b₁.low.toNat : Nat) : Int) by omega, writeLow_ok (by omega),
          ok_bind] at h
        refine ih hs.coding ?_ h
        rw [doublings_of_lt hb.pos (by omega)] at hn
        rw [hs.range, show b.range.toNat * 2 ^ 1 = 2 * b.range.toNat by ring]
        omega

/-- With room for the bits and the run, `RenormE` does not fail. -/
theorem renormE_room {cfg : Config} {n : Nat} {b : Block} (hb : Coding b) (hn : doublings b.range.toNat ≤ n)
    (hp : ¬ RunPasses b.pending.toNat b.low.toNat (doublings b.range.toNat))
    (hr : HasRoom cfg b (b.pending.toNat + doublings b.range.toNat)) : ∃ b', renormE cfg n b = .ok b' := by
  induction n generalizing b with
  | zero =>
    unfold renormE
    split
    · exact ⟨_, rfl⟩
    · rw [doublings_of_lt hb.pos (by omega)] at hn
      omega
  | succ n ih =>
    unfold renormE
    split
    · exact ⟨_, rfl⟩
    · rename_i hr'
      have hd := doublings_of_lt hb.pos (show b.range.toNat < 256 by omega)
      rw [hd, runPasses_succ] at hp
      obtain ⟨b₁, h₁⟩ := renormBit_room (cfg := cfg) hb (hr.mono (by omega)) fun h₁ h₂ h => hp ⟨⟨h₁, h₂⟩, .inl h⟩
      obtain ⟨hs, hrange, hlow, hpend, hlen⟩ := renormStep hb (by omega) h₁ rfl
      rw [h₁, ok_bind, hrange, show (2 * (b.range.toNat : Int)) = ((2 * b.range.toNat : Nat) : Int) by omega,
        writeRange_ok (by omega), ok_bind]
      rw [show (2 * (b₁.low.toNat : Int)) = ((2 * b₁.low.toNat : Nat) : Int) by omega, writeLow_ok (by omega), ok_bind]
      have hd' : ∀ x, x = b.range.toNat * 2 ^ 1 → doublings x = doublings (2 * b.range.toNat) := by
        rintro x rfl; rw [show b.range.toNat * 2 ^ 1 = 2 * b.range.toNat by ring]
      refine ih (b := { b₁ with
        range := BitVec.ofNat 9 (2 * b.range.toNat), low := BitVec.ofNat 10 (2 * b₁.low.toNat) }) hs.coding ?_ ?_ ?_
      · rw [hd' _ hs.range]; omega
      · rw [hd' _ hs.range]
        rcases renormBit_pending hb h₁ with ⟨hl₁, hl₂, hl, hp₁⟩ | hp₁
        · simp only [BitVec.toNat_ofNat, hl, hp₁, Nat.mod_eq_of_lt (show 2 * (b.low.toNat - 256) < 2 ^ 10 by omega)]
          exact fun h => hp ⟨⟨hl₁, hl₂⟩, .inr h⟩
        · simp only [hp₁]
          exact not_runPasses_zero (doublings_le _)
      · intro cap hc
        have := hr cap hc
        rw [hd' _ hs.range]
        omega

/-- A renormalization that passes the end of the pending counter fails there, before it has written a bit. -/
theorem renormE_pendingOverflow {cfg : Config} {n : Nat} {b : Block} (hb : 1 ≤ b.range.toNat)
    (hn : doublings b.range.toNat ≤ n) (hp : RunPasses b.pending.toNat b.low.toNat (doublings b.range.toNat)) :
    renormE cfg n b = .error .pendingOverflow := by
  induction n generalizing b with
  | zero =>
    obtain ⟨j, hj, -⟩ := hp
    omega
  | succ n ih =>
    have hr : b.range.toNat < 256 := by
      by_contra h
      rw [doublings_of_ge (by omega)] at hp
      obtain ⟨j, hj, -⟩ := hp
      omega
    have hd := doublings_of_lt hb hr
    rw [hd, runPasses_succ] at hp
    obtain ⟨⟨hl₁, hl₂⟩, hp⟩ := hp
    unfold renormE
    rw [if_neg (by omega)]
    by_cases he : b.pending.toNat = 2 ^ 32 - 1
    · rw [renormBit_pendingOverflow hl₁ hl₂ he, error_bind]
    · have hlv : (BitVec.ofNat 10 (b.low.toNat - 256)).toNat = b.low.toNat - 256 := by rw [BitVec.toNat_ofNat]; omega
      have hpv : (b.pending + 1).toNat = b.pending.toNat + 1 := by
        rw [BitVec.toNat_add, show (1 : BitVec 32).toNat = 1 from rfl]
        omega
      rw [renormBit_ambiguous hl₁ hl₂ he, ok_bind]
      dsimp only
      rw [show (2 * (b.range.toNat : Int)) = ((2 * b.range.toNat : Nat) : Int) by omega, writeRange_ok (by omega), ok_bind]
      simp only [hlv]
      rw [show (2 * ((b.low.toNat - 256 : Nat) : Int)) = ((2 * (b.low.toNat - 256) : Nat) : Int) by omega,
        writeLow_ok (by omega), ok_bind]
      have hrv : (BitVec.ofNat 9 (2 * b.range.toNat)).toNat = 2 * b.range.toNat := by rw [BitVec.toNat_ofNat]; omega
      have hlv' : (BitVec.ofNat 10 (2 * (b.low.toNat - 256))).toNat = 2 * (b.low.toNat - 256) := by
        rw [BitVec.toNat_ofNat]; omega
      refine ih ?_ ?_ ?_
      · simp only [hrv]; omega
      · simp only [hrv]; omega
      · simp only [hrv, hlv', hpv]
        exact hp.resolve_left he

/-- The quarter of the range: bits 7:6, counted from the smallest (41_context.md R181). -/
theorem lpsRange_eq (cfg : Config) (p : BitVec 6) (range : BitVec 9) :
    lpsRange cfg p range = lpsEntry cfg p (BitVec.ofNat 2 (range.toNat / 64)) := by
  unfold lpsRange
  congr 1
  refine BitVec.eq_of_toNat_eq ?_
  simp [BitVec.extractLsb'_toNat, Nat.shiftRight_eq_div_pow]

/-- Both parts of a subdivision are at least 1 (41_context.md R171, 42_encoder.md R203). -/
theorem lpsRange_bounds {cfg : Config} (h : LpsLegal cfg) (p : BitVec 6) {range : BitVec 9} (hr : 256 ≤ range.toNat) :
    1 ≤ lpsRange cfg p range ∧ lpsRange cfg p range + 1 ≤ range.toNat := by
  have hl := range.isLt
  rw [lpsRange_eq]
  have := h p (BitVec.ofNat 2 (range.toNat / 64))
  rw [show (BitVec.ofNat 2 (range.toNat / 64)).toNat = range.toNat / 64 % 4 from BitVec.toNat_ofNat _ _] at this
  omega

/-- The subdivision of a regular bin: the MPS takes the lower part, the LPS the upper (42_encoder.md R203). -/
theorem encodeDecision_eq {cfg : Config} {i : BitVec 16} {bin : Bit} {b : Block} {c : ContextState}
    (hc : readCtx i b = .ok c) (hl : LpsLegal cfg) (hr : 256 ≤ b.range.toNat)
    (hs : b.low.toNat + b.range.toNat ≤ 1024) :
    let lps := lpsRange cfg c.pStateIdx b.range
    let mps := b.range.toNat - lps
    encodeDecision cfg i bin b = .ok (if bin = c.valMPS then { b with range := BitVec.ofNat 9 mps }
      else { b with low := BitVec.ofNat 10 (b.low.toNat + mps), range := BitVec.ofNat 9 lps }) := by
  intro lps mps
  obtain ⟨h1, h2⟩ := lpsRange_bounds hl c.pStateIdx hr
  have hlt := b.range.isLt
  have hm : (BitVec.ofNat 9 mps).toNat = mps := by rw [BitVec.toNat_ofNat]; omega
  unfold encodeDecision
  rw [hc, ok_bind]
  dsimp only
  rw [show (b.range.toNat : Int) - (lpsRange cfg c.pStateIdx b.range : Nat) = ((mps : Nat) : Int) by omega,
    writeRange_ok (by omega), ok_bind]
  split
  · rfl
  · simp only [hm]
    rw [show (b.low.toNat : Int) + (mps : Int) = ((b.low.toNat + mps : Nat) : Int) by omega, writeLow_ok (by omega),
      ok_bind, writeRange_ok (by omega)]

/-- The subdivision on the exact interval: a sub-interval of the interval. -/
theorem encodeDecision_coding {b : Block} {lps : Nat} {lower : Bool} (hb : Coding b) (h1 : 1 ≤ lps)
    (h2 : lps + 1 ≤ b.range.toNat) :
    let mps := b.range.toNat - lps
    let b' : Block := if lower then { b with range := BitVec.ofNat 9 mps }
      else { b with low := BitVec.ofNat 10 (b.low.toNat + mps), range := BitVec.ofNat 9 lps }
    Coding b' ∧ b'.range.toNat = (if lower then mps else lps) ∧
      b'.exactLow = b.exactLow + (if lower then 0 else mps) ∧ b'.position = b.position ∧ b'.bits = b.bits := by
  have hlt := b.range.isLt
  obtain ⟨hfit, hpos, hscale, hstart, hinside⟩ := hb
  cases lower with
  | true =>
    have hm : (BitVec.ofNat 9 (b.range.toNat - lps)).toNat = b.range.toNat - lps := by rw [BitVec.toNat_ofNat]; omega
    have hbits : Block.bits { b with range := BitVec.ofNat 9 (b.range.toNat - lps) } = b.bits := bits_congr rfl rfl rfl
    have hx : Block.exactLow { b with range := BitVec.ofNat 9 (b.range.toNat - lps) } = b.exactLow := by
      simp only [Block.exactLow, hbits]
    have hp : Block.position { b with range := BitVec.ofNat 9 (b.range.toNat - lps) } = b.position := by
      simp only [Block.position, hbits]
    simp only [if_true]
    refine ⟨⟨hfit, ?_, ?_, fun hf => hbits.trans (hstart hf), ?_⟩, hm, hx, hp, hbits⟩
    · simp only [hm]; omega
    · simp only [hm]; omega
    · simp only [hm, hx, hp]; omega
  | false =>
    have hm : (BitVec.ofNat 9 lps).toNat = lps := by rw [BitVec.toNat_ofNat]; omega
    have hl : (BitVec.ofNat 10 (b.low.toNat + (b.range.toNat - lps))).toNat = b.low.toNat + (b.range.toNat - lps) := by
      rw [BitVec.toNat_ofNat]; omega
    simp only [Bool.false_eq_true, if_false]
    generalize BitVec.ofNat 10 (b.low.toNat + (b.range.toNat - lps)) = low at hl ⊢
    generalize BitVec.ofNat 9 lps = range at hm ⊢
    have hbits : Block.bits { b with low := low, range := range } = b.bits := bits_congr rfl rfl rfl
    have hx : Block.exactLow { b with low := low, range := range } = b.exactLow + (b.range.toNat - lps) := by
      simp only [Block.exactLow, hbits, hl]; omega
    have hp : Block.position { b with low := low, range := range } = b.position := by
      simp only [Block.position, hbits]
    refine ⟨⟨hfit, ?_, ?_, fun hf => hbits.trans (hstart hf), ?_⟩, hm, hx, hp, hbits⟩
    · simp only [hm]; exact h1
    · simp only [hm, hl]; omega
    · simp only [hm, hx, hp]; omega

/-- The bypass step (42_encoder.md R208): the doubled low, with the range added for a bin of 1, is in one of three
bands. -/
theorem encodeBypass_ok {cfg : Config} {bin : Bit} {b b' : Block} (hb : Coding b)
    (h : encodeBypass cfg bin b = .ok b') :
    let v := 2 * b.low.toNat + (if bin then b.range.toNat else 0)
    (1024 ≤ v → ∃ m, Packed (settledBits b.first b.pending.toNat true) b m ∧
      b' = { m with low := BitVec.ofNat 10 (v - 1024), first := false, pending := 0 }) ∧
    (v < 512 → ∃ m, Packed (settledBits b.first b.pending.toNat false) b m ∧
      b' = { m with low := BitVec.ofNat 10 v, first := false, pending := 0 }) ∧
    (512 ≤ v → v < 1024 → b' = { b with low := BitVec.ofNat 10 (v - 512), pending := b.pending + 1 } ∧
      (b.pending + 1).toNat = b.pending.toNat + 1) := by
  obtain ⟨hfit, hpos, hscale, hstart, hinside⟩ := hb
  have hv : 2 * b.low.toNat + (if bin then b.range.toNat else 0) ≤ 2047 := by split <;> omega
  unfold encodeBypass at h
  generalize 2 * b.low.toNat + (if bin then b.range.toNat else 0) = v at hv h ⊢
  have hset : ∀ (bit : Bit) (n : Nat), putBit cfg bit { b with low := BitVec.ofNat 10 n } = .ok b' →
      ∃ m, Packed (settledBits b.first b.pending.toNat bit) b m ∧
        b' = { m with low := BitVec.ofNat 10 n, first := false, pending := 0 } := by
    intro bit n hp
    obtain ⟨m, hm, rfl⟩ := putBit_ok (b := { b with low := BitVec.ofNat 10 n }) hfit hp
    have hml : m.low = BitVec.ofNat 10 n := by rw [hm.frame]
    refine ⟨{ m with low := b.low }, ⟨hm.bits, hm.fits, hm.bytes, hm.last, ?_⟩, by simp only [← hml]⟩
    exact congrArg (fun x : Block => { x with low := b.low }) hm.frame
  dsimp only at h ⊢
  split at h
  · rename_i hc
    rw [show ((v : Int) - 1024) = ((v - 1024 : Nat) : Int) by omega, writeLow_ok (by omega), ok_bind] at h
    exact ⟨fun _ => hset _ _ h, fun _ => by omega, fun _ _ => by omega⟩
  · rename_i hc₁
    split at h
    · rename_i hc₂
      rw [writeLow_ok (by omega), ok_bind] at h
      exact ⟨fun _ => by omega, fun _ => hset _ _ h, fun _ _ => by omega⟩
    · rename_i hc₂
      rw [show ((v : Int) - 512) = ((v - 512 : Nat) : Int) by omega, writeLow_ok (by omega), ok_bind] at h
      refine ⟨fun _ => by omega, fun _ => by omega, fun _ _ => ?_⟩
      obtain ⟨rfl, hp⟩ := incPending_ok h
      exact ⟨rfl, hp⟩

theorem encodeBypass_error {cfg : Config} {bin : Bit} {b : Block} {c : Cause} (hb : Coding b)
    (h : encodeBypass cfg bin b = .error c) : c = .outputOverflow ∨ c = .pendingOverflow := by
  have hscale := hb.scale
  have hpos := hb.pos
  have hv : 2 * b.low.toNat + (if bin then b.range.toNat else 0) ≤ 2047 := by split <;> omega
  generalize hvd : 2 * b.low.toNat + (if bin then b.range.toNat else 0) = v at hv
  unfold encodeBypass at h
  simp only [hvd] at h
  split at h
  · rw [show ((v : Int) - 1024) = ((v - 1024 : Nat) : Int) by omega, writeLow_ok (by omega), ok_bind] at h
    exact .inl (putBit_error h)
  · split at h
    · rw [writeLow_ok (by omega), ok_bind] at h
      exact .inl (putBit_error h)
    · rw [show ((v : Int) - 512) = ((v - 512 : Nat) : Int) by omega, writeLow_ok (by omega), ok_bind] at h
      exact .inr (incPending_error_iff.mp h).1

theorem encodeBypass_room {cfg : Config} {bin : Bit} {b : Block} (hb : Coding b)
    (hp : 512 ≤ 2 * b.low.toNat + (if bin then b.range.toNat else 0) →
      2 * b.low.toNat + (if bin then b.range.toNat else 0) < 1024 → b.pending.toNat < 2 ^ 32 - 1)
    (hr : HasRoom cfg b (b.pending.toNat + 1)) : ∃ b', encodeBypass cfg bin b = .ok b' := by
  have hscale := hb.scale
  have hpos := hb.pos
  have hv : 2 * b.low.toNat + (if bin then b.range.toNat else 0) ≤ 2047 := by split <;> omega
  generalize hvd : 2 * b.low.toNat + (if bin then b.range.toNat else 0) = v at hv hp
  have hput : ∀ (bit : Bit) (low : BitVec 10), ∃ b', putBit cfg bit { b with low := low } = .ok b' :=
    fun bit low => putBit_room (b := { b with low := low }) hb.fits (hr.of_bits (bits_congr rfl rfl rfl))
  unfold encodeBypass
  simp only [hvd]
  split
  · rw [show ((v : Int) - 1024) = ((v - 1024 : Nat) : Int) by omega, writeLow_ok (by omega), ok_bind]
    exact hput _ _
  · split
    · rw [writeLow_ok (by omega), ok_bind]
      exact hput _ _
    · rw [show ((v : Int) - 512) = ((v - 512 : Nat) : Int) by omega, writeLow_ok (by omega), ok_bind]
      refine ⟨{ b with low := BitVec.ofNat 10 (v - 512), pending := b.pending + 1 }, ?_⟩
      rw [incPending, if_neg]
      exact (hp (by omega) (by omega)).ne

/-- At the end of the pending counter a bypass bin in the middle band fails. -/
theorem encodeBypass_pendingOverflow {cfg : Config} {bin : Bit} {b : Block} (hp : b.pending.toNat = 2 ^ 32 - 1)
    (h₁ : 512 ≤ 2 * b.low.toNat + (if bin then b.range.toNat else 0))
    (h₂ : 2 * b.low.toNat + (if bin then b.range.toNat else 0) < 1024) :
    encodeBypass cfg bin b = .error .pendingOverflow := by
  unfold encodeBypass
  generalize 2 * b.low.toNat + (if bin then b.range.toNat else 0) = v at h₁ h₂ ⊢
  dsimp only
  rw [if_neg (by omega), if_neg (by omega), show ((v : Int) - 512) = ((v - 512 : Nat) : Int) by omega,
    writeLow_ok (by omega), ok_bind]
  exact incPending_error_iff.mpr ⟨rfl, hp⟩

/-! ### The decoder -/

theorem nextInput_succ {b : Block} {n : Nat} {bit : Bit} (h : (bytesBits b.ibuf)[b.ipos]? = some bit) :
    b.nextInput (n + 1) = bit :: Block.nextInput { b with ipos := b.ipos + 1 } n := by
  obtain ⟨hlt, hget⟩ := List.getElem?_eq_some_iff.mp h
  simp only [Block.nextInput]
  rw [List.drop_eq_getElem_cons hlt, List.take_succ_cons, hget]

theorem renormD_done {b b' : Block} (hlow : b.low.toNat < b.range.toNat) (hge : 256 ≤ b.range.toNat) (h : b = b') :
    let k := doublings b.range.toNat
    let low := b.low.toNat * 2 ^ k + bitsValue (b.nextInput k)
    (b.nextInput k).length = k ∧ low < b.range.toNat * 2 ^ k ∧
      b' = { b with range := BitVec.ofNat 9 (b.range.toNat * 2 ^ k), low := BitVec.ofNat 10 low, ipos := b.ipos + k } := by
  subst h
  have hn : b.nextInput 0 = [] := by simp [Block.nextInput]
  rw [doublings_of_ge hge]
  simp only [hn, List.length_nil, pow_zero, mul_one, bitsValue_nil, add_zero, BitVec.ofNat_toNat, BitVec.setWidth_eq]
  exact ⟨trivial, hlow, trivial⟩

/-- `RenormD` doubles range and offset until the range is at least 256, one input bit for each doubling (44_decoder.md
R264, R268). -/
theorem renormD_ok {n : Nat} {b b' : Block} (hr : 1 ≤ b.range.toNat) (hlow : b.low.toNat < b.range.toNat)
    (h : renormD n b = .ok b') :
    let k := doublings b.range.toNat
    let low := b.low.toNat * 2 ^ k + bitsValue (b.nextInput k)
    (b.nextInput k).length = k ∧ low < b.range.toNat * 2 ^ k ∧
      b' = { b with range := BitVec.ofNat 9 (b.range.toNat * 2 ^ k), low := BitVec.ofNat 10 low, ipos := b.ipos + k } := by
  induction n generalizing b with
  | zero =>
    unfold renormD at h
    split at h
    · rename_i hge
      exact renormD_done hlow hge (by injection h)
    · cases h
  | succ n ih =>
    unfold renormD at h
    split at h
    · rename_i hge
      exact renormD_done hlow hge (by injection h)
    · rename_i hlt
      rw [show (2 * (b.range.toNat : Int)) = ((2 * b.range.toNat : Nat) : Int) by omega, writeRange_ok (by omega),
        ok_bind] at h
      obtain ⟨⟨bit, b₁⟩, hread, h⟩ := bind_ok_iff.mp h
      obtain ⟨hget, rfl⟩ := readBit_ok_iff.mp hread
      replace hget : (bytesBits b.ibuf)[b.ipos]? = some bit := hget
      have hbit : bit.toNat < 2 := by cases bit <;> simp
      simp only at h
      rw [show (2 * (b.low.toNat : Int) + (bit.toNat : Nat)) = ((2 * b.low.toNat + bit.toNat : Nat) : Int) by omega,
        writeLow_ok (by omega), ok_bind] at h
      have hrv : (BitVec.ofNat 9 (2 * b.range.toNat)).toNat = 2 * b.range.toNat := by rw [BitVec.toNat_ofNat]; omega
      have hlv : (BitVec.ofNat 10 (2 * b.low.toNat + bit.toNat)).toNat = 2 * b.low.toNat + bit.toNat := by
        rw [BitVec.toNat_ofNat]; omega
      have hd := doublings_of_lt hr (show b.range.toNat < 256 by omega)
      have := ih (b := { b with
          range := BitVec.ofNat 9 (2 * b.range.toNat), ipos := b.ipos + 1,
          low := BitVec.ofNat 10 (2 * b.low.toNat + bit.toNat) })
        (by simp only [hrv]; omega) (by simp only [hrv, hlv]; omega) h
      simp only [hrv, hlv] at this
      obtain ⟨hlen, hval, rfl⟩ := this
      have hni : ∀ k, Block.nextInput { b with
          range := BitVec.ofNat 9 (2 * b.range.toNat), ipos := b.ipos + 1,
          low := BitVec.ofNat 10 (2 * b.low.toNat + bit.toNat) } k =
          Block.nextInput { b with ipos := b.ipos + 1 } k := fun k => rfl
      rw [hni] at hlen hval
      rw [hd]
      generalize doublings (2 * b.range.toNat) = k at *
      have hcons := nextInput_succ (n := k) hget
      have e : b.low.toNat * 2 ^ (k + 1) + bitsValue (b.nextInput (k + 1)) =
          (2 * b.low.toNat + bit.toNat) * 2 ^ k + bitsValue (Block.nextInput { b with ipos := b.ipos + 1 } k) := by
        rw [hcons, bitsValue_cons, hlen, pow_succ]; ring
      have e' : b.range.toNat * 2 ^ (k + 1) = 2 * b.range.toNat * 2 ^ k := by rw [pow_succ]; ring
      intro k' low'
      refine ⟨?_, ?_, ?_⟩
      · simp only [k', hcons, List.length_cons, hlen]
      · simp only [low', k', e, e']; exact hval
      · simp only [low', k', e, e', hni, add_assoc, add_comm 1 k]

/-- `RenormD` fails only when the input ends. -/
theorem renormD_error {n : Nat} {b : Block} {c : Cause} (hr : 1 ≤ b.range.toNat) (hlow : b.low.toNat < b.range.toNat)
    (hn : doublings b.range.toNat ≤ n) (h : renormD n b = .error c) :
    c = .sourceExhausted ∧ 8 * b.ibuf.length < b.ipos + doublings b.range.toNat := by
  induction n generalizing b with
  | zero =>
    unfold renormD at h
    split at h
    · cases h
    · rw [doublings_of_lt hr (by omega)] at hn
      omega
  | succ n ih =>
    unfold renormD at h
    split at h
    · cases h
    · rename_i hlt
      have hd := doublings_of_lt hr (show b.range.toNat < 256 by omega)
      rw [show (2 * (b.range.toNat : Int)) = ((2 * b.range.toNat : Nat) : Int) by omega, writeRange_ok (by omega),
        ok_bind] at h
      rcases bind_error_iff.mp h with h | ⟨⟨bit, b₁⟩, hread, h⟩
      · obtain ⟨hc, hl⟩ := readBit_error_iff.mp h
        replace hl : 8 * b.ibuf.length ≤ b.ipos := hl
        exact ⟨hc, by omega⟩
      · obtain ⟨hget, rfl⟩ := readBit_ok_iff.mp hread
        have hbit : bit.toNat < 2 := by cases bit <;> simp
        simp only at h
        rw [show (2 * (b.low.toNat : Int) + (bit.toNat : Nat)) = ((2 * b.low.toNat + bit.toNat : Nat) : Int) by omega,
          writeLow_ok (by omega), ok_bind] at h
        have hrv : (BitVec.ofNat 9 (2 * b.range.toNat)).toNat = 2 * b.range.toNat := by rw [BitVec.toNat_ofNat]; omega
        have hlv : (BitVec.ofNat 10 (2 * b.low.toNat + bit.toNat)).toNat = 2 * b.low.toNat + bit.toNat := by
          rw [BitVec.toNat_ofNat]; omega
        have := ih (b := { b with
            range := BitVec.ofNat 9 (2 * b.range.toNat), ipos := b.ipos + 1,
            low := BitVec.ofNat 10 (2 * b.low.toNat + bit.toNat) })
          (by simp only [hrv]; omega) (by simp only [hrv, hlv]; omega) (by simp only [hrv]; omega) h
        simp only [hrv] at this
        exact ⟨this.1, by omega⟩

/-- The bin is the MPS when the offset lies in the lower part (44_decoder.md R263). -/
theorem decodeDecision_eq {cfg : Config} {i : BitVec 16} {b : Block} {c : ContextState}
    (hc : readCtx i b = .ok c) (hl : LpsLegal cfg) (hr : 256 ≤ b.range.toNat) :
    let lps := lpsRange cfg c.pStateIdx b.range
    let mps := b.range.toNat - lps
    decodeDecision cfg i b = .ok (if b.low.toNat < mps then (c.valMPS, { b with range := BitVec.ofNat 9 mps })
      else (!c.valMPS, { b with low := BitVec.ofNat 10 (b.low.toNat - mps), range := BitVec.ofNat 9 lps })) := by
  intro lps mps
  obtain ⟨h1, h2⟩ := lpsRange_bounds hl c.pStateIdx hr
  have hlt := b.range.isLt
  have hll := b.low.isLt
  have hm : (BitVec.ofNat 9 mps).toNat = mps := by rw [BitVec.toNat_ofNat]; omega
  unfold decodeDecision
  rw [hc, ok_bind]
  dsimp only
  rw [show (b.range.toNat : Int) - (lpsRange cfg c.pStateIdx b.range : Nat) = ((mps : Nat) : Int) by omega,
    writeRange_ok (by omega), ok_bind]
  simp only [hm]
  split
  · rename_i hge
    rw [if_neg (by omega), show (b.low.toNat : Int) - (mps : Int) = ((b.low.toNat - mps : Nat) : Int) by omega,
      writeLow_ok (by omega), ok_bind, writeRange_ok (by omega), ok_bind]
  · rw [if_pos (by omega)]

/-- The bypass step reads one bit and compares the doubled offset with the range (44_decoder.md R265). -/
theorem decodeBypass_ok {b b' : Block} {bin : Bit} (hlow : b.low.toNat < b.range.toNat)
    (h : decodeBypass b = .ok (bin, b')) :
    let v := 2 * b.low.toNat + bitsValue (b.nextInput 1)
    (b.nextInput 1).length = 1 ∧ bin = decide (b.range.toNat ≤ v) ∧
      (if bin then v - b.range.toNat else v) < b.range.toNat ∧
      b' = { b with low := BitVec.ofNat 10 (if bin then v - b.range.toNat else v), ipos := b.ipos + 1 } := by
  have hlt := b.range.isLt
  unfold decodeBypass at h
  obtain ⟨⟨bit, b₁⟩, hread, h⟩ := bind_ok_iff.mp h
  obtain ⟨hget, rfl⟩ := readBit_ok_iff.mp hread
  have hbit : bit.toNat < 2 := by cases bit <;> simp
  have hni : b.nextInput 1 = [bit] := by
    rw [nextInput_succ (n := 0) hget]
    simp [Block.nextInput]
  have hbv : bitsValue [bit] = bit.toNat := by simp [bitsValue_cons]
  rw [hni, hbv]
  simp only at h
  split at h
  · rename_i hge
    rw [show (((2 * b.low.toNat + bit.toNat : Nat) : Int) - (b.range.toNat : Nat)) =
      ((2 * b.low.toNat + bit.toNat - b.range.toNat : Nat) : Int) by omega, writeLow_ok (by omega), ok_bind] at h
    obtain ⟨rfl, rfl⟩ : true = bin ∧ _ = b' := by simpa using h
    simp only [if_true, hge, decide_true, List.length_singleton, true_and, and_true]
    omega
  · rename_i hge
    rw [writeLow_ok (by omega), ok_bind] at h
    obtain ⟨rfl, rfl⟩ : false = bin ∧ _ = b' := by simpa using h
    simp only [Bool.false_eq_true, if_false, hge, decide_false, List.length_singleton, true_and, and_true]
    omega

theorem decodeBypass_error {b : Block} {c : Cause} (hlow : b.low.toNat < b.range.toNat)
    (h : decodeBypass b = .error c) : c = .sourceExhausted ∧ 8 * b.ibuf.length ≤ b.ipos := by
  have hlt := b.range.isLt
  unfold decodeBypass at h
  rcases bind_error_iff.mp h with h | ⟨⟨bit, b₁⟩, hread, h⟩
  · exact readBit_error_iff.mp h
  · obtain ⟨hget, rfl⟩ := readBit_ok_iff.mp hread
    have hbit : bit.toNat < 2 := by cases bit <;> simp
    simp only at h
    split at h
    · rename_i hge
      rw [show (((2 * b.low.toNat + bit.toNat : Nat) : Int) - (b.range.toNat : Nat)) =
        ((2 * b.low.toNat + bit.toNat - b.range.toNat : Nat) : Int) by omega, writeLow_ok (by omega), ok_bind] at h
      cases h
    · rw [writeLow_ok (by omega), ok_bind] at h
      cases h

end Sys2Proof.Machine
end

