-- ==== Sys2Proof/Laws/PerInstr.lean ====
section
/-! SUPPORT. PerInstr.lean: statements about every command, one lemma per constructor. -/

namespace Sys2Proof.Laws.EncodedOpcode

/-- The top byte of a command's word is the opcode of the opcode map (30_encoding.md R101, R104). -/
def Statement (i : Sys2Proof.Instr) : Prop := opcField (encodeWord i) = i.opcode.code

theorem opcField_append (code : Byte) (fields : BitVec 24) : opcField (code ++ fields) = code := by
  refine BitVec.eq_of_toNat_eq ?_
  have hc := code.isLt
  have hf := fields.isLt
  rw [opcField, BitVec.extractLsb'_toNat, BitVec.toNat_append, Nat.shiftRight_eq_div_pow,
    ← Nat.shiftLeft_add_eq_or_of_lt hf, Nat.shiftLeft_eq]
  omega

theorem encInit (mode : Byte) : Statement (.encInit mode) := opcField_append _ _
theorem encReg (ctx : BitVec 16) (bin : Word) : Statement (.encReg ctx bin) := opcField_append _ _
theorem encByp (bin : Word) : Statement (.encByp bin) := opcField_append _ _
theorem encFin : Statement .encFin := opcField_append _ _
theorem decInit (mode : Byte) (declared : Option Word) (input : List Byte) : Statement (.decInit mode declared input) := opcField_append _ _
theorem decReg (ctx : BitVec 16) : Statement (.decReg ctx) := opcField_append _ _
theorem decByp : Statement .decByp := opcField_append _ _
theorem decEnd : Statement .decEnd := opcField_append _ _
theorem ctxSel (se : Byte) (cat : Byte) (binIdx : Word) : Statement (.ctxSel se cat binIdx) := opcField_append _ _
theorem ctxRd (ctx : BitVec 16) : Statement (.ctxRd ctx) := opcField_append _ _
theorem binU (value : Word) : Statement (.binU value) := opcField_append _ _
theorem binTu (value : Word) (cutoff : Word) : Statement (.binTu value cutoff) := opcField_append _ _
theorem binEgu (value : Word) (order : Word) : Statement (.binEgu value order) := opcField_append _ _
theorem binEgs (value : Word) (order : Word) : Statement (.binEgs value order) := opcField_append _ _
theorem binFl (value : Word) (length : Word) : Statement (.binFl value length) := opcField_append _ _
theorem debinU (bins : List Word) : Statement (.debinU bins) := opcField_append _ _
theorem debinTu (cutoff : Word) (bins : List Word) : Statement (.debinTu cutoff bins) := opcField_append _ _
theorem debinEgu (order : Word) (bins : List Word) : Statement (.debinEgu order bins) := opcField_append _ _
theorem debinEgs (order : Word) (bins : List Word) : Statement (.debinEgs order bins) := opcField_append _ _
theorem debinFl (length : Word) (bins : List Word) : Statement (.debinFl length bins) := opcField_append _ _
theorem abort : Statement .abort := opcField_append _ _
theorem stat (sel : BitVec 4) : Statement (.stat sel) := opcField_append _ _

end Sys2Proof.Laws.EncodedOpcode
end

