-- ==== Sys2Proof/Tests/Slice0.lean ====
section
/-! SUPPORT. Slice0.lean: tests against spec/95_test_vectors.md and the encodings of spec/30_encoding.md, and for each
obligation with hypotheses a theorem that shows them met. -/

namespace Sys2Proof.Tests

/- One test after another: side by side, the many kernel evaluations below hold a thread each. -/
set_option Elab.async false

open Sys2Proof Sys2Proof.Machine

/-! ### Well-formedness: the one check, on the terms it refuses -/

theorem test_stat_selectors_8_to_15_are_ill_formed :
    ∀ sel : BitVec 4, 8 ≤ sel.toNat → (Instr.stat sel).wellFormed = false := by decide

theorem test_stat_selectors_0_to_7_are_well_formed :
    ∀ sel : BitVec 4, sel.toNat < 8 → (Instr.stat sel).wellFormed = true := by decide

/-! ### Decoding: words written out from 30_encoding.md R101 to R110, one for each constructor

The word is `OPC ++ 23:16 ++ 15:8 ++ 7:0`. -/

def word (opc hi mid lo : Byte) : Word := opc ++ hi ++ mid ++ lo

theorem test_decode_encInit :
    decode ⟨word 0b00000001 0b10100101 0 0, 1, 2, .absent⟩ = .ok (.encInit 0b10100101) := by decide
theorem test_decode_encReg :
    decode ⟨word 0b00000010 0 0b10000000 0b00000011, 1, 2, .absent⟩ = .ok (.encReg 0b1000000000000011 1) := by decide
theorem test_decode_encByp : decode ⟨word 0b00000011 0 0 0, 1, 2, .absent⟩ = .ok (.encByp 1) := by decide
theorem test_decode_encFin : decode ⟨word 0b00000100 0 0 0, 1, 2, .absent⟩ = .ok .encFin := by decide
theorem test_decode_decInit :
    decode ⟨word 0b00000101 0b11000001 0 1, 9, 2, .bytes [7]⟩ = .ok (.decInit 0b11000001 (some 9) [7]) ∧
      decode ⟨word 0b00000101 0b11000001 0 0, 9, 2, .absent⟩ = .ok (.decInit 0b11000001 none []) := by decide
theorem test_decode_decReg :
    decode ⟨word 0b00000110 0 0b10000000 0b00000011, 1, 2, .absent⟩ = .ok (.decReg 0b1000000000000011) := by decide
theorem test_decode_decByp : decode ⟨word 0b00000111 0 0 0, 1, 2, .absent⟩ = .ok .decByp := by decide
theorem test_decode_decEnd : decode ⟨word 0b00001000 0 0 0, 1, 2, .absent⟩ = .ok .decEnd := by decide
theorem test_decode_ctxSel :
    decode ⟨word 0b00001001 0b10000010 0b01000001 0, 5, 2, .absent⟩ = .ok (.ctxSel 0b10000010 0b01000001 5) := by decide
theorem test_decode_ctxRd :
    decode ⟨word 0b00001010 0 0b10000000 0b00000011, 1, 2, .absent⟩ = .ok (.ctxRd 0b1000000000000011) := by decide
theorem test_decode_binU : decode ⟨word 0b00001011 0 0 0b000, 1, 2, .absent⟩ = .ok (.binU 1) := by decide
theorem test_decode_binTu : decode ⟨word 0b00001011 0 0 0b001, 1, 2, .absent⟩ = .ok (.binTu 1 2) := by decide
theorem test_decode_binEgu : decode ⟨word 0b00001011 0 0 0b010, 1, 2, .absent⟩ = .ok (.binEgu 1 2) := by decide
theorem test_decode_binEgs : decode ⟨word 0b00001011 0 0 0b011, 1, 2, .absent⟩ = .ok (.binEgs 1 2) := by decide
theorem test_decode_binFl : decode ⟨word 0b00001011 0 0 0b100, 1, 2, .absent⟩ = .ok (.binFl 1 2) := by decide
theorem test_decode_debinU : decode ⟨word 0b00001100 0 0 0b000, 1, 2, .words [1, 0]⟩ = .ok (.debinU [1, 0]) := by decide
theorem test_decode_debinTu :
    decode ⟨word 0b00001100 0 0 0b001, 1, 2, .words [1, 0]⟩ = .ok (.debinTu 2 [1, 0]) := by decide
theorem test_decode_debinEgu :
    decode ⟨word 0b00001100 0 0 0b010, 1, 2, .words [1, 0]⟩ = .ok (.debinEgu 2 [1, 0]) := by decide
theorem test_decode_debinEgs :
    decode ⟨word 0b00001100 0 0 0b011, 1, 2, .words [1, 0]⟩ = .ok (.debinEgs 2 [1, 0]) := by decide
theorem test_decode_debinFl :
    decode ⟨word 0b00001100 0 0 0b100, 1, 2, .words [1, 0]⟩ = .ok (.debinFl 2 [1, 0]) := by decide
theorem test_decode_abort : decode ⟨word 0b00001101 0 0 0, 1, 2, .absent⟩ = .ok .abort := by decide
theorem test_decode_stat : decode ⟨word 0b00001110 0 0 0b0111, 1, 2, .absent⟩ = .ok (.stat 0b0111) := by decide

/-- 95_test_vectors.md 2.11. -/
theorem test_decode_refuses_illegal_words :
    ([0x00000000, 0x0F000000, 0xFF000000].map fun w => decode ⟨w, 0, 0, .absent⟩) = List.replicate 3 (.error .badOpcode) ∧
    ([0x03000001, 0x01000100, 0x05000002, 0x09000001, 0x0B000008, 0x0E000010, 0x02010000].map fun w =>
      decode ⟨w, 0, 0, .absent⟩) = List.replicate 7 (.error .reservedBits) ∧
    ([0x0C000007, 0x0B000005].map fun w => decode ⟨w, 0, 0, .absent⟩) = List.replicate 2 (.error .badScheme) ∧
    decode ⟨0x0E000009, 0, 0, .absent⟩ = .error .badSelector := by decide

/-! ### Small states -/

/-- Just after reset, under `REF-SMALL`. -/
def idle : State := State.resetWith Config.refSmall

/-- The context states that `REF-SMALL` seeds. -/
def seeds : List ContextState := [⟨0, false⟩, ⟨10, true⟩, ⟨62, false⟩, ⟨63, true⟩]

/-- An encode session at its start. -/
def encStart : State :=
  { idle with block := { Block.reset with sstate := .encActive, ctx := some seeds, range := 510, first := true } }

/-- An encode session with one settled, unwritten bit and the registers given. -/
def encAt (low : BitVec 10) (range : BitVec 9) (pending : BitVec 32) : State :=
  { encStart with block := { encStart.block with low := low, range := range, pending := pending, first := false } }

/-- A decode session without a declared count, with the registers given. -/
def decAt (input : List Byte) (low : BitVec 10) (range : BitVec 9) (ipos : Nat) : State :=
  { idle with block := { Block.reset with
      sstate := .decActive, ctx := some seeds, low := low, range := range, ibuf := input, ipos := ipos } }

/-- The state after a command. -/
def after (i : Instr) (s : State) : State := match exec i s with | .next t => t | _ => s

/-- The state after a step that performs the command presented. -/
def run (c : Command) (s : State) : State := match step (present c s) with | .next t => t | _ => s

theorem exec_after (i : Instr) (s : State) : exec i s = .next (after i s) := by cases i <;> rfl

/-- What `STAT 0` reads. -/
def stat0 (s : State) : Option Word := statusWord 0 s.block

def ok (r0 : Word) : Option Response := some ⟨.ok, r0, 0, []⟩

def raised (c : Cause) : Option Response := some ⟨.error c, 0, 0, []⟩

/-! ### Steps, from 95_test_vectors.md -/

/-- E1. -/
theorem test_encInit :
    (run ⟨0x01000000, 0, 0, .absent⟩ idle).block = encStart.block ∧
      stat0 (run ⟨0x01000000, 0, 0, .absent⟩ idle) = some 0x00000001 := by decide +kernel
/-- E4. -/
theorem test_encInit_without_seed :
    (after (.encInit 1) encStart).response = raised .noSeed ∧ stat0 (after (.encInit 1) encStart) = some 0x00002420 := by
  decide +kernel
/-- 2.3 M1, step 1: an MPS without renormalization. -/
theorem test_encReg_mps :
    let t := run ⟨0x02000000, 0, 0, .absent⟩ encStart
    t.block.low = 0 ∧ t.block.range = 270 ∧ t.block.first = true ∧
      t.block.ctx = some (seeds.set 0 ⟨1, false⟩) ∧ t.block.binCount = 1 := by decide +kernel
/-- P1, step 8: an LPS of width 2, seven iterations, a completed byte. -/
theorem test_encReg_lps :
    let s := { encAt 370 370 0 with block := { (encAt 370 370 0).block with pcnt := 1 } }
    let t := after (.encReg 3 0) s
    t.block.low = 256 ∧ t.block.range = 256 ∧ t.block.obuf = [0x5C] ∧ t.block.pcnt = 0 ∧
      t.block.ctx = some seeds := by decide +kernel
/-- 2.4 K2, the fifth bin: a carry through three pending bits. -/
theorem test_encByp_carry :
    let t := run ⟨0x03000000, 1, 0, .absent⟩ (encAt 496 510 3)
    t.block.low = 478 ∧ t.block.bits = [true, false, false, false] ∧ t.block.pending = 0 := by decide +kernel
/-- 2.2, last words. -/
theorem test_encByp_bad_bin :
    (after (.encByp 2) encStart).response = raised .binValue ∧ stat0 (after (.encByp 2) encStart) = some 0x00001115 := by
  decide +kernel
/-- E2. -/
theorem test_encFin_empty :
    let t := run ⟨0x04000000, 0, 0, .absent⟩ encStart
    t.response = ok 2 ∧ t.block.obuf = [0xFE, 0x80] ∧ t.block.sstate = .encFinal := by decide +kernel
/-- E8. -/
theorem test_encFin_twice :
    let t := after .encFin (after .encFin encStart)
    t.response = raised .afterFinalize ∧ t.block.obuf = [0xFE, 0x80] ∧ stat0 t = some 0x00003235 := by decide +kernel
/-- P2, step 1. -/
theorem test_decInit :
    let t := run ⟨0x05000001, 4, 0, .bytes [0x5C, 0x7F, 0xC0]⟩ idle
    t.block.low = 184 ∧ t.block.range = 510 ∧ t.block.ipos = 9 ∧ t.block.hasDecl = true ∧ t.block.declCount = 4 ∧
      t.block.ctx = some seeds ∧ t.block.sstate = .decActive := by decide +kernel
/-- D4 and D1. -/
theorem test_decInit_refuses :
    (after (.decInit 0 none [0xFF, 0x7F]) encStart).response = raised .badInitOffset ∧
      stat0 (after (.decInit 0 none [0xFF]) encStart) = some 0x00003530 := by decide +kernel
/-- P2, step 3: the MPS, one bit read. -/
theorem test_decReg_mps :
    let t := run ⟨0x06000001, 0, 0, .absent⟩ (decAt [0x5C, 0x7F, 0xC0] 184 270 9)
    t.response = ok 1 ∧ t.block.low = 369 ∧ t.block.range = 370 ∧ t.block.ipos = 10 ∧
      t.block.ctx = some (seeds.set 1 ⟨11, true⟩) := by decide +kernel
/-- P2, step 5: the LPS, seven bits read. -/
theorem test_decReg_lps :
    let t := after (.decReg 3) (decAt [0x5C, 0x7F, 0xC0] 369 370 11)
    t.response = ok 0 ∧ t.block.low = 255 ∧ t.block.range = 256 ∧ t.block.ipos = 18 := by decide +kernel
/-- P2, step 4. -/
theorem test_decByp :
    let t := run ⟨0x07000000, 0, 0, .absent⟩ (decAt [0x5C, 0x7F, 0xC0] 369 370 10)
    t.response = ok 1 ∧ t.block.low = 369 ∧ t.block.ipos = 11 ∧ t.block.range = 370 := by decide +kernel
/-- P4, step 30. -/
theorem test_decByp_at_the_end :
    let t := after .decByp (decAt [0, 0] 0 270 16)
    t.response = raised .sourceExhausted ∧ stat0 t = some 0x00003535 := by decide +kernel
/-- P2, step 7. -/
theorem test_decEnd :
    let t := run ⟨0x08000000, 0, 0, .absent⟩ (decAt [0x5C, 0x7F, 0xC0] 255 256 18)
    t.response = ok 0x12 ∧ t.block.sstate = .decEnded := by decide +kernel
/-- D11. -/
theorem test_decEnd_twice :
    let t := after .decEnd (after .decEnd (decAt [0xFE, 0x80] 509 510 9))
    t.response = raised .afterEnd ∧ stat0 t = some 0x00003335 := by decide +kernel
/-- X5. -/
theorem test_ctxSel : (run ⟨0x09000100, 5, 0, .absent⟩ encStart).response = ok 3 := by decide +kernel
/-- X6 and X7. -/
theorem test_ctxSel_refuses :
    (after (.ctxSel 1 0 0) encStart).response = raised .noRange ∧
      (after (.ctxSel 0 2 0) encStart).response = raised .noOffset := by decide +kernel
/-- X10. -/
theorem test_ctxRd :
    ([0, 1, 2, 3].map fun i => (after (.ctxRd i) encStart).response) = [ok 0, ok 0x4A, ok 0x3E, ok 0x7F] := by
  decide +kernel
/-- X11 and X12. -/
theorem test_ctxRd_refuses :
    (after (.ctxRd 4) encStart).response = raised .ctxRange ∧ (after (.ctxRd 0) idle).response = raised .noContext := by
  decide +kernel

/-- A bin string. -/
def bins (l : List Nat) : List Bit := l.map (· == 1)

def coded (l : List Nat) : Option Response := some ⟨.ok, BitVec.ofNat 32 l.length, 0, bins l⟩

def read (v : Word) : Option Response := some ⟨.ok, v, 1, []⟩

/-- 2.9. -/
theorem test_binU :
    (run ⟨0x0B000000, 3, 0, .absent⟩ idle).response = coded [1, 1, 1, 0] ∧
      (after (.binU 0xFFFFFFFF) idle).response = raised .negValue := by decide +kernel
theorem test_binTu :
    (run ⟨0x0B000001, 2, 3, .absent⟩ idle).response = coded [1, 1, 0] ∧
      (after (.binTu 5 3) idle).response = coded [1, 1, 1] ∧ (after (.binTu 4 0) idle).response = coded [] := by
  decide +kernel
theorem test_binEgu :
    (run ⟨0x0B000002, 14, 2, .absent⟩ idle).response = coded [1, 1, 1, 1, 0, 1, 0] ∧
      (after (.binEgu 0 32) idle).response = raised .badOrder := by decide +kernel
theorem test_binEgs :
    (run ⟨0x0B000003, 0xFFFFFFFD, 1, .absent⟩ idle).response = coded [1, 1, 1, 0, 1] ∧
      (after (.binEgs 5 1) idle).response = coded [1, 1, 1, 1, 1, 1, 0, 0] := by decide +kernel
theorem test_binFl :
    (run ⟨0x0B000004, 5, 3, .absent⟩ idle).response = coded [1, 0, 1] ∧
      (after (.binFl 8 3) idle).response = raised .flRange := by decide +kernel
/-- 2.10. -/
theorem test_debinU :
    (run ⟨0x0C000000, 0, 0, .words [1, 1, 0]⟩ idle).response = read 2 ∧
      (after (.debinU [1, 0, 1]) idle).response = raised .debinExtra := by decide +kernel
theorem test_debinTu :
    (run ⟨0x0C000001, 0, 3, .words [1, 1, 1]⟩ idle).response = read 3 ∧
      (after (.debinTu 3 [1, 1]) idle).response = ok 0 ∧ (after (.debinTu 0 [0]) idle).response = raised .debinExtra := by
  decide +kernel
theorem test_debinEgu :
    (run ⟨0x0C000002, 0, 2, .words [1, 1, 1, 1, 0, 1, 0]⟩ idle).response = read 14 ∧
      (after (.debinEgu 31 [1, 1, 0]) idle).response = raised .debinOverflow := by decide +kernel
theorem test_debinEgs :
    (run ⟨0x0C000003, 0, 0, .words [1, 1, 0]⟩ idle).response = read 0xFFFFFFFF ∧
      (after (.debinEgs 31 (1 :: 1 :: 0 :: List.replicate 31 1)) idle).response = read 0x80000000 := by decide +kernel
theorem test_debinFl :
    (run ⟨0x0C000004, 0, 3, .words [1, 0, 1]⟩ idle).response = read 5 ∧
      (after (.debinFl 32 [1]) idle).response = raised .debinOverflow := by decide +kernel
/-- P3, steps 10 and 11. -/
theorem test_abort :
    let t := run ⟨0x0D000000, 0, 0, .absent⟩ (after (.ctxSel 1 0 0) encStart)
    t.block = Block.reset ∧ stat0 t = some 0 := by decide +kernel
/-- S10. -/
theorem test_stat :
    let s := after (.encReg 0 0) encStart
    (run ⟨0x0E000004, 0, 0, .absent⟩ s).response = ok 0x0000010E ∧ (after (.stat 6) s).response = ok 0x00010000 := by
  decide +kernel

/-! ### The hypotheses of the obligations are met

For each obligation with hypotheses, a state and operands that meet all of them together, at the boundaries where its
clauses meet. -/

theorem idle_inv : Inv idle where
  ctxWhole := by decide
  lpsChecked h := absurd rfl h
  encInterval := nofun
  encFinal := nofun
  encSide := nofun
  decInterval := nofun
  decSide := nofun
  packerFits := by decide
  idleIsReset _ := rfl
  errorRecord := by decide

theorem encStart_inv : Inv encStart where
  ctxWhole := by decide
  lpsChecked _ := show lpsTableLegal Config.refSmall = true by decide +kernel
  encInterval := by decide
  encFinal := nofun
  encSide _ := ⟨rfl, rfl, rfl, rfl, rfl⟩
  decInterval := nofun
  decSide := nofun
  packerFits := by decide
  idleIsReset := nofun
  errorRecord := by decide

theorem encAt_inv (low : BitVec 10) (range : BitVec 9) (pending : BitVec 32) (h₁ : 256 ≤ range.toNat)
    (h₂ : low.toNat + range.toNat ≤ 1020) : Inv (encAt low range pending) where
  ctxWhole := by simp [CtxWhole, encAt, encStart, idle, State.resetWith, seeds, nCtx, Config.refSmall]
  lpsChecked _ := show lpsTableLegal Config.refSmall = true by decide +kernel
  encInterval _ := by
    refine ⟨h₁, show low.toNat + range.toNat ≤ 1024 by omega, nofun, ?_⟩
    have hp := Nat.one_le_two_pow (n := pending.toNat)
    have e : (encAt low range pending).block.position = pending.toNat + 1 := by
      simp [Block.position, encAt, encStart, Block.reset, Block.bits, bytesBits, msbBits]
    have e' : (encAt low range pending).block.exactLow = 512 * (2 ^ pending.toNat - 1) + low.toNat := by
      simp [Block.exactLow, encAt, encStart, Block.reset, Block.bits, bytesBits, msbBits, bitsValue, bitsValueFrom]
    rw [e, e', pow_succ]
    show 512 * (2 ^ pending.toNat - 1) + low.toNat + range.toNat ≤ _
    omega
  encFinal := nofun
  encSide _ := ⟨rfl, rfl, rfl, rfl, rfl⟩
  decInterval := nofun
  decSide := nofun
  packerFits := ⟨show 0 < 1 by decide, rfl⟩
  idleIsReset := nofun
  errorRecord := ⟨fun _ => ⟨rfl, rfl⟩, nofun⟩

theorem decAt_inv (input : List Byte) (low : BitVec 10) (range : BitVec 9) (ipos : Nat) (h₁ : 256 ≤ range.toNat)
    (h₂ : low.toNat < range.toNat) (h₃ : 9 ≤ ipos) (h₄ : ipos ≤ 8 * input.length) :
    Inv (decAt input low range ipos) where
  ctxWhole := by simp [CtxWhole, decAt, idle, State.resetWith, seeds, nCtx, Config.refSmall]
  lpsChecked _ := show lpsTableLegal Config.refSmall = true by decide +kernel
  encInterval := nofun
  encFinal := nofun
  encSide := nofun
  decInterval _ := ⟨h₁, h₂, h₃, h₄⟩
  decSide _ := ⟨rfl, rfl, rfl, rfl, rfl, rfl, nofun, fun _ => rfl⟩
  packerFits := ⟨show 0 < 1 by decide, rfl⟩
  idleIsReset := nofun
  errorRecord := ⟨fun _ => ⟨rfl, rfl⟩, nofun⟩

theorem refSmall_seedLegal : SeedLegal Config.refSmall 0 :=
  seedTable_isSome_iff.mp (Option.isSome_iff_exists.mp (by decide +kernel))

theorem refSmall_lpsLegal : LpsLegal Config.refSmall := lpsTableLegal_iff.mp (by decide +kernel)

/-- `REF-SMALL` with the first entry of `LPS_TABLE` 0. -/
def badLps : Config := { Config.refSmall with lpsTable := Config.refLpsTable.set 0 #v[0, 176, 208, 240] }

/-- `REF-SMALL` with an output capacity. -/
def capped (cap : Nat) (s : State) : State := { s with config := { s.config with obufCap := some cap } }

/-- With a register count, and a declared one. -/
def counted (n : BitVec 32) (s : State) : State := { s with block := { s.block with binCount := n } }

def declared (n : BitVec 32) (s : State) : State :=
  { s with block := { s.block with hasDecl := true, declCount := n } }

/-- With the first error recorded. -/
def failedAt (s : State) : State := after (.ctxSel 1 0 0) s

/-! #### Steps and encodings -/

theorem witness_StepRunsTheDecodedCommand :
    let s := present ⟨0x04000000, 0, 0, .absent⟩ encStart
    s.commands = [⟨0x04000000, 0, 0, .absent⟩] ∧ decode ⟨0x04000000, 0, 0, .absent⟩ = .ok .encFin := by decide

theorem witness_IllegalWordTakesTheError :
    let s := present ⟨0x0F000000, 0, 0, .absent⟩ encStart
    s.commands = [⟨0x0F000000, 0, 0, .absent⟩] ∧
      ([0x0F000000, 0x02010000, 0x0B000005, 0x0E000008].map fun w => decode ⟨w, 0, 0, .absent⟩) =
        [.error .badOpcode, .error .reservedBits, .error .badScheme, .error .badSelector] := by decide

theorem witness_StepWaitsWhenNothingIsPresented : encStart.commands = [] := rfl

theorem witness_PresentedTableWordRunsNext :
    decodeTableWord 96 0x0000000100000005_0B000002 = some (.binEgu 5 1) ∧ decodeTableWord 32 0x0D000000 = some .abort := by
  decide

theorem witness_DecodeOfEncodeIsTheCommand :
    (Instr.stat 7).wellFormed = true ∧ (Instr.encReg 0xFFFF 0xFFFFFFFF).wellFormed = true := by decide

theorem witness_DecodedCommandEncodesToItsWord :
    decode ⟨0x0901FF00, 0xFFFFFFFF, 3, .bytes [1]⟩ = .ok (.ctxSel 1 0xFF 0xFFFFFFFF) := by decide

theorem witness_LegalWordMatchesExactlyItsRow :
    decode ⟨0x0E000007, 0, 0, .absent⟩ = .ok (.stat 7) ∧ (opcodeRows[21]?).isSome ∧ Instr.row (.stat 7) = 21 ∧
      decode ⟨0x0E000008, 0, 0, .absent⟩ = .error .badSelector ∧ opcodeRows ≠ [] := by decide

/-- One word for each branch, at its boundaries. -/
theorem witness_IllegalWordsAreRefusedInOrder :
    ([0x00FFFFFF, 0x0FFFFFFF, 0xFF000000].map fun w => decode ⟨w, 0, 0, .absent⟩) = List.replicate 3 (.error .badOpcode) ∧
    ([0x0B00000F, 0x0E000018, 0x05000002, 0x09000001, 0x0A010000].map fun w => decode ⟨w, 0, 0, .absent⟩) =
      List.replicate 5 (.error .reservedBits) ∧
    decode ⟨0x0C000005, 0, 0, .absent⟩ = .error .badScheme ∧ decode ⟨0x0B000004, 0, 0, .absent⟩ = .ok (.binFl 0 0) ∧
    decode ⟨0x0E000008, 0, 0, .absent⟩ = .error .badSelector ∧ decode ⟨0x0E000007, 0, 0, .absent⟩ = .ok (.stat 7) ∧
    (present ⟨0x0C000005, 0, 0, .absent⟩ idle).commands = [⟨0x0C000005, 0, 0, .absent⟩] := by decide

/-- Pairs that differ in every operand their rows ignore: `ENC.FIN`, `ENC.BYP`, `DEC.INIT` without a declared count,
`DEC.INIT` with one, `BIN.U`, `DEBIN.FL`. -/
theorem witness_IgnoredOperandsHaveNoEffect :
    let agree : Command → Command → Bool := fun c d =>
      decide (c.cmd = d.cmd ∧
        (c.cmd.toNat / 2 ^ 24 ∈ [2, 3, 9, 11] → c.a = d.a) ∧
        (c.cmd.toNat / 2 ^ 24 = 5 → c.cmd.toNat % 2 = 1 → c.a = d.a) ∧
        (c.cmd.toNat / 2 ^ 24 ∈ [11, 12] → c.cmd.toNat % 8 ≠ 0 → c.b = d.b) ∧
        (c.cmd.toNat / 2 ^ 24 ∈ [5, 12] → c.list = d.list))
    agree ⟨0x04000000, 1, 2, .bytes [1]⟩ ⟨0x04000000, 3, 4, .words [2]⟩ ∧
    agree ⟨0x03000000, 1, 2, .bytes [1]⟩ ⟨0x03000000, 1, 4, .words [2]⟩ ∧
    agree ⟨0x05000000, 1, 2, .bytes [1]⟩ ⟨0x05000000, 3, 4, .bytes [1]⟩ ∧
    agree ⟨0x05000001, 1, 2, .bytes [1]⟩ ⟨0x05000001, 1, 4, .bytes [1]⟩ ∧
    agree ⟨0x0B000000, 1, 2, .bytes [1]⟩ ⟨0x0B000000, 1, 4, .absent⟩ ∧
    agree ⟨0x0C000004, 1, 2, .words [1]⟩ ⟨0x0C000004, 3, 2, .words [1]⟩ := by decide

/-! #### Responses, errors and session states -/

theorem witness_ErrorChangesOnlyTheErrorRegisters :
    isInit (.ctxRd 4) = false ∧ exec (.ctxRd 4) encStart = .next (after (.ctxRd 4) encStart) ∧
      (after (.ctxRd 4) encStart).response = raised .ctxRange ∧
      (after .encFin (failedAt encStart)).response = raised .sessionFailed ∧
      (after .encFin idle).response = raised .wrongState :=
  ⟨rfl, exec_after _ _, by decide +kernel⟩

theorem witness_FailedInitLeavesTheResetState :
    isInit (.encInit 1) = true ∧ exec (.encInit 1) encStart = .next (after (.encInit 1) encStart) ∧
      (after (.encInit 1) encStart).response = raised .noSeed :=
  ⟨rfl, exec_after _ _, by decide +kernel⟩

theorem witness_FirstErrorIsKept :
    isInit .encFin = false ∧ Instr.encFin ≠ .abort ∧ (failedAt encStart).block.errClass ≠ 0 ∧
      exec .encFin (failedAt encStart) = .next (after .encFin (failedAt encStart)) :=
  ⟨rfl, nofun, by decide +kernel, exec_after _ _⟩

/-- A completing and a failing case of each clause. -/
theorem witness_SessionStateFollowsTheTable :
    (∀ i s, exec i s = .next (after i s)) ∧
      (after .abort encStart).response = ok 0 ∧ (after (.encInit 0) (failedAt encStart)).response = ok 0 ∧
      (after (.decInit 0 none [0, 0]) encStart).response = ok 0 ∧ (after .encFin encStart).response = ok 2 ∧
      (after .decEnd (decAt [0, 0] 0 510 9)).response = ok 9 ∧ (after .decByp (decAt [0, 0] 0 510 9)).response = ok 0 ∧
      isInit .decByp = false ∧
      (after (.encInit 1) encStart).response = raised .noSeed ∧ (after .decEnd idle).response = raised .wrongState ∧
      (after .decEnd encStart).response = raised .wrongState :=
  ⟨exec_after, by decide +kernel⟩

theorem witness_CommandsOutsideTheirStatesAreRefused :
    stateCheckOf .encFin = some .encode ∧ refusedWith .encode encStart.block.sstate = none ∧
      refusedWith .encode (after .encFin encStart).block.sstate = some .afterFinalize ∧
      stateCheckOf (.ctxRd 0) = some .ctxRd ∧ refusedWith .ctxRd idle.block.sstate = some .noContext ∧
      stateCheckOf (.ctxSel 0 0 0) = some .ctxSel ∧ refusedWith .ctxSel idle.block.sstate = some .wrongState ∧
      stateCheckOf .decByp = some .decode ∧
      refusedWith .decode (failedAt encStart).block.sstate = some .sessionFailed := by decide +kernel

theorem witness_ErrorsAreThoseOfTheTable :
    Inv encStart ∧ (Instr.encReg 4 2).wellFormed = true ∧
      exec (.encReg 4 2) encStart = .next (after (.encReg 4 2) encStart) ∧
      (after (.encReg 4 2) encStart).response = raised .ctxRange :=
  ⟨encStart_inv, rfl, exec_after _ _, by decide +kernel⟩

/-! #### Starting a session -/

theorem witness_EncInitStartsASession : SeedLegal idle.config 0 ∧ LpsLegal idle.config :=
  ⟨refSmall_seedLegal, refSmall_lpsLegal⟩

/-- First bits of 0 and of 509. -/
theorem witness_DecInitStartsASession :
    SeedLegal idle.config 0 ∧ LpsLegal idle.config ∧
      2 * (0 : Byte).toNat + (0x7F : Byte).toNat / 128 < 510 ∧ 2 * (0xFE : Byte).toNat + (0x80 : Byte).toNat / 128 < 510 :=
  ⟨refSmall_seedLegal, refSmall_lpsLegal, by decide, by decide⟩

theorem witness_InitRefusesBadParameters :
    ¬ SeedLegal idle.config 7 ∧ SeedLegal badLps 0 ∧ ¬ LpsLegal badLps :=
  ⟨fun h => absurd (Option.isSome_iff_exists.mpr (seedTable_isSome_iff.mpr h)) (by decide +kernel),
    seedTable_isSome_iff.mp (Option.isSome_iff_exists.mp (by decide +kernel)),
    fun h => absurd (lpsTableLegal_iff.mpr h) (by decide +kernel)⟩

/-- Inputs of 0 and 1 bytes, and first bits of 510 and 511. -/
theorem witness_DecInitRefusesBadInput :
    SeedLegal idle.config 0 ∧ LpsLegal idle.config ∧ ([] : List Byte).length < 2 ∧ [(0xFE : Byte)].length < 2 ∧
      510 ≤ 2 * (0xFF : Byte).toNat + (0x7F : Byte).toNat / 128 ∧
      510 ≤ 2 * (0xFF : Byte).toNat + (0x80 : Byte).toNat / 128 :=
  ⟨refSmall_seedLegal, refSmall_lpsLegal, by decide, by decide, by decide, by decide⟩

theorem witness_InitForgetsTheOldSession :
    isInit (.encInit 0) = true ∧ idle.config = encStart.config ∧
      exec (.encInit 0) idle = .next (after (.encInit 0) idle) ∧
      exec (.encInit 0) encStart = .next (after (.encInit 0) encStart) :=
  ⟨rfl, rfl, exec_after _ _, exec_after _ _⟩

/-! #### The encoder -/

/-- An MPS without a doubling, and the LPS of width 2 with seven; runs that just do not pass the end of their counter:
seven iterations leave their bits pending, or the seventh settles its bit. -/
theorem witness_EncRegNarrowsTheExactInterval :
    Inv encStart ∧ Inv (encAt 257 256 0xFFFFFFF8) ∧ Inv (encAt 253 256 0xFFFFFFF9) ∧
      encStart.block.sstate = .encActive ∧ (encAt 257 256 0xFFFFFFF8).block.ctx = some seeds ∧
      seeds[0]? = some ⟨0, false⟩ ∧ seeds[3]? = some ⟨63, true⟩ ∧ encStart.block.binCount.toNat < 2 ^ 32 - 1 ∧
      doublings (510 - lpsEntry encStart.config 0 3) = 0 ∧ ¬ RunPasses 0 0 0 ∧ Room encStart.config encStart.block 0 ∧
      lpsEntry encStart.config 63 0 = 2 ∧ doublings 2 = 7 ∧
      ¬ RunPasses (encAt 257 256 0xFFFFFFF8).block.pending.toNat (257 + (256 - 2)) 7 ∧
      ¬ RunPasses (encAt 253 256 0xFFFFFFF9).block.pending.toNat (253 + (256 - 2)) 7 ∧
      Room encStart.config (encAt 257 256 0xFFFFFFF8).block 7 :=
  ⟨encStart_inv, encAt_inv _ _ _ (by decide) (by decide), encAt_inv _ _ _ (by decide) (by decide), by decide +kernel⟩

/-- The bands at 512, 511, 1023 and 1024, with and without pending bits, and at the end of their counter outside the
middle band. -/
theorem witness_EncBypSettlesOneBit :
    Inv (encAt 256 256 0) ∧ Inv (encAt 383 257 0xFFFFFFFE) ∧ Inv (encAt 127 257 0xFFFFFFFF) ∧
      Inv (encAt 512 256 0xFFFFFFFF) ∧ Inv encStart ∧ encStart.block.sstate = .encActive ∧
      encStart.block.binCount.toNat < 2 ^ 32 - 1 ∧
      2 * (256 : BitVec 10).toNat = 512 ∧ 2 * (127 : BitVec 10).toNat + (257 : BitVec 9).toNat = 511 ∧
      2 * (383 : BitVec 10).toNat + (257 : BitVec 9).toNat = 1023 ∧ 2 * (512 : BitVec 10).toNat = 1024 ∧
      (encAt 383 257 0xFFFFFFFE).block.pending.toNat < 2 ^ 32 - 1 ∧
      Room encStart.config (encAt 512 256 0xFFFFFFFF).block 1 :=
  ⟨encAt_inv _ _ _ (by decide) (by decide), encAt_inv _ _ _ (by decide) (by decide),
    encAt_inv _ _ _ (by decide) (by decide), encAt_inv _ _ _ (by decide) (by decide), encStart_inv, by decide⟩

theorem witness_EncBypHalvesTheExactInterval :
    Inv encStart ∧ exec (.encByp (bitWord true)) encStart = .next (after (.encByp (bitWord true)) encStart) ∧
      (after (.encByp (bitWord true)) encStart).response = ok 0 :=
  ⟨encStart_inv, exec_after _ _, by decide +kernel⟩

/-- Without a capacity, and with the capacity that the 16 bits just fill; runs that just do not pass the end of their
counter. -/
theorem witness_EncFinWritesTheFinalInterval :
    Inv encStart ∧ Inv (encAt 257 256 0xFFFFFFF8) ∧ Inv (encAt 253 256 0xFFFFFFF9) ∧
      encStart.block.sstate = .encActive ∧ ¬ RunPasses 0 (0 + 510 - 2) 7 ∧ encStart.config.obufCap = none ∧
      (capped 2 encStart).config.obufCap = some 2 ∧ encStart.block.position + 9 + 7 = 8 * 2 ∧
      ¬ RunPasses (encAt 257 256 0xFFFFFFF8).block.pending.toNat (257 + 256 - 2) 7 ∧
      ¬ RunPasses (encAt 253 256 0xFFFFFFF9).block.pending.toNat (253 + 256 - 2) 7 :=
  ⟨encStart_inv, encAt_inv _ _ _ (by decide) (by decide), encAt_inv _ _ _ (by decide) (by decide), by decide +kernel⟩

/-- Contexts 3 and 4, bins 1 and 2, and the end of the counter. -/
theorem witness_EncoderChecksItsOperandsInOrder :
    encStart.block.sstate = .encActive ∧ nCtx encStart.config = 4 ∧
      (after (.encReg 4 2) (counted 0xFFFFFFFF encStart)).response = raised .ctxRange ∧
      (after (.encReg 3 2) (counted 0xFFFFFFFF encStart)).response = raised .binValue ∧
      (after (.encReg 3 1) (counted 0xFFFFFFFF encStart)).response = raised .binCountOverflow ∧
      (after (.encReg 3 1) (counted 0xFFFFFFFE encStart)).response = ok 0 ∧
      (after (.encByp 2) (counted 0xFFFFFFFF encStart)).response = raised .binValue ∧
      (after (.encByp 1) (counted 0xFFFFFFFF encStart)).response = raised .binCountOverflow := by decide +kernel

/-- `ENC.FIN` at the start writes two bytes: within a capacity of 2, past one of 1. -/
theorem witness_OutputCapacityIsExact :
    (∀ s, exec .encFin s = .next (after .encFin s)) ∧ (capped 2 encStart).config.obufCap = some 2 ∧
      encStart.block.obuf.length ≤ 1 ∧
      (after .encFin { capped 2 encStart with config := { (capped 2 encStart).config with obufCap := none } }).response =
        ok 2 ∧
      (after .encFin encStart).block.obuf.length = 2 ∧ (after .encFin (capped 2 encStart)).response = ok 2 ∧
      (after .encFin (capped 1 encStart)).response = raised .outputOverflow :=
  ⟨exec_after _, by decide +kernel⟩

/-- `ENC.BYP` at both ends of its band, 512 and 1023; `ENC.REG` and `ENC.FIN` at the first of their iterations (low 256
and 511) and at the seventh (low 508, the least that leaves seven bits pending). -/
theorem witness_PendingRunIsBounded :
    let bypass := encAt 256 256 0xFFFFFFFF
    let bypass' := encAt 383 257 0xFFFFFFFF
    let first := encAt 2 256 0xFFFFFFFF
    let seventh := encAt 254 256 0xFFFFFFF9
    (Inv bypass ∧ Inv bypass' ∧ Inv first ∧ Inv seventh ∧ Inv (encAt 257 256 0xFFFFFFFF)) ∧
      bypass.block.sstate = .encActive ∧ bypass.block.binCount.toNat < 2 ^ 32 - 1 ∧
      bypass.block.pending.toNat = 2 ^ 32 - 1 ∧ bypass'.block.pending.toNat = 2 ^ 32 - 1 ∧
      2 * bypass.block.low.toNat + 0 = 512 ∧ 2 * bypass'.block.low.toNat + bypass'.block.range.toNat = 1023 ∧
      first.block.ctx = some seeds ∧ seeds[3]? = some ⟨63, true⟩ ∧ lpsEntry encStart.config 63 0 = 2 ∧ doublings 2 = 7 ∧
      RunPasses first.block.pending.toNat (2 + (256 - 2)) 7 ∧ RunPasses seventh.block.pending.toNat (254 + (256 - 2)) 7 ∧
      RunPasses first.block.pending.toNat (2 + 256 - 2) 7 ∧
      RunPasses (encAt 257 256 0xFFFFFFFF).block.pending.toNat (257 + 256 - 2) 7 ∧
      RunPasses seventh.block.pending.toNat (254 + 256 - 2) 7 :=
  ⟨⟨encAt_inv _ _ _ (by decide) (by decide), encAt_inv _ _ _ (by decide) (by decide),
    encAt_inv _ _ _ (by decide) (by decide), encAt_inv _ _ _ (by decide) (by decide),
    encAt_inv _ _ _ (by decide) (by decide)⟩, by decide +kernel⟩

/-- 43_bit_sink.md R232 on 42_encoder.md R205, by hand: the distances to 512 of the low double from 4 to
256 (from 1 to 64), so seven iterations leave their bits pending: one too many for the first run, the last seven for
the second. -/
theorem test_pending_overflow :
    (after (.encReg 3 0) (encAt 254 256 0xFFFFFFF9)).response = raised .pendingOverflow ∧
      (after .encFin (encAt 254 256 0xFFFFFFF9)).response = raised .pendingOverflow ∧
      (after (.encReg 3 0) (encAt 257 256 0xFFFFFFF8)).response = ok 0 ∧
      (after (.encReg 3 0) (encAt 257 256 0xFFFFFFF8)).block.pending = 0xFFFFFFFF := by decide +kernel

/-! #### The decoder -/

/-- P2, steps 3 and 5: an MPS and the LPS, and the last input bit. -/
theorem witness_DecRegDecodesTheBin :
    let s := decAt [0x5C, 0x7F, 0xC0] 184 270 9
    let s' := decAt [0x5C, 0x7F, 0xC0] 369 370 17
    Inv s ∧ Inv s' ∧ s.block.sstate = .decActive ∧ s.block.ctx = some seeds ∧ seeds[1]? = some ⟨10, true⟩ ∧
      s'.block.ctx = some seeds ∧ seeds[3]? = some ⟨63, true⟩ ∧ s.block.hasDecl = false ∧
      s.block.binCount.toNat < 2 ^ 32 - 1 ∧
      s.block.ipos + doublings (270 - lpsEntry s.config 10 0) ≤ 8 * s.block.ibuf.length ∧
      s'.block.ipos + doublings (lpsEntry s.config 63 1) = 8 * s'.block.ibuf.length :=
  ⟨decAt_inv _ _ _ _ (by decide) (by decide) (by decide) (by decide),
    decAt_inv _ _ _ _ (by decide) (by decide) (by decide) (by decide), rfl, rfl, rfl, rfl, rfl, rfl, by decide,
    by decide +kernel, by decide +kernel⟩

theorem witness_DecBypDecodesTheBin :
    let s := decAt [0x5C, 0x7F, 0xC0] 369 370 23
    Inv s ∧ s.block.sstate = .decActive ∧ s.block.hasDecl = false ∧ s.block.binCount.toNat < 2 ^ 32 - 1 ∧
      s.block.ipos < 8 * s.block.ibuf.length :=
  ⟨decAt_inv _ _ _ _ (by decide) (by decide) (by decide) (by decide), rfl, rfl, by decide, by decide⟩

theorem witness_DecEndAnswersTheBitsRead : (decAt [0, 0] 0 510 9).block.sstate = .decActive := rfl

/-- A declared count just reached, the end of the counter, and the end of the input, each before the next. -/
theorem witness_DecoderStopsAtItsLimits :
    let s := decAt [0, 0] 0 270 16
    Inv s ∧ s.block.sstate = .decActive ∧ s.block.ctx = some seeds ∧ seeds[3]? = some ⟨63, true⟩ ∧ nCtx s.config = 4 ∧
      (after .decByp (declared 0 s)).response = raised .pastCount ∧
      (after .decByp (counted 0xFFFFFFFF s)).response = raised .binCountOverflow ∧
      (after .decByp (declared 1 s)).response = raised .sourceExhausted ∧
      (after (.decReg 1) (declared 0 s)).response = raised .pastCount ∧
      (after (.decReg 1) (counted 0xFFFFFFFF s)).response = raised .binCountOverflow ∧
      (after (.decReg 1) s).response = raised .sourceExhausted ∧ (after (.decReg 3) s).response = ok 1 ∧
      (after (.decReg 4) s).response = raised .ctxRange :=
  ⟨decAt_inv _ _ _ _ (by decide) (by decide) (by decide) (by decide), by decide +kernel⟩

/-! #### Contexts -/

/-- Each clause: no range, no offset, the last index of a range, the first one past it. -/
theorem witness_CtxSelSelectsByTheTables :
    encStart.block.sstate = .encActive ∧ encStart.config.ctxRange.lookup (1, 0) = none ∧
      encStart.config.ctxRange.lookup (0, 0) = some (0, 4) ∧ encStart.config.ctxOffset.lookup (0, 2) = none ∧
      encStart.config.ctxOffset.lookup (0, 1) = some 2 ∧
      (encStart.config.ctxBinInc.lookup (0, 5)).getD encStart.config.ctxBinIncElse = 1 ∧
      (after (.ctxSel 0 1 5) encStart).response = ok 3 ∧
      (after (.ctxSel 0 1 5) { encStart with config := { Config.refSmall with ctxBinIncElse := 2 } }).response =
        raised .ctxOutsideRange := by decide +kernel

theorem witness_CtxRdAnswersTheEntry :
    InSession encStart.block.sstate ∧ encStart.block.ctx = some seeds ∧ seeds[3]? = some ⟨63, true⟩ ∧
      (3 : BitVec 16).toNat < nCtx encStart.config ∧ nCtx encStart.config ≤ (4 : BitVec 16).toNat := by decide

/-! #### The binarizer -/

theorem witness_BinUnaryAnswersItsCode :
    0 ≤ (0 : Word).toInt ∧ 0 ≤ (0x7FFFFFFF : Word).toInt ∧ (2 : Word).toNat < (3 : Word).toNat ∧
      ¬ (3 : Word).toNat < (3 : Word).toNat := by decide

theorem witness_BinExpGolombAnswersItsCode :
    0 ≤ (0 : Word).toInt ∧ 0 ≤ (0x7FFFFFFF : Word).toInt ∧ (0 : Word).toNat ≤ 31 ∧ (31 : Word).toNat ≤ 31 := by decide

theorem witness_BinFixedAnswersItsCode :
    0 ≤ (0 : Word).toInt ∧ (0 : Word).toNat ≤ 32 ∧ (0 : Word).toNat < 2 ^ (0 : Word).toNat ∧
      0 ≤ (0x7FFFFFFF : Word).toInt ∧ (32 : Word).toNat ≤ 32 ∧ (0x7FFFFFFF : Word).toNat < 2 ^ (32 : Word).toNat := by
  decide

/-- Each refusal at its boundary, and the value beside it that the next check takes. -/
theorem witness_BinChecksItsOperandsInOrder :
    (after (.binU 0x80000000) idle).response = raised .negValue ∧
      (after (.binTu 0xFFFFFFFF 0xFFFFFFFF) idle).response = raised .negCutoff ∧
      (after (.binTu 0xFFFFFFFF 0) idle).response = raised .negValue ∧
      (after (.binEgu 0xFFFFFFFF 32) idle).response = raised .badOrder ∧
      (after (.binEgs 0xFFFFFFFF 32) idle).response = raised .badOrder ∧
      (after (.binEgu 0xFFFFFFFF 31) idle).response = raised .negValue ∧
      (after (.binFl 0xFFFFFFFF 33) idle).response = raised .badLength ∧
      (after (.binFl 0xFFFFFFFF 32) idle).response = raised .flRange ∧
      (after (.binFl 1 0) idle).response = raised .flRange ∧ (after (.binFl 0 0) idle).response = coded [] := by
  decide +kernel

/-- The empty prefix and the largest values. -/
theorem witness_DebinCompletesOnEveryCode :
    0 ≤ 2 ^ 31 - 1 ∧ 0 ≤ (3 : Word).toInt ∧ 2 < (3 : Word).toNat ∧ (31 : Word).toNat ≤ 31 ∧
      (List.replicate 31 true).length = (31 : Word).toNat ∧
      0 * 2 ^ (31 : Word).toNat + bitsValue (List.replicate 31 true) = 2 ^ 31 - 1 ∧
      1 * 2 ^ (31 : Word).toNat + bitsValue (List.replicate 31 true) = 2 ^ 32 - 1 ∧
      (32 : Word).toNat ≤ 32 ∧ (false :: List.replicate 31 true).length = (32 : Word).toNat ∧
      bitsValue (false :: List.replicate 31 true) = 2 ^ 31 - 1 := by decide

theorem witness_DebinInvertsBin :
    (∀ i, exec i idle = .next (after i idle)) ∧ (after (.binU 3) idle).response = coded [1, 1, 1, 0] ∧
      (after (.binTu 3 3) idle).response = coded [1, 1, 1] ∧ (after (.binTu 4 3) idle).response = coded [1, 1, 1] ∧
      (after (.binEgu 3 1) idle).response = coded [1, 1, 0, 1] ∧
      (after (.binEgs 0xFFFFFFFF 0) idle).response = coded [1, 1, 0] ∧ (after (.binFl 2 3) idle).response = coded [0, 1, 0] :=
  ⟨fun i => exec_after i _, by decide +kernel⟩

theorem witness_DebinWaitsOnProperPrefixes :
    (∀ i, exec i idle = .next (after i idle)) ∧
      (after (.binU 1) idle).response = coded [1, 0] ∧ (after (.binTu 1 2) idle).response = coded [1, 0] ∧
      (after (.binEgu 0 0) idle).response = coded [1, 0] ∧ (after (.binEgs 0 0) idle).response = coded [1, 0] ∧
      (after (.binFl 2 2) idle).response = coded [1, 0] ∧ [true] <+: [true, false] ∧ [true] ≠ [true, false] ∧
      [] <+: [true, false] :=
  ⟨fun i => exec_after i _, by decide +kernel⟩

theorem witness_DebinCompletesOnlyOnCodes :
    (∀ i, exec i idle = .next (after i idle)) ∧
      (after (.debinU [1, 0]) idle).response = read 1 ∧ (after (.debinTu 1 [1]) idle).response = read 1 ∧
      (after (.debinTu 0 []) idle).response = read 0 ∧
      (after (.debinEgu 0 [1, 0]) idle).response = read 0 ∧ (after (.debinEgs 0 [1, 1, 0]) idle).response = read 0xFFFFFFFF ∧
      (after (.debinFl 2 [1, 0]) idle).response = read 2 :=
  ⟨fun i => exec_after i _, by decide +kernel⟩

theorem witness_DebinWaitsOnlyOnProperPrefixes :
    (∀ i, exec i idle = .next (after i idle)) ∧
      ([.debinU [], .debinTu 1 [], .debinEgu 0 [1], .debinEgs 0 [1], .debinFl 2 [1]].map fun i =>
        (after i idle).response) = List.replicate 5 (ok 0) :=
  ⟨fun i => exec_after i _, by decide +kernel⟩

theorem witness_DebinRefusesBinsAfterACode :
    (∀ i, exec i idle = .next (after i idle)) ∧ [false] ≠ [] ∧
      ([.debinU [1, 0], .debinTu 0 [], .debinEgu 0 [1, 0], .debinEgs 0 [1, 0], .debinFl 0 []].map fun i =>
        ((after i idle).response.map (·.r1))) = List.replicate 5 (some 1) :=
  ⟨fun i => exec_after i _, by decide, by decide +kernel⟩

theorem unary_overflow (n : Nat) (hn : 0 < n) : (∃ u, List.replicate n true <+: unaryBins u) ∧
    ¬ ∃ u ≤ n - 1, List.replicate n true <+: unaryBins u := by
  refine ⟨⟨n, [false], rfl⟩, ?_⟩
  rintro ⟨u, hu, l, hl⟩
  have h := congrArg List.length hl
  simp only [unaryBins, ones, List.length_append, List.length_replicate, List.length_cons, List.length_nil] at h
  obtain rfl : l = [] := List.length_eq_zero_iff.mp (by omega)
  have h' := congrArg List.getLast? hl
  simp [unaryBins, List.getLast?_replicate, show n ≠ 0 by omega] at h'

/-- `2^31` ones begin no unary code in range; `110` with `k = 31`, `111` with `k = 31`, and `1` as the first of 32 bins
begin no code of a value in range. -/
theorem witness_DebinRefusesValuesOutOfRange :
    ((∃ u, List.replicate (2 ^ 31) true <+: unaryBins u) ∧
      ¬ ∃ u ≤ 2 ^ 31 - 1, List.replicate (2 ^ 31) true <+: unaryBins u) ∧
    ((31 : Word).toNat ≤ 31 ∧ (∃ u, [true, true, false] <+: expGolombBins u 31) ∧
      ¬ ∃ u ≤ 2 ^ 31 - 1, [true, true, false] <+: expGolombBins u 31) ∧
    ((∃ u, [true, true, true] <+: expGolombBins u 31) ∧
      ¬ ∃ u ≤ 2 ^ 32 - 1, [true, true, true] <+: expGolombBins u 31) ∧
    ((32 : Word).toNat ≤ 32 ∧ [true].length ≤ (32 : Word).toNat ∧
      ¬ ∃ u ≤ 2 ^ 31 - 1, [true] <+: msbBits u (32 : Word).toNat) := by
  refine ⟨unary_overflow _ (by decide), ⟨by decide, ⟨2 ^ 31, ?_⟩, ?_⟩, ⟨⟨2 ^ 32, ?_⟩, ?_⟩, by decide, by decide, ?_⟩
  · exact List.isPrefixOf_iff_prefix.mp (by decide +kernel)
  · rintro ⟨u, hu, h⟩
    have e : u >>> 31 = 0 := by rw [Nat.shiftRight_eq_div_pow]; omega
    obtain ⟨l, hl⟩ := h
    simp [expGolombBins, e, ones] at hl
  · exact List.isPrefixOf_iff_prefix.mp (by decide +kernel)
  · rintro ⟨u, hu, h⟩
    have e : u >>> 31 = 0 ∨ u >>> 31 = 1 := by rw [Nat.shiftRight_eq_div_pow]; omega
    obtain ⟨l, hl⟩ := h
    rcases e with e | e <;> simp [expGolombBins, e, ones] at hl
  · rintro ⟨u, hu, l, hl⟩
    have hb : true = u.testBit 31 := (List.cons.inj (show true :: l = u.testBit 31 :: msbBits u 31 from hl)).1
    have := Nat.ge_two_pow_of_testBit hb.symm
    omega

theorem witness_DebinChecksBeforeParsing :
    (∃ w ∈ [(0 : Word), 2], 1 < w.toNat) ∧ (0x80000000 : Word).toInt < 0 ∧ 0 ≤ (0 : Word).toInt ∧ 31 < (32 : Word).toNat ∧
      (31 : Word).toNat ≤ 31 ∧ (¬ ∃ w ∈ [(0 : Word), 1], 1 < w.toNat) ∧ [(0 : Word), 1].head? = some 0 ∧
      32 < (33 : Word).toNat ∧ (32 : Word).toNat ≤ 32 :=
  ⟨⟨2, by decide, by decide⟩, by decide, by decide, by decide, by decide, by simp, rfl, by decide, by decide⟩

/-! #### Session control, and what no command changes -/

theorem witness_StatAnswersTheStatusWords : (0 : BitVec 4).toNat < 8 ∧ (7 : BitVec 4).toNat < 8 := by decide

theorem witness_ReadingCommandsWriteNoRegister :
    writesNothing (.ctxRd 0) = true ∧ exec (.ctxRd 0) encStart = .next (after (.ctxRd 0) encStart) ∧
      (after (.ctxRd 0) encStart).response = ok 0 :=
  ⟨rfl, exec_after _ _, by decide +kernel⟩

theorem witness_ContextsChangeOnlyByTheirRegularBins :
    isInit (.encReg 0 0) = false ∧ Instr.encReg 0 0 ≠ .abort ∧
      exec (.encReg 0 0) encStart = .next (after (.encReg 0 0) encStart) ∧
      (∀ ctx bin, Instr.encReg 0 0 = .encReg ctx bin → ctx.toNat ≠ 1) ∧
      (∀ ctx, Instr.encReg 0 0 = .decReg ctx → ctx.toNat ≠ 1) :=
  ⟨rfl, nofun, exec_after _ _, fun _ _ h => by cases h; decide, nofun⟩

theorem witness_OutputIsAppendOnly :
    isInit .encFin = false ∧ Instr.encFin ≠ .abort ∧ exec .encFin encStart = .next (after .encFin encStart) ∧
      isInit .decEnd = false ∧ stateCheckOf .decEnd ≠ some .encode := ⟨rfl, nofun, exec_after _ _, rfl, nofun⟩

theorem witness_InputIsReadInOrder :
    let s := decAt [0, 0] 0 510 9
    isInit .decByp = false ∧ Instr.decByp ≠ .abort ∧ exec .decByp s = .next (after .decByp s) ∧
      (after .decByp s).block.ipos ≠ s.block.ipos :=
  ⟨rfl, nofun, exec_after _ _, by decide +kernel⟩

/-! #### Headline results -/

theorem witness_StepKeepsTheInvariant :
    let s := present ⟨0x02000003, 0, 0, .absent⟩ encStart
    Inv s ∧ step s = .next (run ⟨0x02000003, 0, 0, .absent⟩ encStart) ∧
      (run ⟨0x02000003, 0, 0, .absent⟩ encStart).response = ok 0 :=
  ⟨encStart_inv.of_block rfl rfl, rfl, by decide +kernel⟩

theorem witness_BoundsChecksNeverFail :
    Inv (encAt 256 256 0xFFFFFFFF) ∧
      exec (.encByp 0) (encAt 256 256 0xFFFFFFFF) = .next (after (.encByp 0) (encAt 256 256 0xFFFFFFFF)) ∧
      (after (.encByp 0) (encAt 256 256 0xFFFFFFFF)).response = raised .pendingOverflow :=
  ⟨encAt_inv _ _ _ (by decide) (by decide), exec_after _ _, by decide +kernel⟩

/-- The states a list of commands passes through. -/
def afters : List Instr → State → List State
  | [], _ => []
  | i :: is, s => after i s :: afters is (after i s)

/-- The four bins of P1. -/
def p1 : List CodedBin := [.regular 0 false, .regular 1 true, .bypass true, .regular 3 false]

theorem witness_DecoderReturnsTheEncodedBins :
    let e0 := after (.encInit 0) idle
    let es := afters (p1.map CodedBin.encode) e0
    let ef := after .encFin (es.getLastD e0)
    perform (.encInit 0) idle = some e0 ∧ performAll (p1.map CodedBin.encode) e0 = some es ∧
      perform .encFin (es.getLastD e0) = some ef ∧ idle.config = idle.config ∧
      ef.block.obuf = [0x5C, 0x7F, 0xC0] := by decide +kernel

end Sys2Proof.Tests
end

namespace Sys2Proof.Machine

/-! ### A step, by what is fetched and how it decodes -/

theorem fetch_of_commands_cons {s : State} {c : Command} {rest : List Command} (h : s.commands = c :: rest) :
    fetch s = some (c, { s with commands := rest }) := by
  simp [fetch, h]

/-- 00_scope.md R17: the step of a legal command is the command's meaning. -/
theorem step_of_decode_ok {s t : State} {c : Command} {i : Instr} (hfetch : fetch s = some (c, t))
    (hdecode : decode c = .ok i) : step s = exec i t := by
  simp [step, hfetch, hdecode]

theorem fetch_withFetchWord (s : State) (nbits w : Nat) :
    fetch (s.withFetchWord nbits w) = some (Command.ofBits nbits w, s) :=
  fetch_present _ s

theorem decodeTableWord_eq_some_iff {nbits w : Nat} {i : Instr} :
    decodeTableWord nbits w = some i ↔ decode (Command.ofBits nbits w) = .ok i := by
  unfold decodeTableWord
  cases decode (Command.ofBits nbits w) <;> simp

/-! ### Every command is run by `execute` -/

/-- The rule that gives a command its meaning: what it does to the block, or the cause it raises. -/
def ruleOf : Instr → Config → Block → Except Cause (Block × Result)
  | .encInit mode => encInitRule mode
  | .encReg ctx bin => encRegRule ctx bin
  | .encByp bin => encBypRule bin
  | .encFin => encFinRule
  | .decInit mode declared input => decInitRule mode declared input
  | .decReg ctx => decRegRule ctx
  | .decByp => decBypRule
  | .decEnd => decEndRule
  | .ctxSel se cat binIdx => ctxSelRule se cat binIdx
  | .ctxRd ctx => ctxRdRule ctx
  | .binU value => binURule value
  | .binTu value cutoff => binTuRule value cutoff
  | .binEgu value order => binEguRule value order
  | .binEgs value order => binEgsRule value order
  | .binFl value length => binFlRule value length
  | .debinU bins => debinURule bins
  | .debinTu cutoff bins => debinTuRule cutoff bins
  | .debinEgu order bins => debinEguRule order bins
  | .debinEgs order bins => debinEgsRule order bins
  | .debinFl length bins => debinFlRule length bins
  | .abort => abortRule
  | .stat sel => statRule sel

/-- One arm of `exec` per constructor, and each is `execute` of the command's rule. -/
theorem exec_eq_execute (i : Instr) (s : State) : exec i s = execute (isInit i) (ruleOf i) s := by
  cases i <;> rfl

/-- A command either completes with what its rule gave or takes the error its rule raised; there is no other outcome. -/
theorem exec_cases (i : Instr) (s : State) :
    (∃ b r, ruleOf i s.config s.block = .ok (b, r) ∧ exec i s = .next (complete b r s)) ∨
      (∃ c, ruleOf i s.config s.block = .error c ∧ exec i s = .next (takeError (isInit i) c s)) := by
  rw [exec_eq_execute]
  rcases h : ruleOf i s.config s.block with c | ⟨b, r⟩
  · exact .inr ⟨c, rfl, execute_error h⟩
  · exact .inl ⟨b, r, rfl, execute_ok h⟩

/-! ### The obligations of 00_scope.md -/

/-- Settles O3: the first of the presented commands is fetched, and a step runs what it decodes to. -/
theorem stepRunsTheDecodedCommand : Obligations.StepRunsTheDecodedCommand := by
  unfold Obligations.StepRunsTheDecodedCommand
  intro s c rest i hcommands hdecode
  exact step_of_decode_ok (fetch_of_commands_cons hcommands) hdecode

/-- Settles O6: fetching undoes presenting, and the table's reading of a word is the decoder's. -/
theorem presentedTableWordRunsNext : Obligations.PresentedTableWordRunsNext := by
  unfold Obligations.PresentedTableWordRunsNext
  intro s nbits w i hword
  exact step_of_decode_ok (fetch_withFetchWord s nbits w) (decodeTableWord_eq_some_iff.mp hword)

/-- Settles O13: completing and taking an error both write a response, and neither writes a parameter or the commands
yet to be presented. -/
theorem everyCommandAnswers : Obligations.EveryCommandAnswers := by
  unfold Obligations.EveryCommandAnswers
  intro i s
  rcases exec_cases i s with ⟨b, r, -, hexec⟩ | ⟨c, -, hexec⟩
  · exact ⟨_, _, hexec, complete_response b r s, complete_config b r s, complete_commands b r s⟩
  · exact ⟨_, _, hexec, takeError_response _ c s, takeError_config _ c s, takeError_commands _ c s⟩

end Sys2Proof.Machine

namespace Sys2Proof.Machine

/-! ### The reset state -/

/-- Of the block, an idle session keeps the error record alone, and the invariant asks nothing of that record in `IDLE`
(60_exceptions.md R321). -/
theorem Inv.of_reset_block {s : State} {k : BitVec 4} {e : Byte}
    (h : s.block = { Block.reset with errClass := k, errCause := e }) : Inv s where
  ctxWhole := ⟨by simp [h], by simp [h]⟩
  lpsChecked := by simp [h]
  encInterval := by simp [h]
  encFinal := by simp [h]
  encSide := by simp [h]
  decInterval := by simp [h]
  decSide := by simp [h]
  packerFits := ⟨by simp [h], by simp [h]⟩
  idleIsReset := by simp [h]
  errorRecord := ⟨by simp [h], by simp [h]⟩

theorem resetWith_inv (cfg : Config) : Inv (State.resetWith cfg) := Inv.of_reset_block rfl

/-- Settles O1: every register is a field of `Block.reset`, and a context table that is not there has no entry. -/
theorem resetLeavesEveryRegisterAtItsValue : Obligations.ResetLeavesEveryRegisterAtItsValue := by
  unfold Obligations.ResetLeavesEveryRegisterAtItsValue
  have hblock : State.reset.block = Block.reset := resetWith_block _
  rw [hblock]
  have hctx : ∀ j : Nat, Block.reset.ctx.bind (·[j]?) = none := fun j => by rw [reset_ctx, Option.bind_none]
  exact ⟨reset_sstate, reset_mode, reset_errClass, reset_errCause, hctx, reset_low, reset_range, reset_pending,
    reset_first, reset_last, reset_part, reset_pcnt, reset_obuf, reset_ibuf, reset_ipos, reset_binCount, reset_hasDecl,
    reset_declCount⟩

/-- Settles O2: the reset state under the platform's parameters is one of the reset states. -/
theorem invariantHoldsAtReset : Obligations.InvariantHoldsAtReset :=
  ⟨resetWith_inv Config.platform, resetWith_inv⟩

/-! ### The status words -/

theorem toNat_append_eq {m n : Nat} (x : BitVec m) (y : BitVec n) : (x ++ y).toNat = 2 ^ n * x.toNat + y.toNat := by
  rw [BitVec.toNat_append, ← Nat.shiftLeft_add_eq_or_of_lt y.isLt, Nat.shiftLeft_eq, mul_comm]

theorem exec_stat_of_statusWord {sel : BitVec 4} {s : State} {w : Word} (h : statusWord sel s.block = some w) :
    exec (.stat sel) s = .next { s with response := some ⟨.ok, w, 0, []⟩ } := by
  rw [exec_eq_execute, execute_ok (b := s.block) (r := { r0 := w }) (by simp [ruleOf, statRule, h])]
  rfl

theorem selector_cases {sel : BitVec 4} (h : sel.toNat < 8) :
    sel = 0 ∨ sel = 1 ∨ sel = 2 ∨ sel = 3 ∨ sel = 4 ∨ sel = 5 ∨ sel = 6 ∨ sel = 7 := by
  revert sel; decide

/-- 10_state.md R48: the session state, the error record and the mode. -/
theorem statusWord_session (b : Block) : ∃ w, statusWord 0 b = some w ∧
    w.toNat = b.sstate.code.toNat + 2 ^ 4 * b.errClass.toNat + 2 ^ 8 * b.errCause.toNat + 2 ^ 16 * b.mode.toNat := by
  refine ⟨_, rfl, (toNat_append_eq _ _).trans ?_⟩
  simp only [toNat_append_eq, BitVec.toNat_ofNat]
  omega

/-- 10_state.md R49: the interval. -/
theorem statusWord_interval (b : Block) : ∃ w, statusWord 4 b = some w ∧
    w.toNat = b.range.toNat + 2 ^ 16 * b.low.toNat := by
  refine ⟨_, rfl, (toNat_append_eq _ _).trans ?_⟩
  simp only [toNat_append_eq, BitVec.toNat_ofNat]
  omega

/-- 10_state.md R49: the packer and the declaration. -/
theorem statusWord_packer (b : Block) : ∃ w, statusWord 6 b = some w ∧
    w.toNat = b.pcnt.toNat + 2 ^ 8 * b.part.toNat + 2 ^ 16 * b.first.toNat + 2 ^ 17 * b.last.toNat +
      2 ^ 18 * b.hasDecl.toNat := by
  refine ⟨_, rfl, (toNat_append_eq _ _).trans ?_⟩
  simp only [toNat_append_eq, BitVec.toNat_ofNat, BitVec.toNat_ofBool]
  omega

/-- Settles O51: the word of each of the eight selectors, put together from its fields. -/
theorem statAnswersTheStatusWords : Obligations.StatAnswersTheStatusWords := by
  unfold Obligations.StatAnswersTheStatusWords
  intro s sel hsel
  rcases selector_cases hsel with rfl | rfl | rfl | rfl | rfl | rfl | rfl | rfl
  · obtain ⟨w, hw, hval⟩ := statusWord_session s.block
    refine ⟨w, exec_stat_of_statusWord hw, ?_⟩
    rw [hval]
    cases s.block.sstate <;> simp [SessionState.code]
  · exact ⟨_, exec_stat_of_statusWord rfl, by simp⟩
  · exact ⟨_, exec_stat_of_statusWord rfl, by simp⟩
  · exact ⟨_, exec_stat_of_statusWord rfl, by simp⟩
  · obtain ⟨w, hw, hval⟩ := statusWord_interval s.block
    exact ⟨w, exec_stat_of_statusWord hw, by simp [hval]⟩
  · exact ⟨_, exec_stat_of_statusWord rfl, by simp⟩
  · obtain ⟨w, hw, hval⟩ := statusWord_packer s.block
    exact ⟨w, exec_stat_of_statusWord hw, by simp [hval]⟩
  · exact ⟨_, exec_stat_of_statusWord rfl, by simp⟩

/-! ### Which causes an operation raises

`Raises l x` bounds the causes of `x` by the list `l`. It goes through a sequence of operations, so the causes of a rule
are read off those of its parts. -/

/-- If `x` fails, it is with a cause of `l`. -/
def Raises {α : Type} (l : List Cause) (x : Except Cause α) : Prop := ∀ c, x = .error c → c ∈ l

theorem Raises.ok {α : Type} {l : List Cause} (a : α) : Raises l (.ok a) := nofun

theorem Raises.error {α : Type} {l : List Cause} {c : Cause} (h : c ∈ l) : Raises l (.error c : Except Cause α) := by
  rintro _ ⟨⟩
  exact h

theorem Raises.mono {α : Type} {l m : List Cause} {x : Except Cause α} (h : Raises l x) (hlm : l ⊆ m) : Raises m x :=
  fun c hc => hlm (h c hc)

theorem Raises.bind {α β : Type} {l : List Cause} {x : Except Cause α} {f : α → Except Cause β} (hx : Raises l x)
    (hf : ∀ a, x = .ok a → Raises l (f a)) : Raises l (x >>= f) := by
  intro c hc
  rcases bind_error_iff.mp hc with hc | ⟨a, ha, hc⟩
  · exact hx c hc
  · exact hf a ha c hc

theorem Raises.ite {α : Type} {l : List Cause} {p : Prop} [Decidable p] {x y : Except Cause α}
    (hx : p → Raises l x) (hy : ¬ p → Raises l y) : Raises l (if p then x else y) := by
  split
  · exact hx ‹_›
  · exact hy ‹_›

/-! #### The operands and the checks -/

theorem valueOperand_raises {l : List Cause} (h : .negValue ∈ l) (a : Word) : Raises l (valueOperand a) :=
  .ite (fun _ => .error h) fun _ => .ok _

theorem cutoffOperand_raises {l : List Cause} (h : .negCutoff ∈ l) (b : Word) : Raises l (cutoffOperand b) :=
  .ite (fun _ => .error h) fun _ => .ok _

theorem orderOperand_raises {l : List Cause} (h : .badOrder ∈ l) (b : Word) : Raises l (orderOperand b) :=
  .ite (fun _ => .error h) fun _ => .ok _

theorem lengthOperand_raises {l : List Cause} (h : .badLength ∈ l) (b : Word) : Raises l (lengthOperand b) :=
  .ite (fun _ => .error h) fun _ => .ok _

theorem flValueOperand_raises {l : List Cause} (h : .flRange ∈ l) (a : Word) (len : Nat) :
    Raises l (flValueOperand a len) :=
  .ite (fun _ => .error h) fun _ => .ite (fun _ => .error h) fun _ => .ok _

theorem binOperand_raises {l : List Cause} (h : .binValue ∈ l) (a : Word) : Raises l (binOperand a) :=
  .ite (fun _ => .error h) fun _ => .ok _

theorem checkBins_raises {l : List Cause} (h : .binValue ∈ l) (ws : List Word) : Raises l (checkBins ws) :=
  .ite (fun _ => .ok _) fun _ => .error h

theorem checkCtxIndex_raises {l : List Cause} (h : .ctxRange ∈ l) (cfg : Config) (i : BitVec 16) :
    Raises l (checkCtxIndex cfg i) :=
  .ite (fun _ => .error h) fun _ => .ok _

theorem checkDeclared_raises {l : List Cause} (h : .pastCount ∈ l) (b : Block) : Raises l (checkDeclared b) :=
  .ite (fun _ => .error h) fun _ => .ok _

theorem countBin_raises {l : List Cause} (h : .binCountOverflow ∈ l) (b : Block) : Raises l (countBin b) :=
  .ite (fun _ => .error h) fun _ => .ok _

theorem checkState_raises {l : List Cause} {k : Checked} (h : stateCauses k ⊆ l) (b : Block) :
    Raises l (checkState k b) := by
  refine Raises.mono (fun c hc => ?_) h
  rw [checkState_eq] at hc
  cases k <;> cases hb : b.sstate <;> simp_all [refusedWith, stateCauses]

theorem writeBit_raises {l : List Cause} (h : .outputOverflow ∈ l) (cfg : Config) (bit : Bit) (b : Block) :
    Raises l (writeBit cfg bit b) := by
  intro c hc
  rwa [(writeBit_error hc).1]

theorem putBit_raises {l : List Cause} (h : .outputOverflow ∈ l) (cfg : Config) (bit : Bit) (b : Block) :
    Raises l (putBit cfg bit b) := by
  intro c hc
  rwa [putBit_error hc]

theorem padByte_raises {l : List Cause} (h : .outputOverflow ∈ l) (cfg : Config) (n : Nat) (b : Block) :
    Raises l (padByte cfg n b) := by
  induction n generalizing b with
  | zero => exact .ok b
  | succ n ih =>
    unfold padByte
    refine .ite (fun _ => .ok b) fun _ => ?_
    cases hw : writeBit cfg false b with
    | error c => exact .error (writeBit_raises h cfg false b c hw)
    | ok b' => exact ih b'

theorem readBits_raises {l : List Cause} (h : .sourceExhausted ∈ l) (n v : Nat) (b : Block) :
    Raises l (readBits n v b) := by
  intro c hc
  rwa [(readBits_error hc).1]

theorem seedContexts_raises {l : List Cause} (h₁ : .noSeed ∈ l) (h₂ : .badLpsTable ∈ l) (cfg : Config) (mode : Byte)
    (b : Block) : Raises l (seedContexts cfg mode b) := by
  rcases seedContexts_cases cfg mode b with ⟨-, h⟩ | ⟨-, -, h⟩ | ⟨-, -, t, -, h⟩ <;> rw [h]
  · exact .error h₁
  · exact .error h₂
  · exact .ok _

/-! #### The parsers of `DEBIN.*` -/

theorem parseUnary_raises (bins : List Bit) : Raises [.debinExtra, .debinOverflow] (parseUnary bins) := by
  unfold parseUnary
  split
  · exact .ite (fun _ => .error (by simp)) fun _ => .ok _
  · exact .ite (fun _ => .error (by simp)) fun _ => .ite (fun _ => .error (by simp)) fun _ => .ok _

theorem parseTruncated_raises (c : Nat) (bins : List Bit) : Raises [.debinExtra] (parseTruncated c bins) := by
  unfold parseTruncated
  split
  · exact .ite (fun _ => .error (by simp)) fun _ => .ok _
  · exact .ite (fun _ => .ok _) fun _ => .ite (fun _ => .error (by simp)) fun _ => .ok _

theorem parseExpGolomb_raises (bins : List Bit) (k maxV : Nat) :
    Raises [.debinMalformed, .debinExtra, .debinOverflow] (parseExpGolomb bins k maxV) := by
  unfold parseExpGolomb
  split
  · exact .ok _
  · exact .error (by simp)
  · refine .ite (fun _ => .ite (fun _ => .error (by simp)) fun _ => .ok _) fun _ => ?_
    exact .ite (fun _ => .error (by simp)) fun _ => .ite (fun _ => .error (by simp)) fun _ =>
      .ite (fun _ => .ok _) fun _ => .ok _

theorem parseFixed_raises (len : Nat) (bins : List Bit) :
    Raises [.debinExtra, .debinOverflow] (parseFixed len bins) :=
  .ite (fun _ => .error (by simp)) fun _ => .ite (fun _ => .error (by simp)) fun _ =>
    .ite (fun _ => .ok _) fun _ => .ok _

/-! ### The two commands that start a session -/

/-- `ENC.INIT` after the seeding: its two assignments are of values that fit (42_encoder.md R200, R201). -/
theorem encInitRule_eq (mode : Byte) (cfg : Config) (b : Block) :
    encInitRule mode cfg b = (seedContexts cfg mode Block.reset >>= fun b =>
      .ok ({ b with low := 0, range := 510, first := true, sstate := .encActive }, {})) := rfl

theorem decInitRule_eq (mode : Byte) (declared : Option Word) (input : List Byte) (cfg : Config) (b : Block) :
    decInitRule mode declared input cfg b = (seedContexts cfg mode Block.reset >>= fun b =>
      readBits 9 0 { b with ibuf := input, ipos := 0, range := 510 } >>= fun p =>
        if 510 ≤ p.1 then .error .badInitOffset
        else .ok ({ p.2 with
          low := BitVec.ofNat 10 p.1, hasDecl := declared.isSome, declCount := declared.getD 0, sstate := .decActive },
          {})) := by
  unfold decInitRule
  refine congrArg (seedContexts cfg mode Block.reset >>= ·) (funext fun b => ?_)
  refine congrArg (readBits 9 0 { b with ibuf := input, ipos := 0, range := 510 } >>= ·) (funext fun p => ?_)
  dsimp only
  split
  · rfl
  · rw [writeLow_ok (by omega), ok_bind]

theorem encInitRule_raises (mode : Byte) (cfg : Config) (b : Block) :
    Raises (errorsOf (.encInit mode)) (encInitRule mode cfg b) := by
  rw [encInitRule_eq]
  exact (seedContexts_raises (by simp [errorsOf]) (by simp [errorsOf]) _ _ _).bind fun _ _ => .ok _

theorem decInitRule_raises (mode : Byte) (declared : Option Word) (input : List Byte) (cfg : Config) (b : Block) :
    Raises (errorsOf (.decInit mode declared input)) (decInitRule mode declared input cfg b) := by
  rw [decInitRule_eq]
  exact (seedContexts_raises (by simp [errorsOf]) (by simp [errorsOf]) _ _ _).bind fun _ _ =>
    (readBits_raises (by simp [errorsOf]) _ _ _).bind fun _ _ =>
      .ite (fun _ => .error (by simp [errorsOf])) fun _ => .ok _

/-- `ENC.INIT` and `DEC.INIT` begin with the reset, so their rules do not look at the block. -/
theorem ruleOf_init_congr {i : Instr} (hi : isInit i = true) (cfg : Config) (b b' : Block) :
    ruleOf i cfg b = ruleOf i cfg b' := by
  cases i with
  | encInit mode => exact (encInitRule_eq mode cfg b).trans (encInitRule_eq mode cfg b').symm
  | decInit mode declared input =>
    exact (decInitRule_eq mode declared input cfg b).trans (decInitRule_eq mode declared input cfg b').symm
  | _ => cases hi

theorem ruleOf_init_error {i : Instr} {cfg : Config} {b : Block} {c : Cause} (hi : isInit i = true)
    (h : ruleOf i cfg b = .error c) : c.errorClass ≠ .illegalCommand := by
  cases i with
  | encInit mode =>
    have hc := encInitRule_raises mode cfg b c h
    simp only [errorsOf, List.mem_cons, List.not_mem_nil, or_false] at hc
    rcases hc with rfl | rfl <;> decide
  | decInit mode declared input =>
    have hc := decInitRule_raises mode declared input cfg b c h
    simp only [errorsOf, List.mem_cons, List.not_mem_nil, or_false] at hc
    rcases hc with rfl | rfl | rfl | rfl <;> decide
  | _ => cases hi

/-- Settles O24: the rule gives the same from both blocks, and a failed `INIT` leaves the reset block with the error. -/
theorem initForgetsTheOldSession : Obligations.InitForgetsTheOldSession := by
  unfold Obligations.InitForgetsTheOldSession
  intro i s s' t t' hi hconfig ht ht'
  have hrule : ruleOf i s.config s.block = ruleOf i s'.config s'.block := by
    rw [hconfig]
    exact ruleOf_init_congr hi _ _ _
  rw [exec_eq_execute] at ht ht'
  rcases h : ruleOf i s.config s.block with c | ⟨b, r⟩
  · have h' := hrule.symm.trans h
    rw [execute_error h] at ht
    rw [execute_error h'] at ht'
    cases ht
    cases ht'
    simp [hi, errorEntry_init c _ (ruleOf_init_error hi h)]
  · have h' := hrule.symm.trans h
    rw [execute_ok h] at ht
    rw [execute_ok h'] at ht'
    cases ht
    cases ht'
    simp

/-! ### The invariant, session by session

`Inv` says for each session state what holds in it. The structures below put together what it says of an encode and of
a decode session, so that a rule is followed from one to the next. -/

/-- The context table is there and whole (10_state.md R36). -/
def TableWhole (cfg : Config) (b : Block) : Prop := ∃ t, b.ctx = some t ∧ t.length = nCtx cfg

/-- The completed bytes are within the capacity (10_state.md R43). -/
def WithinCap (cfg : Config) (b : Block) : Prop := ∀ cap, cfg.obufCap = some cap → b.obuf.length ≤ cap

/-- What every started session has: its table, a checked LPS table, no error recorded, the output within its
capacity. -/
structure Opened (cfg : Config) (b : Block) : Prop where
  table : TableWhole cfg b
  lps : LpsLegal cfg
  errClass : b.errClass = 0
  errCause : b.errCause = 0
  cap : WithinCap cfg b

/-- What holds in an encode session beside the interval: `LAST` is the last bit, and the decoder's registers are at
reset (10_state.md R41, R44, R46). -/
structure EncodeSide (b : Block) : Prop where
  last : b.last = b.bits.getLastD false
  ibuf : b.ibuf = []
  ipos : b.ipos = 0
  hasDecl : b.hasDecl = false
  declCount : b.declCount = 0

/-- The block of a state of the invariant in `ENC_ACTIVE`. -/
structure Encoding (cfg : Config) (b : Block) : Prop where
  opened : Opened cfg b
  side : EncodeSide b
  coding : Coding b
  range_ge : 256 ≤ b.range.toNat

/-- The interval and the place in the input of a decode session (10_state.md R53, 44_decoder.md R262). -/
structure Offset (b : Block) : Prop where
  range_ge : 256 ≤ b.range.toNat
  low_lt : b.low.toNat < b.range.toNat
  ipos_ge : 9 ≤ b.ipos
  ipos_le : b.ipos ≤ 8 * b.ibuf.length

/-- What holds in a decode session beside the interval: the packer is at reset, and a declared count is not passed
(44_decoder.md R267). -/
structure DecodeSide (b : Block) : Prop where
  pending : b.pending = 0
  first : b.first = false
  last : b.last = false
  part : b.part = 0
  pcnt : b.pcnt = 0
  obuf : b.obuf = []
  declared : b.hasDecl = true → b.binCount.toNat ≤ b.declCount.toNat
  undeclared : b.hasDecl = false → b.declCount = 0

/-- The block of a state of the invariant in `DEC_ACTIVE` and in `DEC_ENDED`. -/
structure Decoding (cfg : Config) (b : Block) : Prop where
  opened : Opened cfg b
  offset : Offset b
  side : DecodeSide b

theorem withinCap_iff {cfg : Config} {b : Block} :
    WithinCap cfg b ↔ (cfg.obufCap.all fun cap => decide (b.obuf.length ≤ cap)) = true := by
  unfold WithinCap
  cases cfg.obufCap <;> simp

theorem Inv.opened {s : State} (h : Inv s) (hs : InSession s.block.sstate) : Opened s.config s.block := by
  have hne : s.block.sstate ≠ .idle := by
    rcases hs with hs | hs | hs | hs <;> simp [hs]
  obtain ⟨t, ht⟩ := Option.ne_none_iff_exists'.mp (h.ctxWhole.2 hne)
  have hlen := h.ctxWhole.1
  rw [ht] at hlen
  obtain ⟨hclass, hcause⟩ := h.errorRecord.1 hs
  exact ⟨⟨t, ht, by simpa using hlen⟩, lpsTableLegal_iff.mp (h.lpsChecked hne), hclass, hcause,
    withinCap_iff.mpr h.packerFits.2⟩

theorem Inv.encoding {s : State} (h : Inv s) (hs : s.block.sstate = .encActive) : Encoding s.config s.block := by
  obtain ⟨hrange, hscale, hstart, hinside⟩ := h.encInterval hs
  obtain ⟨hlast, hibuf, hipos, hhas, hdecl⟩ := h.encSide (.inl hs)
  exact ⟨h.opened (.inl hs), ⟨hlast, hibuf, hipos, hhas, hdecl⟩,
    ⟨h.packerFits.1, by omega, hscale, hstart, hinside⟩, hrange⟩

theorem Inv.decoding {s : State} (h : Inv s) (hs : s.block.sstate = .decActive) : Decoding s.config s.block := by
  obtain ⟨hrange, hlow, hge, hle⟩ := h.decInterval (.inl hs)
  obtain ⟨hpending, hfirst, hlast, hpart, hpcnt, hobuf, hcount, hnone⟩ := h.decSide (.inl hs)
  exact ⟨h.opened (.inr (.inr (.inl hs))), ⟨hrange, hlow, hge, hle⟩,
    ⟨hpending, hfirst, hlast, hpart, hpcnt, hobuf, hcount, hnone⟩⟩

theorem Opened.ctxWhole {s : State} (h : Opened s.config s.block) : CtxWhole s := by
  obtain ⟨t, ht, hlen⟩ := h.table
  exact ⟨by simp [ht, hlen], by simp [ht]⟩

theorem Opened.errorRecord {s : State} (h : Opened s.config s.block) (hs : InSession s.block.sstate) :
    ErrorRecord s :=
  ⟨fun _ => ⟨h.errClass, h.errCause⟩, fun hf => by simp [InSession, hf] at hs⟩

theorem Encoding.inv {s : State} (h : Encoding s.config s.block) (hs : s.block.sstate = .encActive) : Inv s where
  ctxWhole := h.opened.ctxWhole
  lpsChecked := fun _ => lpsTableLegal_iff.mpr h.opened.lps
  encInterval := fun _ => ⟨h.range_ge, h.coding.scale, h.coding.start, h.coding.inside⟩
  encFinal := by simp [hs]
  encSide := fun _ => ⟨h.side.last, h.side.ibuf, h.side.ipos, h.side.hasDecl, h.side.declCount⟩
  decInterval := by simp [hs]
  decSide := by simp [hs]
  packerFits := ⟨h.coding.fits, withinCap_iff.mp h.opened.cap⟩
  idleIsReset := by simp [hs]
  errorRecord := h.opened.errorRecord (.inl hs)

/-- After `ENC.FIN` (43_bit_sink.md R235): the range of the final interval, and a packer with no bit left in it. -/
theorem inv_of_flushed {s : State} (h : Opened s.config s.block) (hside : EncodeSide s.block)
    (hs : s.block.sstate = .encFinal) (hrange : s.block.range = 256) (hlow : s.block.low.toNat ≤ 768)
    (hpending : s.block.pending = 0) (hfirst : s.block.first = false) (hpart : s.block.part = 0)
    (hpcnt : s.block.pcnt = 0) : Inv s where
  ctxWhole := h.ctxWhole
  lpsChecked := fun _ => lpsTableLegal_iff.mpr h.lps
  encInterval := by simp [hs]
  encFinal := fun _ => ⟨hrange, hlow, hpending, hfirst, hpart, hpcnt⟩
  encSide := fun _ => ⟨hside.last, hside.ibuf, hside.ipos, hside.hasDecl, hside.declCount⟩
  decInterval := by simp [hs]
  decSide := by simp [hs]
  packerFits := ⟨by simp [hpart], withinCap_iff.mp h.cap⟩
  idleIsReset := by simp [hs]
  errorRecord := h.errorRecord (.inr (.inl hs))

theorem Decoding.inv {s : State} (h : Decoding s.config s.block)
    (hs : s.block.sstate = .decActive ∨ s.block.sstate = .decEnded) : Inv s where
  ctxWhole := h.opened.ctxWhole
  lpsChecked := fun _ => lpsTableLegal_iff.mpr h.opened.lps
  encInterval := by rcases hs with hs | hs <;> simp [hs]
  encFinal := by rcases hs with hs | hs <;> simp [hs]
  encSide := by rcases hs with hs | hs <;> simp [hs]
  decInterval := fun _ => ⟨h.offset.range_ge, h.offset.low_lt, h.offset.ipos_ge, h.offset.ipos_le⟩
  decSide := fun _ => ⟨h.side.pending, h.side.first, h.side.last, h.side.part, h.side.pcnt, h.side.obuf,
    h.side.declared, h.side.undeclared⟩
  packerFits := ⟨by simp [h.side.part], withinCap_iff.mp h.opened.cap⟩
  idleIsReset := by rcases hs with hs | hs <;> simp [hs]
  errorRecord := h.opened.errorRecord (by tauto)

theorem inv_of_failed {s : State} (hs : s.block.sstate = .failed) (hctx : CtxWhole s) (hlps : LpsChecked s)
    (hfits : PackerFits s) (herr : s.block.errClass ≠ 0) : Inv s where
  ctxWhole := hctx
  lpsChecked := hlps
  encInterval := by simp [hs]
  encFinal := by simp [hs]
  encSide := by simp [hs]
  decInterval := by simp [hs]
  decSide := by simp [hs]
  packerFits := hfits
  idleIsReset := by simp [hs]
  errorRecord := ⟨by simp [hs], fun _ => herr⟩

/-! ### An error keeps the invariant -/

/-- An error of a running session writes the error record and `FAILED`, of which the invariant asks only that the record
shows; in `IDLE` it writes the record alone (60_exceptions.md R318). -/
theorem Inv.takeError_running {s : State} (h : Inv s) (c : Cause) : Inv (takeError false c s) := by
  have hb : (takeError false c s).block = _ := errorEntry_running c s.block
  by_cases hidle : s.block.sstate = .idle
  · rw [h.idleIsReset hidle] at hb
    exact Inv.of_reset_block hb
  · have hs : (takeError false c s).block.sstate = .failed := by rw [hb]; simp [hidle]
    refine inv_of_failed hs ⟨?_, ?_⟩ (fun _ => h.lpsChecked hidle) ?_ ?_
    · rw [hb]; exact h.ctxWhole.1
    · rw [hb]; exact fun _ => h.ctxWhole.2 hidle
    · unfold PackerFits; rw [hb]; exact h.packerFits
    · rw [hb]
      dsimp only
      split
      · exact errorClass_code_ne_zero _
      · assumption

/-- An error keeps the invariant, whatever its cause: a failed `INIT` leaves a reset state with the error in it, and any
other error is one of a running session (60_exceptions.md R318, R321). -/
theorem Inv.takeError {s : State} (h : Inv s) (init : Bool) (c : Cause) : Inv (takeError init c s) := by
  by_cases hreset : init = true ∧ c.errorClass ≠ .illegalCommand
  · obtain ⟨rfl, hc⟩ := hreset
    exact Inv.of_reset_block (errorEntry_init c s.block hc)
  · have hrun : Machine.takeError init c s = Machine.takeError false c s := by
      simp only [Machine.takeError, errorEntry, if_neg hreset]
      simp
    rw [hrun]
    exact h.takeError_running c

/-! ### The state check lets a command through in its states only -/

theorem sstate_of_checkState_encode {b : Block} {u : Unit} (h : checkState .encode b = .ok u) :
    b.sstate = .encActive := by
  rw [checkState_eq] at h
  cases hs : b.sstate <;> simp_all [refusedWith]

theorem sstate_of_checkState_decode {b : Block} {u : Unit} (h : checkState .decode b = .ok u) :
    b.sstate = .decActive := by
  rw [checkState_eq] at h
  cases hs : b.sstate <;> simp_all [refusedWith]

theorem inSession_of_checkState_ctxRd {b : Block} {u : Unit} (h : checkState .ctxRd b = .ok u) :
    InSession b.sstate := by
  rw [checkState_eq] at h
  cases hs : b.sstate <;> simp_all [refusedWith, InSession]

/-! ### The context table in a session -/

theorem TableWhole.readCtx {cfg : Config} {b : Block} {i : BitVec 16} (h : TableWhole cfg b) (hi : i.toNat < nCtx cfg) :
    ∃ c, readCtx i b = .ok c := by
  obtain ⟨t, ht, hlen⟩ := h
  exact ⟨t[i.toNat]'(by omega), readCtx_ok_iff.mpr ⟨t, ht, List.getElem?_eq_getElem _⟩⟩

theorem TableWhole.updateContext {cfg : Config} {b : Block} {i : BitVec 16} (h : TableWhole cfg b)
    (hi : i.toNat < nCtx cfg) (bin : Bit) :
    ∃ t, t.length = nCtx cfg ∧ updateContext cfg i bin b = .ok { b with ctx := some t } := by
  obtain ⟨c, hc⟩ := h.readCtx hi
  obtain ⟨t, ht, hlen⟩ := h
  obtain ⟨t', ht', hget⟩ := readCtx_ok_iff.mp hc
  refine ⟨t'.set i.toNat (adapt cfg c bin), ?_, updateContext_ok_iff.mpr ⟨t', c, ht', hget, rfl⟩⟩
  rw [ht] at ht'
  cases ht'
  simpa using hlen

/-! ### The packer's operations stay within the capacity -/

theorem WithinCap.of_obuf {cfg : Config} {b b' : Block} (h : WithinCap cfg b) (ho : b'.obuf = b.obuf) :
    WithinCap cfg b' := by
  unfold WithinCap
  rwa [ho]

theorem WithinCap.writeBit {cfg : Config} {bit : Bit} {b b' : Block} (h : WithinCap cfg b)
    (hw : writeBit cfg bit b = .ok b') : WithinCap cfg b' := by
  unfold Machine.writeBit at hw
  simp only at hw
  split at hw
  · split at hw
    · cases hw
    · rename_i hfull
      cases hw
      intro cap hcap
      have hle := h cap hcap
      have hne : cap ≠ b.obuf.length := fun he => hfull (he ▸ hcap)
      simp only [List.length_append, List.length_singleton]
      omega
  · cases hw
    exact h

theorem WithinCap.writePending {cfg : Config} {bit : Bit} {n : Nat} {b b' : Block} (h : WithinCap cfg b)
    (hw : writePending cfg bit n b = .ok b') : WithinCap cfg b' := by
  induction n generalizing b with
  | zero => cases hw; exact h
  | succ n ih =>
    unfold Machine.writePending at hw
    split at hw
    · cases hw
    · rename_i c hc
      have hcap : WithinCap cfg { c with pending := c.pending - 1 } := (h.writeBit hc).of_obuf rfl
      exact ih hcap hw

theorem WithinCap.putBit {cfg : Config} {bit : Bit} {b b' : Block} (h : WithinCap cfg b)
    (hw : putBit cfg bit b = .ok b') : WithinCap cfg b' := by
  rw [putBit_eq] at hw
  obtain ⟨c, hc, hw⟩ := bind_ok_iff.mp hw
  refine WithinCap.writePending ?_ hw
  split at hc
  · cases hc; exact h
  · exact h.writeBit hc

theorem WithinCap.padByte {cfg : Config} {n : Nat} {b b' : Block} (h : WithinCap cfg b)
    (hw : padByte cfg n b = .ok b') : WithinCap cfg b' := by
  induction n generalizing b with
  | zero => cases hw; exact h
  | succ n ih =>
    unfold Machine.padByte at hw
    split at hw
    · cases hw; exact h
    · split at hw
      · cases hw
      · rename_i c hc
        exact ih (h.writeBit hc) hw

theorem writeLow_obuf {v : Int} {b b' : Block} (h : writeLow v b = .ok b') : b'.obuf = b.obuf := by
  obtain ⟨-, -, rfl⟩ := writeLow_cases h
  rfl

theorem writeRange_obuf {v : Int} {b b' : Block} (h : writeRange v b = .ok b') : b'.obuf = b.obuf := by
  obtain ⟨-, -, rfl⟩ := writeRange_cases h
  rfl

theorem incPending_obuf {b b' : Block} (h : incPending b = .ok b') : b'.obuf = b.obuf := by
  obtain ⟨rfl, -⟩ := incPending_ok h
  rfl

theorem WithinCap.renormBit {cfg : Config} {b b' : Block} (h : WithinCap cfg b) (hw : renormBit cfg b = .ok b') :
    WithinCap cfg b' := by
  unfold Machine.renormBit at hw
  split at hw
  · exact h.putBit hw
  · split at hw
    · obtain ⟨c, hc, hw⟩ := bind_ok_iff.mp hw
      exact (h.of_obuf (writeLow_obuf hc)).putBit hw
    · obtain ⟨c, hc, hw⟩ := bind_ok_iff.mp hw
      exact (h.of_obuf (writeLow_obuf hc)).of_obuf (incPending_obuf hw)

theorem WithinCap.renormE {cfg : Config} {n : Nat} {b b' : Block} (h : WithinCap cfg b)
    (hw : renormE cfg n b = .ok b') : WithinCap cfg b' := by
  induction n generalizing b with
  | zero =>
    unfold Machine.renormE at hw
    split at hw
    · cases hw; exact h
    · cases hw
  | succ n ih =>
    unfold Machine.renormE at hw
    split at hw
    · cases hw; exact h
    · obtain ⟨b₁, h₁, hw⟩ := bind_ok_iff.mp hw
      obtain ⟨b₂, h₂, hw⟩ := bind_ok_iff.mp hw
      obtain ⟨b₃, h₃, hw⟩ := bind_ok_iff.mp hw
      exact ih (((h.renormBit h₁).of_obuf (writeRange_obuf h₂)).of_obuf (writeLow_obuf h₃)) hw

theorem WithinCap.encodeBypass {cfg : Config} {bin : Bit} {b b' : Block} (h : WithinCap cfg b)
    (hw : encodeBypass cfg bin b = .ok b') : WithinCap cfg b' := by
  unfold Machine.encodeBypass at hw
  generalize 2 * b.low.toNat + (if bin then b.range.toNat else 0) = v at hw
  dsimp only at hw
  split at hw
  · obtain ⟨c, hc, hw⟩ := bind_ok_iff.mp hw
    exact (h.of_obuf (writeLow_obuf hc)).putBit hw
  · split at hw
    · obtain ⟨c, hc, hw⟩ := bind_ok_iff.mp hw
      exact (h.of_obuf (writeLow_obuf hc)).putBit hw
    · obtain ⟨c, hc, hw⟩ := bind_ok_iff.mp hw
      exact (h.of_obuf (writeLow_obuf hc)).of_obuf (incPending_obuf hw)

/-! ### What the encoder's operations keep of the session -/

/-- From `b` to `b'` bits have been written and registers of the encoder, nothing else. -/
structure Emits (cfg : Config) (b b' : Block) : Prop where
  packed : ∃ l, b'.bits = b.bits ++ l ∧ b'.last = l.getLastD b.last
  cap : WithinCap cfg b → WithinCap cfg b'
  table : TableWhole cfg b → TableWhole cfg b'
  frame : b' = { b with
    ctx := b'.ctx, low := b'.low, range := b'.range, pending := b'.pending, first := b'.first, last := b'.last,
    part := b'.part, pcnt := b'.pcnt, obuf := b'.obuf, binCount := b'.binCount }

theorem Emits.trans {cfg : Config} {b b' b'' : Block} (h : Emits cfg b b') (g : Emits cfg b' b'') :
    Emits cfg b b'' where
  packed := by
    obtain ⟨l, hb, hl⟩ := h.packed
    obtain ⟨m, gb, gl⟩ := g.packed
    exact ⟨l ++ m, by rw [gb, hb, List.append_assoc], by rw [gl, hl, getLastD_append]⟩
  cap := g.cap ∘ h.cap
  table := g.table ∘ h.table
  frame := by rw [g.frame, h.frame]

/-- Registers of the encoder written, and no bit. -/
theorem Emits.registers {cfg : Config} (b : Block) (low : BitVec 10) (range : BitVec 9) (pending : BitVec 32)
    (first : Bit) (binCount : BitVec 32) :
    Emits cfg b { b with low := low, range := range, pending := pending, first := first, binCount := binCount } :=
  ⟨⟨[], (List.append_nil _).symm, rfl⟩, id, id, rfl⟩

theorem Emits.context {cfg : Config} (b : Block) {t : List ContextState} (ht : t.length = nCtx cfg) :
    Emits cfg b { b with ctx := some t } :=
  ⟨⟨[], (List.append_nil _).symm, rfl⟩, id, fun _ => ⟨t, rfl, ht⟩, rfl⟩

theorem Packed.emits {cfg : Config} {l : List Bit} {b b' : Block} (h : Packed l b b')
    (hcap : WithinCap cfg b → WithinCap cfg b') : Emits cfg b b' :=
  ⟨⟨l, h.bits, h.last⟩, hcap, fun ht => by rw [h.frame]; exact ht, by rw [h.frame]⟩

theorem Scaled.emits {cfg : Config} {k : Nat} {b b' : Block} (h : Scaled k b b')
    (hcap : WithinCap cfg b → WithinCap cfg b') : Emits cfg b b' :=
  ⟨h.packed, hcap, fun ht => by rw [h.frame]; exact ht, by rw [h.frame]⟩

theorem Emits.opened {cfg : Config} {b b' : Block} (h : Emits cfg b b') (hb : Opened cfg b) : Opened cfg b' :=
  ⟨h.table hb.table, hb.lps, by rw [h.frame]; exact hb.errClass, by rw [h.frame]; exact hb.errCause, h.cap hb.cap⟩

theorem Emits.side {cfg : Config} {b b' : Block} (h : Emits cfg b b') (hb : EncodeSide b) : EncodeSide b' where
  last := by
    obtain ⟨l, hbits, hlast⟩ := h.packed
    rw [hlast, hbits, hb.last, getLastD_append]
  ibuf := by rw [h.frame]; exact hb.ibuf
  ipos := by rw [h.frame]; exact hb.ipos
  hasDecl := by rw [h.frame]; exact hb.hasDecl
  declCount := by rw [h.frame]; exact hb.declCount

theorem Emits.sstate {cfg : Config} {b b' : Block} (h : Emits cfg b b') : b'.sstate = b.sstate := by rw [h.frame]

/-! ### The stages of the encoder's rules

The counted bin, the adapted context and the narrowed interval are all blocks of `Coding`, up to the renormalization
that brings the range back to 256. -/

theorem Encoding.count {cfg : Config} {b : Block} (h : Encoding cfg b) (n : BitVec 32) :
    Encoding cfg { b with binCount := n } :=
  ⟨(Emits.registers b _ _ _ _ n).opened h.opened, (Emits.registers (cfg := cfg) b _ _ _ _ n).side h.side,
    ⟨h.coding.fits, h.coding.pos, h.coding.scale, h.coding.start, h.coding.inside⟩, h.range_ge⟩

theorem Coding.context {b : Block} (h : Coding b) (t : Option (List ContextState)) : Coding { b with ctx := t } :=
  ⟨h.fits, h.pos, h.scale, h.start, h.inside⟩

/-- The subdivision of a regular bin: it does not fail, and leaves an interval within the old one (42_encoder.md
R203). -/
theorem Encoding.decision {cfg : Config} {b : Block} {i : BitVec 16} (h : Encoding cfg b) (hi : i.toNat < nCtx cfg)
    (bin : Bit) : ∃ b', encodeDecision cfg i bin b = .ok b' ∧ Coding b' ∧ Emits cfg b b' := by
  obtain ⟨c, hc⟩ := h.opened.table.readCtx hi
  obtain ⟨hpos, hlt⟩ := lpsRange_bounds h.opened.lps c.pStateIdx h.range_ge
  have hcoding := (encodeDecision_coding (lower := decide (bin = c.valMPS)) h.coding hpos hlt).1
  simp only [decide_eq_true_eq] at hcoding
  refine ⟨_, encodeDecision_eq hc h.opened.lps h.range_ge h.coding.scale, hcoding, ?_⟩
  split <;> exact Emits.registers b _ _ _ _ _

/-- A settled bypass bin (42_encoder.md R208): the doubled interval, or the part of it above the range, with the bit
`bit` moved out of `LOW`. -/
theorem Coding.settle {b m : Block} {bit : Bit} {low : BitVec 10} {add : Nat} (hb : Coding b)
    (hm : Packed (settledBits b.first b.pending.toNat bit) b m)
    (hlow : low.toNat + bit.toNat * 1024 = 2 * b.low.toNat + add) (hadd : add ≤ b.range.toNat)
    (hscale : low.toNat + b.range.toNat ≤ 1024) (hfirst : b.first = true → bit = false) :
    Coding { m with low := low, first := false, pending := 0 } := by
  have hrange : m.range = b.range := by rw [hm.frame]
  obtain ⟨hexact, hposition⟩ := settled_exact (low := low) (range := m.range) hm fun hf => ⟨hb.start hf, hfirst hf⟩
  have hinside := hb.inside
  refine ⟨hm.fits, by simpa [hrange] using hb.pos, by simpa [hrange] using hscale, by simp, ?_⟩
  rw [hposition, pow_succ]
  simp only [hrange] at hexact ⊢
  omega

/-- Before the first bit is settled the number is the pending run and `LOW` alone, and the initial interval leaves it no
room to carry. -/
theorem Coding.first_scale {b : Block} (hb : Coding b) (hf : b.first = true) : b.low.toNat + b.range.toNat ≤ 510 := by
  have hinside := hb.inside
  have hpow := Nat.one_le_two_pow (n := b.pending.toNat)
  simp only [Block.exactLow, Block.position, hb.start hf, hf, if_true, bitsValue_nil, List.length_nil, zero_add,
    add_zero, zero_mul] at hinside
  omega

/-- A bypass bin that is left pending (42_encoder.md R208). -/
theorem Coding.defer {b : Block} {low : BitVec 10} {add : Nat} (hb : Coding b)
    (hpending : (b.pending + 1).toNat = b.pending.toNat + 1) (hlow : low.toNat + 512 = 2 * b.low.toNat + add)
    (hadd : add ≤ b.range.toNat) (hscale : low.toNat + b.range.toNat ≤ 1024) :
    Coding { b with low := low, pending := b.pending + 1 } := by
  have hbits : Block.bits { b with low := low, pending := b.pending + 1 } = b.bits := rfl
  have hpow := Nat.one_le_two_pow (n := b.pending.toNat)
  have hinside := hb.inside
  have hexact : Block.exactLow { b with low := low, pending := b.pending + 1 } = 2 * b.exactLow + add := by
    have e : bitsValue b.bits * 2 ^ (b.pending.toNat + 1 + 10) =
        2 * (bitsValue b.bits * 2 ^ (b.pending.toNat + 10)) := by ring
    simp only [Block.exactLow, hbits, hpending, e, pow_succ 2 b.pending.toNat]
    omega
  have hposition : Block.position { b with low := low, pending := b.pending + 1 } = b.position + 1 := by
    simp only [Block.position, hbits, hpending]
    omega
  refine ⟨hb.fits, hb.pos, hscale, hb.start, ?_⟩
  rw [hexact, hposition, pow_succ]
  dsimp only
  omega

/-- The bypass step keeps the range and an interval within the doubled one (42_encoder.md R208). -/
theorem encodeBypass_coding {cfg : Config} {bin : Bit} {b b' : Block} (hb : Coding b)
    (h : encodeBypass cfg bin b = .ok b') : Coding b' ∧ b'.range = b.range ∧ Emits cfg b b' := by
  have hlt := b.range.isLt
  have hscale := hb.scale
  have hcap : WithinCap cfg b → WithinCap cfg b' := fun hc => hc.encodeBypass h
  have hadd : (if bin then b.range.toNat else 0) ≤ b.range.toNat := by split <;> omega
  obtain ⟨hcarry, hbelow, hpend⟩ := encodeBypass_ok hb h
  generalize hv : (if bin then b.range.toNat else 0) = add at *
  have hofNat : ∀ n, n < 1024 → (BitVec.ofNat 10 n).toNat = n := fun n hn => by
    rw [BitVec.toNat_ofNat, Nat.mod_eq_of_lt (by omega)]
  have hset : ∀ (m : Block) (bit : Bit) (low : BitVec 10), Packed (settledBits b.first b.pending.toNat bit) b m →
      b' = { m with low := low, first := false, pending := 0 } → b'.range = b.range ∧ Emits cfg b b' := by
    rintro m bit low hm rfl
    have hr : m.range = b.range := by rw [hm.frame]
    exact ⟨hr, ⟨⟨_, hm.bits, hm.last⟩, hcap, fun ht => by rw [hm.frame]; exact ht, by rw [hm.frame]⟩⟩
  by_cases h₁ : 1024 ≤ 2 * b.low.toNat + add
  · obtain ⟨m, hm, he⟩ := hcarry h₁
    have hn := hofNat (2 * b.low.toNat + add - 1024) (by omega)
    refine ⟨?_, hset m _ _ hm he⟩
    rw [he]
    refine hb.settle hm (add := add) ?_ hadd (by omega) fun hf => ?_
    · rw [hn, Bool.toNat_true]; omega
    · have := hb.first_scale hf
      omega
  · by_cases h₂ : 2 * b.low.toNat + add < 512
    · obtain ⟨m, hm, he⟩ := hbelow h₂
      have hn := hofNat (2 * b.low.toNat + add) (by omega)
      refine ⟨?_, hset m _ _ hm he⟩
      rw [he]
      refine hb.settle hm (add := add) ?_ hadd (by omega) fun _ => rfl
      rw [hn, Bool.toNat_false]; omega
    · obtain ⟨rfl, hpending⟩ := hpend (by omega) (by omega)
      have hn := hofNat (2 * b.low.toNat + add - 512) (by omega)
      exact ⟨hb.defer hpending (add := add) (by omega) hadd (by omega), rfl, Emits.registers b _ _ _ _ _⟩

theorem Coding.renormE {cfg : Config} {b b' : Block} (h : Coding b) (hr : renormE cfg 8 b = .ok b') :
    Coding b' ∧ 256 ≤ b'.range.toNat ∧ Emits cfg b b' := by
  obtain ⟨hge, hscaled⟩ := renormE_ok h hr
  exact ⟨hscaled.coding, hge, hscaled.emits fun hc => hc.renormE hr⟩

theorem checkInvariantE_eq_ok {b : Block} (h : 256 ≤ b.range.toNat) : checkInvariantE b = .ok () := by
  have hr := b.range.isLt
  have hl := b.low.isLt
  rw [checkInvariantE, if_neg (by omega), if_neg (by omega)]

/-! ### The encoder's rules from a state of the invariant -/

/-- The subdivision and the adapted context of a regular bin do not fail in a session, and lead to an interval to be
renormalized (42_encoder.md R202). -/
theorem Encoding.narrow {cfg : Config} {b : Block} {i : BitVec 16} (h : Encoding cfg b) (hi : i.toNat < nCtx cfg)
    (bin : Bit) : ∃ m, Coding m ∧ Emits cfg b m ∧ ∀ {α : Type} (f : Block → Except Cause α),
      (encodeDecision cfg i bin b >>= fun b => updateContext cfg i bin b >>= f) = f m := by
  obtain ⟨m, hm, hcoding, hemits⟩ := h.decision hi bin
  obtain ⟨t, ht, hupdate⟩ := (hemits.table h.opened.table).updateContext hi bin
  refine ⟨_, hcoding.context (some t), hemits.trans (Emits.context m ht), fun f => ?_⟩
  rw [hm, ok_bind, hupdate, ok_bind]

theorem encRegRule_ok {s : State} {i : BitVec 16} {bin : Word} {b : Block} {r : Result} (h : Inv s)
    (hr : encRegRule i bin s.config s.block = .ok (b, r)) : Encoding s.config b ∧ b.sstate = .encActive := by
  unfold encRegRule at hr
  obtain ⟨_, hstate, hr⟩ := bind_ok_iff.mp hr
  obtain ⟨_, hindex, hr⟩ := bind_ok_iff.mp hr
  obtain ⟨bit, -, hr⟩ := bind_ok_iff.mp hr
  obtain ⟨b₁, hcount, hr⟩ := bind_ok_iff.mp hr
  obtain ⟨-, rfl, -⟩ := countBin_cases hcount
  have hactive := sstate_of_checkState_encode hstate
  have hstart := (h.encoding hactive).count (s.block.binCount + 1)
  obtain ⟨m, hm, hemits, hnarrow⟩ := hstart.narrow (checkCtxIndex_ok_iff.mp hindex) bit
  rw [hnarrow] at hr
  obtain ⟨b₂, hrenorm, hr⟩ := bind_ok_iff.mp hr
  obtain ⟨_, -, hr⟩ := bind_ok_iff.mp hr
  cases hr
  obtain ⟨hcoding, hrange, hemits'⟩ := hm.renormE hrenorm
  have hall := hemits.trans hemits'
  exact ⟨⟨hall.opened hstart.opened, hall.side hstart.side, hcoding, hrange⟩, hall.sstate.trans hactive⟩

theorem encRegRule_raises {s : State} (h : Inv s) (i : BitVec 16) (bin : Word) :
    Raises (errorsOf (.encReg i bin)) (encRegRule i bin s.config s.block) := by
  unfold encRegRule
  refine (checkState_raises (by simp [errorsOf]) _).bind fun _ hstate => ?_
  refine (checkCtxIndex_raises (by simp [errorsOf]) _ _).bind fun _ hindex => ?_
  refine (binOperand_raises (by simp [errorsOf]) _).bind fun bit _ => ?_
  refine (countBin_raises (by simp [errorsOf]) _).bind fun b₁ hcount => ?_
  obtain ⟨-, rfl, -⟩ := countBin_cases hcount
  have hstart := (h.encoding (sstate_of_checkState_encode hstate)).count (s.block.binCount + 1)
  obtain ⟨m, hm, -, hnarrow⟩ := hstart.narrow (checkCtxIndex_ok_iff.mp hindex) bit
  rw [hnarrow]
  refine Raises.bind (fun c hc => ?_) fun b₂ hrenorm => ?_
  · rcases renormE_error hm (doublings_le _) hc with rfl | rfl <;> simp [errorsOf]
  · rw [checkInvariantE_eq_ok (hm.renormE hrenorm).2.1]
    exact .ok _

theorem encBypRule_ok {s : State} {bin : Word} {b : Block} {r : Result} (h : Inv s)
    (hr : encBypRule bin s.config s.block = .ok (b, r)) : Encoding s.config b ∧ b.sstate = .encActive := by
  unfold encBypRule at hr
  obtain ⟨_, hstate, hr⟩ := bind_ok_iff.mp hr
  obtain ⟨bit, -, hr⟩ := bind_ok_iff.mp hr
  obtain ⟨b₁, hcount, hr⟩ := bind_ok_iff.mp hr
  obtain ⟨-, rfl, -⟩ := countBin_cases hcount
  obtain ⟨b₂, hbypass, hr⟩ := bind_ok_iff.mp hr
  obtain ⟨_, -, hr⟩ := bind_ok_iff.mp hr
  cases hr
  have hactive := sstate_of_checkState_encode hstate
  have hstart := (h.encoding hactive).count (s.block.binCount + 1)
  obtain ⟨hcoding, hrange, hemits⟩ := encodeBypass_coding hstart.coding hbypass
  exact ⟨⟨hemits.opened hstart.opened, hemits.side hstart.side, hcoding, hrange ▸ hstart.range_ge⟩,
    hemits.sstate.trans hactive⟩

theorem encBypRule_raises {s : State} (h : Inv s) (bin : Word) :
    Raises (errorsOf (.encByp bin)) (encBypRule bin s.config s.block) := by
  unfold encBypRule
  refine (checkState_raises (by simp [errorsOf]) _).bind fun _ hstate => ?_
  refine (binOperand_raises (by simp [errorsOf]) _).bind fun bit _ => ?_
  refine (countBin_raises (by simp [errorsOf]) _).bind fun b₁ hcount => ?_
  obtain ⟨-, rfl, -⟩ := countBin_cases hcount
  have hstart := (h.encoding (sstate_of_checkState_encode hstate)).count (s.block.binCount + 1)
  refine Raises.bind (fun c hc => ?_) fun b₂ hbypass => ?_
  · rcases encodeBypass_error hstart.coding hc with rfl | rfl <;> simp [errorsOf]
  · rw [checkInvariantE_eq_ok ((encodeBypass_coding hstart.coding hbypass).2.1 ▸ hstart.range_ge)]
    exact .ok _

/-- `FlushE` narrows the interval to its two highest values before it renormalizes (43_bit_sink.md R236). -/
def flushStart (b : Block) : Block :=
  { b with low := BitVec.ofNat 10 (b.low.toNat + (b.range.toNat - 2)), range := BitVec.ofNat 9 2 }

theorem flushE_eq {cfg : Config} {b : Block} (hr : 256 ≤ b.range.toNat) (hs : b.low.toNat + b.range.toNat ≤ 1024) :
    flushE cfg b = (renormE cfg 8 (flushStart b) >>= fun b => putBit cfg (b.low.getLsbD 9) b >>= fun b =>
      writeBit cfg (b.low.getLsbD 8) b >>= fun b => writeBit cfg true b >>= fun b => padByte cfg 7 b) := by
  have hlt := b.range.isLt
  have hn : (BitVec.ofNat 9 (b.range.toNat - 2)).toNat = b.range.toNat - 2 := by rw [BitVec.toNat_ofNat]; omega
  unfold flushE
  rw [show (b.range.toNat : Int) - 2 = ((b.range.toNat - 2 : Nat) : Int) by omega, writeRange_ok (by omega), ok_bind]
  simp only [hn]
  rw [show (b.low.toNat : Int) + ((b.range.toNat - 2 : Nat) : Int) = ((b.low.toNat + (b.range.toNat - 2) : Nat) : Int)
    by omega, writeLow_ok (by omega), ok_bind]
  exact congrArg (· >>= _) (writeRange_ok (n := 2) (by omega) _)

theorem Encoding.coding_flushStart {cfg : Config} {b : Block} (h : Encoding cfg b) :
    Coding (flushStart b) ∧ (flushStart b).range.toNat = 2 ∧ Emits cfg b (flushStart b) := by
  have hr := h.range_ge
  have hcoding := (encodeDecision_coding (lps := 2) (lower := false) h.coding (by omega) (by omega)).1
  exact ⟨hcoding, rfl, Emits.registers b _ _ _ _ _⟩

/-- A settled bit leaves the interval, and the run and the suppression behind (43_bit_sink.md R231). -/
theorem putBit_emits {cfg : Config} {bit : Bit} {b b' : Block} (hb : b.part.toNat < 2 ^ b.pcnt.toNat)
    (h : putBit cfg bit b = .ok b') : Emits cfg b b' ∧ b'.part.toNat < 2 ^ b'.pcnt.toNat ∧ b'.range = b.range ∧
      b'.low = b.low ∧ b'.pending = 0 ∧ b'.first = false := by
  have hcap : WithinCap cfg b → WithinCap cfg b' := fun hc => hc.putBit h
  obtain ⟨m, hm, rfl⟩ := putBit_ok hb h
  have hrange : m.range = b.range := by rw [hm.frame]
  have hlow : m.low = b.low := by rw [hm.frame]
  exact ⟨⟨⟨_, hm.bits, hm.last⟩, hcap, fun ht => by rw [hm.frame]; exact ht, by rw [hm.frame]⟩, hm.fits, hrange, hlow,
    rfl, rfl⟩

/-- The flush leaves the range at 256, the low within the scale, and nothing pending or partial (43_bit_sink.md R236,
R237). -/
theorem Encoding.flush {cfg : Config} {b b' : Block} (h : Encoding cfg b) (hf : flushE cfg b = .ok b') :
    Emits cfg b b' ∧ b'.range = 256 ∧ b'.low.toNat ≤ 768 ∧ b'.pending = 0 ∧ b'.first = false ∧ b'.part = 0 ∧
      b'.pcnt = 0 := by
  rw [flushE_eq h.range_ge h.coding.scale] at hf
  obtain ⟨b₁, hrenorm, hf⟩ := bind_ok_iff.mp hf
  obtain ⟨b₂, hput, hf⟩ := bind_ok_iff.mp hf
  obtain ⟨b₃, hwrite, hf⟩ := bind_ok_iff.mp hf
  obtain ⟨b₄, hstop, hpad⟩ := bind_ok_iff.mp hf
  obtain ⟨hcoding, hrange, hemits⟩ := h.coding_flushStart
  obtain ⟨-, hscaled⟩ := renormE_ok hcoding hrenorm
  have hrange₁ : b₁.range.toNat = 256 := by
    rw [hscaled.range, hrange]
    decide
  have hscale₁ := hscaled.coding.scale
  obtain ⟨hemits₂, hfits₂, hrange₂, hlow₂, hpending₂, hfirst₂⟩ := putBit_emits hscaled.coding.fits hput
  obtain ⟨hw₃, -⟩ := writeBit_ok hfits₂ hwrite
  obtain ⟨hw₄, -⟩ := writeBit_ok hw₃.fits hstop
  obtain ⟨hw₅, hpcnt, hpart⟩ := padByte_ok hw₄.fits hpad (by omega)
  have hframe : b'.range = b₁.range ∧ b'.low = b₁.low ∧ b'.pending = 0 ∧ b'.first = false := by
    rw [hw₅.frame, hw₄.frame, hw₃.frame]
    exact ⟨hrange₂, hlow₂, hpending₂, hfirst₂⟩
  obtain ⟨hrange', hlow', hpending', hfirst'⟩ := hframe
  refine ⟨?_, BitVec.eq_of_toNat_eq (hrange' ▸ hrange₁), by rw [hlow']; omega, hpending', hfirst', hpart, hpcnt⟩
  exact ((((hemits.trans (hscaled.emits fun hc => hc.renormE hrenorm)).trans hemits₂).trans
    (hw₃.emits fun hc => hc.writeBit hwrite)).trans (hw₄.emits fun hc => hc.writeBit hstop)).trans
    (hw₅.emits fun hc => hc.padByte hpad)

theorem encFinRule_ok {s : State} {b : Block} {r : Result} (h : Inv s)
    (hr : encFinRule s.config s.block = .ok (b, r)) : Inv (complete b r s) := by
  unfold encFinRule at hr
  obtain ⟨_, hstate, hr⟩ := bind_ok_iff.mp hr
  obtain ⟨b₁, hflush, hr⟩ := bind_ok_iff.mp hr
  cases hr
  have hstart := h.encoding (sstate_of_checkState_encode hstate)
  obtain ⟨hemits, hrange, hlow, hpending, hfirst, hpart, hpcnt⟩ := hstart.flush hflush
  obtain ⟨htable, hlps, hclass, hcause, hcap⟩ := hemits.opened hstart.opened
  obtain ⟨hlast, hibuf, hipos, hhas, hdecl⟩ := hemits.side hstart.side
  exact inv_of_flushed ⟨htable, hlps, hclass, hcause, hcap⟩ ⟨hlast, hibuf, hipos, hhas, hdecl⟩ rfl hrange hlow hpending
    hfirst hpart hpcnt

theorem encFinRule_raises {s : State} (h : Inv s) : Raises (errorsOf .encFin) (encFinRule s.config s.block) := by
  unfold encFinRule
  refine (checkState_raises (by simp [errorsOf]) _).bind fun _ hstate => ?_
  have hstart := h.encoding (sstate_of_checkState_encode hstate)
  have hout : Cause.outputOverflow ∈ errorsOf .encFin := by simp [errorsOf]
  refine Raises.bind ?_ fun _ _ => .ok _
  rw [flushE_eq hstart.range_ge hstart.coding.scale]
  refine Raises.bind (fun c hc => ?_) fun _ _ => (putBit_raises hout _ _ _).bind fun _ _ =>
    (writeBit_raises hout _ _ _).bind fun _ _ => (writeBit_raises hout _ _ _).bind fun _ _ => padByte_raises hout _ _ _
  rcases renormE_error hstart.coding_flushStart.1 (doublings_le _) hc with rfl | rfl <;> simp [errorsOf]

/-- The initial interval, `[0, 510)` at scale 1, before any bit (42_encoder.md R201). -/
theorem Coding.initial {b : Block} (hbits : b.bits = []) (hpart : b.part = 0) (hlow : b.low = 0)
    (hrange : b.range = 510) (hpending : b.pending = 0) (hfirst : b.first = true) : Coding b where
  fits := by simp [hpart]
  pos := by simp [hrange]
  scale := by simp [hlow, hrange]
  start := fun _ => hbits
  inside := by simp [Block.exactLow, Block.position, hbits, hlow, hrange, hpending, hfirst]

/-- `ENC.INIT` opens a session with the initial interval (42_encoder.md R200, R201). -/
theorem encInitRule_ok {cfg : Config} {mode : Byte} {b₀ b : Block} {r : Result}
    (hr : encInitRule mode cfg b₀ = .ok (b, r)) : Encoding cfg b ∧ b.sstate = .encActive := by
  rw [encInitRule_eq] at hr
  rcases seedContexts_cases cfg mode Block.reset with ⟨-, h⟩ | ⟨-, -, h⟩ | ⟨-, hlps, t, ht, h⟩ <;> rw [h] at hr
  · cases hr
  · cases hr
  · cases hr
    have hcoding := Coding.initial
      (b := { Block.reset with
        ctx := some t, mode := mode, low := 0, range := 510, first := true, sstate := .encActive })
      rfl rfl rfl rfl rfl rfl
    exact ⟨⟨⟨⟨t, rfl, (seedTable_some ht).1⟩, hlps, rfl, rfl, fun _ _ => Nat.zero_le _⟩, ⟨rfl, rfl, rfl, rfl, rfl⟩,
      hcoding, by simp⟩, rfl⟩

/-! ### The decoder's rules from a state of the invariant -/

/-- What the decoder writes outside its counter: the interval, the place in the input, one context. -/
theorem Decoding.of_offset {cfg : Config} {b b' : Block} (h : Decoding cfg b) (htable : TableWhole cfg b')
    (hoffset : Offset b')
    (hframe : b' = { b with
      sstate := b'.sstate, ctx := b'.ctx, low := b'.low, range := b'.range, ipos := b'.ipos }) : Decoding cfg b' := by
  obtain ⟨⟨-, hlps, hclass, hcause, hcap⟩, -, hside⟩ := h
  refine ⟨⟨htable, hlps, ?_, ?_, ?_⟩, hoffset, ?_⟩
  · rw [hframe]; exact hclass
  · rw [hframe]; exact hcause
  · rw [hframe]; exact hcap
  · rw [hframe]
    exact ⟨hside.pending, hside.first, hside.last, hside.part, hside.pcnt, hside.obuf, hside.declared, hside.undeclared⟩

/-- A counted bin does not pass the declared count (44_decoder.md R267). -/
theorem Decoding.count {cfg : Config} {b b' : Block} {u : Unit} (h : Decoding cfg b) (hd : checkDeclared b = .ok u)
    (hc : countBin b = .ok b') : Decoding cfg b' ∧ b'.sstate = b.sstate := by
  obtain ⟨⟨htable, hlps, hclass, hcause, hcap⟩, ⟨hrange, hlow, hge, hle⟩, hside⟩ := h
  obtain ⟨-, rfl, hval⟩ := countBin_cases hc
  have hdeclared := checkDeclared_ok_iff.mp hd
  refine ⟨⟨⟨htable, hlps, hclass, hcause, hcap⟩, ⟨hrange, hlow, hge, hle⟩, ?_⟩, rfl⟩
  refine ⟨hside.pending, hside.first, hside.last, hside.part, hside.pcnt, hside.obuf, fun hd => ?_, hside.undeclared⟩
  rw [hval]
  exact hdeclared hd

/-- Bits that could be read are bits of the input. -/
theorem ipos_add_le {b : Block} {n : Nat} (hle : b.ipos ≤ 8 * b.ibuf.length) (h : (b.nextInput n).length = n) :
    b.ipos + n ≤ 8 * b.ibuf.length := by
  simp only [Block.nextInput, List.length_take, List.length_drop, bytesBits_length] at h
  omega

/-- The subdivision of a regular bin does not fail, and keeps the offset below the range (44_decoder.md R263). -/
theorem Decoding.decision {cfg : Config} {b : Block} {i : BitVec 16} (h : Decoding cfg b) (hi : i.toNat < nCtx cfg) :
    ∃ bin low range, decodeDecision cfg i b = .ok (bin, { b with low := low, range := range }) ∧
      low.toNat < range.toNat := by
  obtain ⟨c, hc⟩ := h.opened.table.readCtx hi
  obtain ⟨hpos, hlt⟩ := lpsRange_bounds h.opened.lps c.pStateIdx h.offset.range_ge
  have heq := decodeDecision_eq hc h.opened.lps h.offset.range_ge
  have hrange := b.range.isLt
  have hlow := h.offset.low_lt
  dsimp only at heq
  generalize lpsRange cfg c.pStateIdx b.range = lps at *
  split at heq
  · exact ⟨_, b.low, _, heq, by rw [BitVec.toNat_ofNat]; omega⟩
  · exact ⟨_, _, _, heq, by rw [BitVec.toNat_ofNat, BitVec.toNat_ofNat]; omega⟩

theorem renormD_offset {b b' : Block} (h : renormD 8 b = .ok b') (hlow : b.low.toNat < b.range.toNat)
    (hge : 9 ≤ b.ipos) (hle : b.ipos ≤ 8 * b.ibuf.length) :
    Offset b' ∧ b' = { b with low := b'.low, range := b'.range, ipos := b'.ipos } := by
  obtain ⟨hlen, hlt, rfl⟩ := renormD_ok (by omega) hlow h
  obtain ⟨hrange, hrange'⟩ := doublings_range (show 1 ≤ b.range.toNat by omega) b.range.isLt
  have hinput := ipos_add_le hle hlen
  refine ⟨⟨?_, ?_, ?_, hinput⟩, rfl⟩
  · simp only [BitVec.toNat_ofNat]; omega
  · simp only [BitVec.toNat_ofNat]; omega
  · dsimp only; omega

theorem checkInvariantD_eq_ok {b : Block} (h : Offset b) : checkInvariantD b = .ok () := by
  have hr := b.range.isLt
  have hge := h.range_ge
  have hlow := h.low_lt
  rw [checkInvariantD, if_neg (by omega), if_neg (by omega)]

/-- The subdivision and the adapted context of a regular bin do not fail in a session, and lead to an interval to be
renormalized (44_decoder.md R263). -/
theorem Decoding.narrow {cfg : Config} {b : Block} {i : BitVec 16} (h : Decoding cfg b) (hi : i.toNat < nCtx cfg) :
    ∃ bin low range t, decodeDecision cfg i b = .ok (bin, { b with low := low, range := range }) ∧
      updateContext cfg i bin { b with low := low, range := range } =
        .ok { b with low := low, range := range, ctx := some t } ∧
      t.length = nCtx cfg ∧ low.toNat < range.toNat := by
  obtain ⟨bin, low, range, hdecision, hlt⟩ := h.decision hi
  have htable : TableWhole cfg { b with low := low, range := range } := h.opened.table
  obtain ⟨t, ht, hupdate⟩ := htable.updateContext hi bin
  exact ⟨bin, low, range, t, hdecision, hupdate, ht, hlt⟩

theorem decRegRule_ok {s : State} {i : BitVec 16} {b : Block} {r : Result} (h : Inv s)
    (hr : decRegRule i s.config s.block = .ok (b, r)) : Decoding s.config b ∧ b.sstate = .decActive := by
  unfold decRegRule at hr
  obtain ⟨_, hstate, hr⟩ := bind_ok_iff.mp hr
  obtain ⟨_, hindex, hr⟩ := bind_ok_iff.mp hr
  obtain ⟨_, hdeclared, hr⟩ := bind_ok_iff.mp hr
  obtain ⟨b₁, hcount, hr⟩ := bind_ok_iff.mp hr
  have hactive := sstate_of_checkState_decode hstate
  obtain ⟨hstart, hsame⟩ := (h.decoding hactive).count hdeclared hcount
  obtain ⟨bin, low, range, t, hdecision, hupdate, ht, hlt⟩ := hstart.narrow (checkCtxIndex_ok_iff.mp hindex)
  rw [hdecision, ok_bind] at hr
  dsimp only at hr
  rw [hupdate, ok_bind] at hr
  obtain ⟨b₂, hrenorm, hr⟩ := bind_ok_iff.mp hr
  obtain ⟨_, -, hr⟩ := bind_ok_iff.mp hr
  cases hr
  obtain ⟨hoffset, hframe⟩ := renormD_offset hrenorm hlt hstart.offset.ipos_ge hstart.offset.ipos_le
  have htable : TableWhole s.config b := ⟨t, by rw [hframe], ht⟩
  exact ⟨hstart.of_offset htable hoffset (by rw [hframe]), by rw [hframe]; exact hsame.trans hactive⟩

theorem decRegRule_raises {s : State} (h : Inv s) (i : BitVec 16) :
    Raises (errorsOf (.decReg i)) (decRegRule i s.config s.block) := by
  unfold decRegRule
  refine (checkState_raises (by simp [errorsOf]) _).bind fun _ hstate => ?_
  refine (checkCtxIndex_raises (by simp [errorsOf]) _ _).bind fun _ hindex => ?_
  refine (checkDeclared_raises (by simp [errorsOf]) _).bind fun _ hdeclared => ?_
  refine (countBin_raises (by simp [errorsOf]) _).bind fun b₁ hcount => ?_
  obtain ⟨hstart, -⟩ := (h.decoding (sstate_of_checkState_decode hstate)).count hdeclared hcount
  obtain ⟨bin, low, range, t, hdecision, hupdate, -, hlt⟩ := hstart.narrow (checkCtxIndex_ok_iff.mp hindex)
  rw [hdecision, ok_bind]
  dsimp only
  rw [hupdate, ok_bind]
  refine Raises.bind (fun c hc => ?_) fun b₂ hrenorm => ?_
  · obtain ⟨rfl, -⟩ := renormD_error (Nat.one_le_of_lt hlt) hlt (doublings_le _) hc
    simp [errorsOf]
  · rw [checkInvariantD_eq_ok (renormD_offset hrenorm hlt hstart.offset.ipos_ge hstart.offset.ipos_le).1]
    exact .ok _

/-- The bypass step keeps the offset below the range (44_decoder.md R265, R268). -/
theorem Offset.bypass {b b' : Block} {bin : Bit} (h : Offset b) (hb : decodeBypass b = .ok (bin, b')) :
    Offset b' ∧ b' = { b with low := b'.low, ipos := b'.ipos } := by
  obtain ⟨hlen, -, hlt, rfl⟩ := decodeBypass_ok h.low_lt hb
  have hrange := b.range.isLt
  have hge := h.ipos_ge
  have hinput := ipos_add_le h.ipos_le hlen
  refine ⟨⟨h.range_ge, ?_, ?_, hinput⟩, rfl⟩
  · simp only [BitVec.toNat_ofNat]; omega
  · dsimp only; omega

theorem decBypRule_ok {s : State} {b : Block} {r : Result} (h : Inv s)
    (hr : decBypRule s.config s.block = .ok (b, r)) : Decoding s.config b ∧ b.sstate = .decActive := by
  unfold decBypRule at hr
  obtain ⟨_, hstate, hr⟩ := bind_ok_iff.mp hr
  obtain ⟨_, hdeclared, hr⟩ := bind_ok_iff.mp hr
  obtain ⟨b₁, hcount, hr⟩ := bind_ok_iff.mp hr
  obtain ⟨⟨bin, b₂⟩, hbypass, hr⟩ := bind_ok_iff.mp hr
  obtain ⟨_, -, hr⟩ := bind_ok_iff.mp hr
  cases hr
  have hactive := sstate_of_checkState_decode hstate
  obtain ⟨hstart, hsame⟩ := (h.decoding hactive).count hdeclared hcount
  obtain ⟨hoffset, hframe⟩ := hstart.offset.bypass hbypass
  have htable : TableWhole s.config b := by rw [hframe]; exact hstart.opened.table
  exact ⟨hstart.of_offset htable hoffset (by rw [hframe]), by rw [hframe]; exact hsame.trans hactive⟩

theorem decBypRule_raises {s : State} (h : Inv s) : Raises (errorsOf .decByp) (decBypRule s.config s.block) := by
  unfold decBypRule
  refine (checkState_raises (by simp [errorsOf]) _).bind fun _ hstate => ?_
  refine (checkDeclared_raises (by simp [errorsOf]) _).bind fun _ hdeclared => ?_
  refine (countBin_raises (by simp [errorsOf]) _).bind fun b₁ hcount => ?_
  obtain ⟨hstart, -⟩ := (h.decoding (sstate_of_checkState_decode hstate)).count hdeclared hcount
  refine Raises.bind (fun c hc => ?_) fun ⟨bin, b₂⟩ hbypass => ?_
  · obtain ⟨rfl, -⟩ := decodeBypass_error hstart.offset.low_lt hc
    simp [errorsOf]
  · dsimp only
    rw [checkInvariantD_eq_ok (hstart.offset.bypass hbypass).1]
    exact .ok _

theorem decEndRule_ok {s : State} {b : Block} {r : Result} (h : Inv s)
    (hr : decEndRule s.config s.block = .ok (b, r)) : Decoding s.config b ∧ b.sstate = .decEnded := by
  unfold decEndRule at hr
  obtain ⟨_, hstate, hr⟩ := bind_ok_iff.mp hr
  cases hr
  have hstart := h.decoding (sstate_of_checkState_decode hstate)
  obtain ⟨hrange, hlow, hge, hle⟩ := hstart.offset
  exact ⟨hstart.of_offset hstart.opened.table ⟨hrange, hlow, hge, hle⟩ rfl, rfl⟩

theorem decEndRule_raises (cfg : Config) (b : Block) : Raises (errorsOf .decEnd) (decEndRule cfg b) :=
  (checkState_raises (by simp [errorsOf]) _).bind fun _ _ => .ok _

/-- `DEC.INIT` opens a session with the nine bits read as its offset (44_decoder.md R260, R261). -/
theorem decInitRule_ok {cfg : Config} {mode : Byte} {declared : Option Word} {input : List Byte} {b₀ b : Block}
    {r : Result} (hr : decInitRule mode declared input cfg b₀ = .ok (b, r)) :
    Decoding cfg b ∧ b.sstate = .decActive := by
  rw [decInitRule_eq] at hr
  rcases seedContexts_cases cfg mode Block.reset with ⟨-, h⟩ | ⟨-, -, h⟩ | ⟨-, hlps, t, ht, h⟩ <;> rw [h] at hr
  · cases hr
  · cases hr
  · rw [ok_bind] at hr
    obtain ⟨⟨v, b₁⟩, hread, hr⟩ := bind_ok_iff.mp hr
    obtain ⟨hlen, -, rfl⟩ := readBits_ok hread
    have hinput := ipos_add_le (Nat.zero_le _) hlen
    dsimp only at hr
    split at hr
    · cases hr
    · rename_i hv
      cases hr
      refine ⟨⟨⟨⟨t, rfl, (seedTable_some ht).1⟩, hlps, rfl, rfl, fun _ _ => Nat.zero_le _⟩,
        ⟨by simp, ?_, ?_, hinput⟩, ?_⟩, rfl⟩
      · simp only [BitVec.toNat_ofNat, show (510 : BitVec 9).toNat = 510 from rfl]; omega
      · simp
      · refine ⟨rfl, rfl, rfl, rfl, rfl, rfl, fun _ => Nat.zero_le _, fun hnone => ?_⟩
        cases declared with
        | none => rfl
        | some n => cases hnone

/-! ### The commands that write no register -/

/-- If `x` completes, it is with the block `b`. -/
def Keeps (b : Block) (x : Except Cause (Block × Result)) : Prop := ∀ b' r, x = .ok (b', r) → b' = b

theorem Keeps.ok (b : Block) (r : Result) : Keeps b (.ok (b, r)) := by
  rintro _ _ ⟨⟩
  rfl

theorem Keeps.error (b : Block) (c : Cause) : Keeps b (.error c) := nofun

theorem Keeps.bind {α : Type} {b : Block} {x : Except Cause α} {f : α → Except Cause (Block × Result)}
    (h : ∀ a, Keeps b (f a)) : Keeps b (x >>= f) := by
  intro b' r hr
  obtain ⟨a, -, hr⟩ := bind_ok_iff.mp hr
  exact h a b' r hr

theorem ctxSelRule_keeps (se cat : Byte) (binIdx : Word) (cfg : Config) (b : Block) :
    Keeps b (ctxSelRule se cat binIdx cfg b) := by
  refine .bind fun _ => ?_
  split
  · exact .error _ _
  · split
    · exact .error _ _
    · dsimp only
      split
      · exact .error _ _
      · exact .ok _ _

theorem statRule_keeps (sel : BitVec 4) (cfg : Config) (b : Block) : Keeps b (statRule sel cfg b) := by
  unfold statRule
  split
  · exact .error _ _
  · exact .ok _ _

/-- 40_binarizer.md R130, 45_session.md R294: a command that only reads leaves the block as it was. -/
theorem ruleOf_keeps {i : Instr} (hi : writesNothing i = true) (cfg : Config) (b : Block) :
    Keeps b (ruleOf i cfg b) := by
  cases i with
  | ctxSel se cat binIdx => exact ctxSelRule_keeps se cat binIdx cfg b
  | ctxRd ctx => exact .bind fun _ => .bind fun _ => .bind fun _ => .ok _ _
  | binU value => exact .bind fun _ => .ok _ _
  | binTu value cutoff => exact .bind fun _ => .bind fun _ => .ok _ _
  | binEgu value order => exact .bind fun _ => .bind fun _ => .ok _ _
  | binEgs value order => exact .bind fun _ => .ok _ _
  | binFl value length => exact .bind fun _ => .bind fun _ => .ok _ _
  | debinU bins => exact .bind fun _ => .bind fun _ => .ok _ _
  | debinTu cutoff bins => exact .bind fun _ => .bind fun _ => .bind fun _ => .ok _ _
  | debinEgu order bins => exact .bind fun _ => .bind fun _ => .bind fun _ => .ok _ _
  | debinEgs order bins => exact .bind fun _ => .bind fun _ => .bind fun _ => .ok _ _
  | debinFl length bins => exact .bind fun _ => .bind fun _ => .bind fun _ => .ok _ _
  | stat sel => exact statRule_keeps sel cfg b
  | _ => cases hi

/-! ### The causes of every command -/

theorem ctxSelRule_raises (se cat : Byte) (binIdx : Word) (cfg : Config) (b : Block) :
    Raises (errorsOf (.ctxSel se cat binIdx)) (ctxSelRule se cat binIdx cfg b) := by
  refine (checkState_raises (by simp [errorsOf]) _).bind fun _ _ => ?_
  split
  · exact .error (by simp [errorsOf])
  · split
    · exact .error (by simp [errorsOf])
    · exact .ite (fun _ => .error (by simp [errorsOf])) fun _ => .ok _

/-- In a session an index in range names an entry, so `NO_CONTEXT` is the state check's alone. -/
theorem ctxRdRule_raises {s : State} (h : Inv s) (i : BitVec 16) :
    Raises (errorsOf (.ctxRd i)) (ctxRdRule i s.config s.block) := by
  refine (checkState_raises (by simp [errorsOf]) _).bind fun _ hstate => ?_
  refine (checkCtxIndex_raises (by simp [errorsOf]) _ _).bind fun _ hindex => ?_
  obtain ⟨c, hc⟩ := (h.opened (inSession_of_checkState_ctxRd hstate)).table.readCtx (checkCtxIndex_ok_iff.mp hindex)
  rw [hc]
  exact .ok _

theorem statRule_raises (sel : BitVec 4) (cfg : Config) (b : Block) : Raises [.badSelector] (statRule sel cfg b) := by
  unfold statRule
  split
  · exact .error (by simp)
  · exact .ok _

theorem statusWord_isSome {sel : BitVec 4} (h : sel.toNat < 8) (b : Block) : ∃ w, statusWord sel b = some w := by
  rcases selector_cases h with rfl | rfl | rfl | rfl | rfl | rfl | rfl | rfl <;> exact ⟨_, rfl⟩

/-- From a state of the invariant a command of the instruction set fails with a cause of its row of the error table
(60_exceptions.md R316). -/
theorem ruleOf_raises {s : State} (h : Inv s) {i : Instr} (hi : i.wellFormed = true) :
    Raises (errorsOf i) (ruleOf i s.config s.block) := by
  cases i with
  | encInit mode => exact encInitRule_raises mode _ _
  | encReg ctx bin => exact encRegRule_raises h ctx bin
  | encByp bin => exact encBypRule_raises h bin
  | encFin => exact encFinRule_raises h
  | decInit mode declared input => exact decInitRule_raises mode declared input _ _
  | decReg ctx => exact decRegRule_raises h ctx
  | decByp => exact decBypRule_raises h
  | decEnd => exact decEndRule_raises s.config s.block
  | ctxSel se cat binIdx => exact ctxSelRule_raises se cat binIdx _ _
  | ctxRd ctx => exact ctxRdRule_raises h ctx
  | binU value => exact (valueOperand_raises (by simp [errorsOf]) _).bind fun _ _ => .ok _
  | binTu value cutoff =>
    exact (cutoffOperand_raises (by simp [errorsOf]) _).bind fun _ _ =>
      (valueOperand_raises (by simp [errorsOf]) _).bind fun _ _ => .ok _
  | binEgu value order =>
    exact (orderOperand_raises (by simp [errorsOf]) _).bind fun _ _ =>
      (valueOperand_raises (by simp [errorsOf]) _).bind fun _ _ => .ok _
  | binEgs value order => exact (orderOperand_raises (by simp [errorsOf]) _).bind fun _ _ => .ok _
  | binFl value length =>
    exact (lengthOperand_raises (by simp [errorsOf]) _).bind fun _ _ =>
      (flValueOperand_raises (by simp [errorsOf]) _ _).bind fun _ _ => .ok _
  | debinU bins =>
    exact (checkBins_raises (by simp [errorsOf]) _).bind fun l _ =>
      ((parseUnary_raises l).mono (by simp [errorsOf])).bind fun _ _ => .ok _
  | debinTu cutoff bins =>
    exact (cutoffOperand_raises (by simp [errorsOf]) _).bind fun c _ =>
      (checkBins_raises (by simp [errorsOf]) _).bind fun l _ =>
        ((parseTruncated_raises c l).mono (by simp [errorsOf])).bind fun _ _ => .ok _
  | debinEgu order bins =>
    exact (orderOperand_raises (by simp [errorsOf]) _).bind fun k _ =>
      (checkBins_raises (by simp [errorsOf]) _).bind fun l _ =>
        ((parseExpGolomb_raises l k _).mono (by simp [errorsOf])).bind fun _ _ => .ok _
  | debinEgs order bins =>
    exact (orderOperand_raises (by simp [errorsOf]) _).bind fun k _ =>
      (checkBins_raises (by simp [errorsOf]) _).bind fun l _ =>
        ((parseExpGolomb_raises l k _).mono (by simp [errorsOf])).bind fun _ _ => .ok _
  | debinFl length bins =>
    exact (lengthOperand_raises (by simp [errorsOf]) _).bind fun len _ =>
      (checkBins_raises (by simp [errorsOf]) _).bind fun l _ =>
        ((parseFixed_raises len l).mono (by simp [errorsOf])).bind fun _ _ => .ok _
  | abort => exact .ok _
  | stat sel =>
    obtain ⟨w, hw⟩ := statusWord_isSome (of_decide_eq_true hi) s.block
    simp only [ruleOf, statRule, hw]
    exact .ok _

/-- The error table has no row with a bounds failure in it (60_exceptions.md R314). -/
theorem bounds_not_mem_errorsOf (i : Instr) : .rangeBounds ∉ errorsOf i ∧ .lowBounds ∉ errorsOf i := by
  cases i <;> simp [errorsOf, stateCauses]

theorem ruleOf_error_ne_bounds {s : State} {i : Instr} {c : Cause} (h : Inv s)
    (hc : ruleOf i s.config s.block = .error c) : c ≠ .rangeBounds ∧ c ≠ .lowBounds := by
  by_cases hi : i.wellFormed = true
  · have hmem := ruleOf_raises h hi c hc
    obtain ⟨hrange, hlow⟩ := bounds_not_mem_errorsOf i
    exact ⟨fun he => hrange (he ▸ hmem), fun he => hlow (he ▸ hmem)⟩
  · cases i with
    | stat sel =>
      have hmem := statRule_raises sel s.config s.block c hc
      rw [List.mem_singleton] at hmem
      simp [hmem]
    | _ => exact absurd rfl hi

/-- Settles O57: the error in the response is the one the rule raised, and none of them is a bounds failure. -/
theorem boundsChecksNeverFail : Obligations.BoundsChecksNeverFail := by
  unfold Obligations.BoundsChecksNeverFail
  intro s t i c r0 r1 bout h hexec hresponse
  rw [exec_eq_execute] at hexec
  rcases execute_cases hexec with ⟨b, r, -, rfl⟩ | ⟨c', hc', rfl⟩
  · simp at hresponse
  · obtain ⟨rfl, -⟩ : c' = c ∧ _ := by simpa using hresponse
    exact ruleOf_error_ne_bounds h hc'

/-! ### Every step keeps the invariant -/

/-- A command that completes: a reading command leaves the block, and each of the others leads into a session of the
invariant or to the reset state. -/
theorem Inv.complete {s : State} {i : Instr} {b : Block} {r : Result} (h : Inv s)
    (hr : ruleOf i s.config s.block = .ok (b, r)) : Inv (complete b r s) := by
  by_cases hi : writesNothing i = true
  · exact h.of_block (ruleOf_keeps hi _ _ b r hr) rfl
  cases i with
  | encInit mode =>
    obtain ⟨hb, hs⟩ := encInitRule_ok hr
    exact Encoding.inv hb hs
  | encReg ctx bin =>
    obtain ⟨hb, hs⟩ := encRegRule_ok h hr
    exact Encoding.inv hb hs
  | encByp bin =>
    obtain ⟨hb, hs⟩ := encBypRule_ok h hr
    exact Encoding.inv hb hs
  | encFin => exact encFinRule_ok h hr
  | decInit mode declared input =>
    obtain ⟨hb, hs⟩ := decInitRule_ok hr
    exact Decoding.inv hb (.inl hs)
  | decReg ctx =>
    obtain ⟨hb, hs⟩ := decRegRule_ok h hr
    exact Decoding.inv hb (.inl hs)
  | decByp =>
    obtain ⟨hb, hs⟩ := decBypRule_ok h hr
    exact Decoding.inv hb (.inl hs)
  | decEnd =>
    obtain ⟨hb, hs⟩ := decEndRule_ok h hr
    exact Decoding.inv hb (.inr hs)
  | abort =>
    cases hr
    exact Inv.of_reset_block rfl
  | _ => exact absurd rfl hi

theorem exec_keeps_inv {s t : State} {i : Instr} (h : Inv s) (hexec : exec i s = .next t) : Inv t := by
  rw [exec_eq_execute] at hexec
  rcases execute_cases hexec with ⟨b, r, hr, rfl⟩ | ⟨c, -, rfl⟩
  · exact h.complete hr
  · exact h.takeError _ c

/-- All a step can do: wait for a command, run the first one, or take the error of its illegal word (00_scope.md
R17). -/
theorem step_cases {s t : State} (h : step s = .next t) :
    t = s ∨ ∃ c rest, s.commands = c :: rest ∧
      ((∃ i, decode c = .ok i ∧ exec i { s with commands := rest } = .next t) ∨
        ∃ e, decode c = .error e ∧ t = takeError false (Cause.ofIllegal e) { s with commands := rest }) := by
  cases hcommands : s.commands with
  | nil =>
    have hstep : step s = .next s := by simp [step, fetch, hcommands]
    rw [hstep] at h
    cases h
    exact .inl rfl
  | cons c rest =>
    refine .inr ⟨c, rest, rfl, ?_⟩
    have hfetch := fetch_of_commands_cons hcommands
    cases hdecode : decode c with
    | ok i => exact .inl ⟨i, rfl, (step_of_decode_ok hfetch hdecode).symm.trans h⟩
    | error e =>
      have hstep : step s = executeIllegal e { s with commands := rest } := by simp [step, hfetch, hdecode]
      rw [hstep] at h
      cases h
      exact .inr ⟨e, rfl, rfl⟩

/-- Settles O56: waiting changes nothing, and both a command and the error of an illegal word keep the invariant, which
is not about the commands to come. -/
theorem stepKeepsTheInvariant : Obligations.StepKeepsTheInvariant := by
  unfold Obligations.StepKeepsTheInvariant
  intro s t h hstep
  rcases step_cases hstep with rfl | ⟨c, rest, -, hrun⟩
  · exact h
  have htaken : Inv { s with commands := rest } := h.of_block rfl rfl
  rcases hrun with ⟨i, -, hexec⟩ | ⟨e, -, rfl⟩
  · exact exec_keeps_inv htaken hexec
  · exact htaken.takeError false _

end Sys2Proof.Machine

namespace Sys2Proof.Machine

/-! ### What a completed operation ensures

`Ensures P x` is partial correctness: a result of `x`, if there is one, has `P`. It goes through a sequence of
operations, so what a rule ensures is read off its parts. -/

/-- If `x` completes, its result has `P`. -/
def Ensures {α : Type} (P : α → Prop) (x : Except Cause α) : Prop := ∀ a, x = .ok a → P a

section
variable {α β : Type} {P : α → Prop} {Q : β → Prop}

theorem Ensures.ok {a : α} (h : P a) : Ensures P (.ok a) := by
  rintro _ ⟨⟩
  exact h

theorem Ensures.error (c : Cause) : Ensures P (.error c) := nofun

/-- Past an operation of which only its completion matters, such as a check. -/
theorem Ensures.past {x : Except Cause α} {f : α → Except Cause β} (hf : ∀ a, x = .ok a → Ensures Q (f a)) :
    Ensures Q (x >>= f) := by
  intro y hy
  obtain ⟨a, ha, hy⟩ := bind_ok_iff.mp hy
  exact hf a ha y hy

theorem Ensures.bind {x : Except Cause α} {f : α → Except Cause β} (hx : Ensures P x)
    (hf : ∀ a, P a → Ensures Q (f a)) : Ensures Q (x >>= f) :=
  .past fun a ha => hf a (hx a ha)

theorem Ensures.ite {p : Prop} [Decidable p] {x y : Except Cause α} (hx : Ensures P x) (hy : Ensures P y) :
    Ensures P (if p then x else y) := by
  split
  · exact hx
  · exact hy

end

/-! ### The two buffers

A command of the encoder appends to the output and leaves the input; one of the decoder moves on in the input and leaves
the output. An operation on the other registers keeps either relation. -/

/-- The output is as it was. -/
def SameOutput (b b' : Block) : Prop := b'.bits = b.bits ∧ b'.obuf = b.obuf

/-- The input and the position in it are as they were. -/
def SameInput (b b' : Block) : Prop := b'.ibuf = b.ibuf ∧ b'.ipos = b.ipos

/-- Both buffers are as they were. -/
def SameBuffers (b b' : Block) : Prop := SameOutput b b' ∧ SameInput b b'

/-- The output, bytes and bits, begins with what it was. -/
def ExtendsOutput (b b' : Block) : Prop := b.obuf <+: b'.obuf ∧ b.bits <+: b'.bits

/-- Output has been appended, if anything, and the input is as it was (20_memory.md R72). -/
def Appends (b b' : Block) : Prop := ExtendsOutput b b' ∧ SameInput b b'

/-- The position in the input has moved forward, if at all, and the output is as it was (20_memory.md R73). -/
def Advances (b b' : Block) : Prop := SameOutput b b' ∧ b'.ibuf = b.ibuf ∧ b.ipos ≤ b'.ipos

theorem SameBuffers.refl (b : Block) : SameBuffers b b := ⟨⟨rfl, rfl⟩, rfl, rfl⟩

theorem SameOutput.extends {b b' : Block} (h : SameOutput b b') : ExtendsOutput b b' := by
  obtain ⟨hbits, hobuf⟩ := h
  exact ⟨hobuf ▸ List.prefix_refl _, hbits ▸ List.prefix_refl _⟩

theorem SameBuffers.appends {b b' : Block} (h : SameBuffers b b') : Appends b b' := ⟨h.1.extends, h.2⟩

theorem SameBuffers.advances {b b' : Block} (h : SameBuffers b b') : Advances b b' := by
  obtain ⟨hout, hibuf, hipos⟩ := h
  exact ⟨hout, hibuf, hipos.ge⟩

theorem Appends.trans {b b' b'' : Block} (h : Appends b b') (g : Appends b' b'') : Appends b b'' := by
  obtain ⟨⟨hobuf, hbits⟩, hibuf, hipos⟩ := h
  obtain ⟨⟨gobuf, gbits⟩, gibuf, gipos⟩ := g
  exact ⟨⟨hobuf.trans gobuf, hbits.trans gbits⟩, gibuf.trans hibuf, gipos.trans hipos⟩

theorem Advances.trans {b b' b'' : Block} (h : Advances b b') (g : Advances b' b'') : Advances b b'' := by
  obtain ⟨⟨hbits, hobuf⟩, hibuf, hipos⟩ := h
  obtain ⟨⟨gbits, gobuf⟩, gibuf, gipos⟩ := g
  exact ⟨⟨gbits.trans hbits, gobuf.trans hobuf⟩, gibuf.trans hibuf, hipos.trans gipos⟩

/-- An operation on the other registers keeps what was appended before it. -/
theorem Appends.via {b₀ b : Block} {x : Except Cause Block} (h : Appends b₀ b) (hx : Ensures (SameBuffers b) x) :
    Ensures (Appends b₀) x :=
  fun b' hb' => h.trans (hx b' hb').appends

/-- An operation on the other registers keeps the advance before it. -/
theorem Advances.via {b₀ b : Block} {x : Except Cause Block} (h : Advances b₀ b) (hx : Ensures (SameBuffers b) x) :
    Ensures (Advances b₀) x :=
  fun b' hb' => h.trans (hx b' hb').advances

/-! #### The operations on the other registers -/

theorem writeLow_buffers (v : Int) (b : Block) : Ensures (SameBuffers b) (writeLow v b) := by
  intro b' hb'
  obtain ⟨-, -, rfl⟩ := writeLow_cases hb'
  exact .refl b

theorem writeRange_buffers (v : Int) (b : Block) : Ensures (SameBuffers b) (writeRange v b) := by
  intro b' hb'
  obtain ⟨-, -, rfl⟩ := writeRange_cases hb'
  exact .refl b

theorem countBin_buffers (b : Block) : Ensures (SameBuffers b) (countBin b) := by
  intro b' hb'
  obtain ⟨-, rfl, -⟩ := countBin_cases hb'
  exact .refl b

theorem incPending_buffers (b : Block) : Ensures (SameBuffers b) (incPending b) := by
  intro b' hb'
  obtain ⟨rfl, -⟩ := incPending_ok hb'
  exact .refl b

theorem updateContext_buffers (cfg : Config) (i : BitVec 16) (bin : Bit) (b : Block) :
    Ensures (SameBuffers b) (updateContext cfg i bin b) := by
  intro b' hb'
  obtain ⟨t, c, -, -, rfl⟩ := updateContext_ok_iff.mp hb'
  exact .refl b

/-! ### The encoder appends -/

theorem msbBits_mod {m n : Nat} (h : n ≤ m) (v : Nat) : msbBits (v % 2 ^ m) n = msbBits v n :=
  bitsValue_injective (by simp) (by
    rw [bitsValue_msbBits, bitsValue_msbBits, Nat.mod_mod_of_dvd _ (pow_dvd_pow 2 h)])

/-- A bit shifted into the partial byte follows the bits it held; this does not need the byte to be clear above them. -/
theorem msbBits_shiftIn {n : Nat} (h : n < 8) (part : Byte) (bit : Bit) :
    msbBits (BitVec.ofNat 8 (2 * part.toNat + bit.toNat)).toNat (n + 1) = msbBits part.toNat n ++ [bit] := by
  rw [BitVec.toNat_ofNat, msbBits_mod h, msbBits_snoc]

/-- 43_bit_sink.md R230: the written bit follows those before it, in a completed byte or in the partial one. -/
theorem writeBit_appends {cfg : Config} {bit : Bit} {b₀ b : Block} (h : Appends b₀ b) :
    Ensures (Appends b₀) (writeBit cfg bit b) := by
  intro b' hb'
  refine h.trans ?_
  have hlt := b.pcnt.isLt
  unfold writeBit at hb'
  dsimp only at hb'
  split at hb'
  · rename_i hfull
    split at hb'
    · cases hb'
    · cases hb'
      refine ⟨⟨List.prefix_append _ _, [bit], ?_⟩, rfl, rfl⟩
      have hbyte := msbBits_shiftIn (n := 7) (by omega) b.part bit
      simp only [Block.bits, bytesBits_append, bytesBits_cons, bytesBits_nil, List.append_nil, hfull, List.append_assoc]
      rw [hbyte]
      simp [msbBits]
  · rename_i hroom
    cases hb'
    refine ⟨⟨List.prefix_refl _, [bit], ?_⟩, rfl, rfl⟩
    have hne : b.pcnt.toNat ≠ 7 := fun he => hroom (BitVec.eq_of_toNat_eq he)
    have hsucc : (b.pcnt + 1).toNat = b.pcnt.toNat + 1 := by
      rw [BitVec.toNat_add, show (1 : BitVec 3).toNat = 1 from rfl]
      omega
    simp only [Block.bits, hsucc, msbBits_shiftIn hlt, List.append_assoc]

theorem writePending_succ (cfg : Config) (bit : Bit) (n : Nat) (b : Block) :
    writePending cfg bit (n + 1) b =
      (writeBit cfg bit b >>= fun b => writePending cfg bit n { b with pending := b.pending - 1 }) := by
  rw [writePending]
  cases writeBit cfg bit b <;> rfl

theorem writePending_appends {cfg : Config} {bit : Bit} {n : Nat} {b₀ b : Block} (h : Appends b₀ b) :
    Ensures (Appends b₀) (writePending cfg bit n b) := by
  induction n generalizing b with
  | zero => exact .ok h
  | succ n ih =>
    rw [writePending_succ]
    exact (writeBit_appends h).bind fun _ h => ih h

theorem putBit_appends {cfg : Config} {bit : Bit} {b₀ b : Block} (h : Appends b₀ b) :
    Ensures (Appends b₀) (putBit cfg bit b) := by
  rw [putBit_eq]
  exact .bind (.ite (.ok h) (writeBit_appends h)) fun _ h => writePending_appends h

theorem padByte_succ (cfg : Config) (n : Nat) (b : Block) :
    padByte cfg (n + 1) b = if b.pcnt = 0 then .ok b else writeBit cfg false b >>= padByte cfg n := by
  rw [padByte]
  cases writeBit cfg false b <;> rfl

theorem padByte_appends {cfg : Config} {n : Nat} {b₀ b : Block} (h : Appends b₀ b) :
    Ensures (Appends b₀) (padByte cfg n b) := by
  induction n generalizing b with
  | zero => exact .ok h
  | succ n ih =>
    rw [padByte_succ]
    exact .ite (.ok h) ((writeBit_appends h).bind fun _ h => ih h)

theorem renormBit_appends {cfg : Config} {b₀ b : Block} (h : Appends b₀ b) :
    Ensures (Appends b₀) (renormBit cfg b) := by
  refine .ite (putBit_appends h) (.ite ?_ ?_)
  · exact (h.via (writeLow_buffers _ _)).bind fun _ h => putBit_appends h
  · exact (h.via (writeLow_buffers _ _)).bind fun _ h => h.via (incPending_buffers _)

theorem renormE_appends {cfg : Config} {n : Nat} {b₀ b : Block} (h : Appends b₀ b) :
    Ensures (Appends b₀) (renormE cfg n b) := by
  induction n generalizing b with
  | zero => exact .ite (.ok h) (.error _)
  | succ n ih =>
    refine .ite (.ok h) ((renormBit_appends h).bind fun _ h => ?_)
    refine (h.via (writeRange_buffers _ _)).bind fun _ h => ?_
    exact (h.via (writeLow_buffers _ _)).bind fun _ h => ih h

theorem encodeDecision_appends {cfg : Config} {i : BitVec 16} {bin : Bit} {b₀ b : Block} (h : Appends b₀ b) :
    Ensures (Appends b₀) (encodeDecision cfg i bin b) := by
  refine .past fun c _ => (h.via (writeRange_buffers _ _)).bind fun _ h => .ite (.ok h) ?_
  exact (h.via (writeLow_buffers _ _)).bind fun _ h => h.via (writeRange_buffers _ _)

theorem encodeBypass_appends {cfg : Config} {bin : Bit} {b₀ b : Block} (h : Appends b₀ b) :
    Ensures (Appends b₀) (encodeBypass cfg bin b) := by
  refine .ite ?_ (.ite ?_ ?_)
  · exact (h.via (writeLow_buffers _ _)).bind fun _ h => putBit_appends h
  · exact (h.via (writeLow_buffers _ _)).bind fun _ h => putBit_appends h
  · exact (h.via (writeLow_buffers _ _)).bind fun _ h => h.via (incPending_buffers _)

theorem flushE_appends {cfg : Config} {b₀ b : Block} (h : Appends b₀ b) : Ensures (Appends b₀) (flushE cfg b) := by
  refine (h.via (writeRange_buffers _ _)).bind fun _ h => ?_
  refine (h.via (writeLow_buffers _ _)).bind fun _ h => ?_
  refine (h.via (writeRange_buffers _ _)).bind fun _ h => ?_
  refine (renormE_appends h).bind fun _ h => ?_
  refine (putBit_appends h).bind fun _ h => ?_
  refine (writeBit_appends h).bind fun _ h => ?_
  exact (writeBit_appends h).bind fun _ h => padByte_appends h

/-- 20_memory.md R72: the three commands of an encode session append to the output. -/
theorem ruleOf_appends {i : Instr} (hi : stateCheckOf i = some .encode) (cfg : Config) (b : Block) :
    Ensures (fun p => Appends b p.1) (ruleOf i cfg b) := by
  have h := (SameBuffers.refl b).appends
  cases i with
  | encReg ctx bin =>
    refine .past fun _ _ => .past fun _ _ => .past fun _ _ => ?_
    refine (h.via (countBin_buffers _)).bind fun _ h => ?_
    refine (encodeDecision_appends h).bind fun _ h => ?_
    refine (h.via (updateContext_buffers _ _ _ _)).bind fun _ h => ?_
    exact (renormE_appends h).bind fun _ h => .past fun _ _ => .ok h
  | encByp bin =>
    refine .past fun _ _ => .past fun _ _ => ?_
    refine (h.via (countBin_buffers _)).bind fun _ h => ?_
    exact (encodeBypass_appends h).bind fun _ h => .past fun _ _ => .ok h
  | encFin => exact .past fun _ _ => (flushE_appends h).bind fun _ h => .ok h
  | _ => cases hi

/-! ### The decoder moves on in the input -/

theorem readBit_advances {b₀ b : Block} (h : Advances b₀ b) : Ensures (fun p => Advances b₀ p.2) (readBit b) := by
  intro ⟨bit, b'⟩ hb'
  obtain ⟨-, rfl⟩ := readBit_ok_iff.mp hb'
  exact h.trans ⟨⟨rfl, rfl⟩, rfl, Nat.le_succ _⟩

theorem decodeDecision_advances {cfg : Config} {i : BitVec 16} {b₀ b : Block} (h : Advances b₀ b) :
    Ensures (fun p => Advances b₀ p.2) (decodeDecision cfg i b) := by
  refine .past fun c _ => (h.via (writeRange_buffers _ _)).bind fun _ h => .ite ?_ (.ok h)
  exact (h.via (writeLow_buffers _ _)).bind fun _ h => (h.via (writeRange_buffers _ _)).bind fun _ h => .ok h

theorem renormD_advances {n : Nat} {b₀ b : Block} (h : Advances b₀ b) : Ensures (Advances b₀) (renormD n b) := by
  induction n generalizing b with
  | zero => exact .ite (.ok h) (.error _)
  | succ n ih =>
    refine .ite (.ok h) ((h.via (writeRange_buffers _ _)).bind fun _ h => ?_)
    refine (readBit_advances h).bind fun _ h => ?_
    exact (h.via (writeLow_buffers _ _)).bind fun _ h => ih h

theorem decodeBypass_advances {b₀ b : Block} (h : Advances b₀ b) :
    Ensures (fun p => Advances b₀ p.2) (decodeBypass b) := by
  refine (readBit_advances h).bind fun _ h => .ite ?_ ?_
  · exact (h.via (writeLow_buffers _ _)).bind fun _ h => .ok h
  · exact (h.via (writeLow_buffers _ _)).bind fun _ h => .ok h

/-- 20_memory.md R73: the three commands of a decode session move on in the input, and complete in `DEC_ACTIVE` alone. -/
theorem ruleOf_advances {i : Instr} (hi : stateCheckOf i = some .decode) (cfg : Config) (b : Block) :
    Ensures (fun p => b.sstate = .decActive ∧ Advances b p.1) (ruleOf i cfg b) := by
  have h := (SameBuffers.refl b).advances
  cases i with
  | decReg ctx =>
    refine .past fun _ hstate => .past fun _ _ => .past fun _ _ => ?_
    refine (h.via (countBin_buffers _)).bind fun _ h => ?_
    refine (decodeDecision_advances h).bind fun _ h => ?_
    refine (h.via (updateContext_buffers _ _ _ _)).bind fun _ h => ?_
    exact (renormD_advances h).bind fun _ h => .past fun _ _ => .ok ⟨sstate_of_checkState_decode hstate, h⟩
  | decByp =>
    refine .past fun _ hstate => .past fun _ _ => ?_
    refine (h.via (countBin_buffers _)).bind fun _ h => ?_
    exact (decodeBypass_advances h).bind fun _ h => .past fun _ _ => .ok ⟨sstate_of_checkState_decode hstate, h⟩
  | decEnd => exact .past fun _ hstate => .ok ⟨sstate_of_checkState_decode hstate, h⟩
  | _ => cases hi

/-! ### The buffers over a command -/

/-- A command that opens or closes no session is an encode command, a decode command or one that writes nothing. -/
theorem stateCheckOf_cases {i : Instr} (hinit : isInit i = false) (habort : i ≠ .abort) :
    stateCheckOf i = some .encode ∨ stateCheckOf i = some .decode ∨ writesNothing i = true := by
  cases i with
  | encInit mode => cases hinit
  | decInit mode declared input => cases hinit
  | abort => exact absurd rfl habort
  | _ => simp [stateCheckOf, writesNothing]

/-- An error does not touch the buffers (60_exceptions.md R318). -/
theorem errorEntry_buffers (c : Cause) (b : Block) : SameBuffers b (errorEntry false c b) := by
  rw [errorEntry_running]
  exact .refl b

/-- All a command within a session can do to the buffers: leave them, append to the output as a command of the encoder,
or move on in the input as a command of the decoder that completes. -/
theorem exec_buffers {i : Instr} {s t : State} (hinit : isInit i = false) (habort : i ≠ .abort)
    (hexec : exec i s = .next t) :
    SameBuffers s.block t.block ∨
      (stateCheckOf i = some .encode ∧ Appends s.block t.block) ∨
      (stateCheckOf i = some .decode ∧ s.block.sstate = .decActive ∧ Advances s.block t.block ∧
        ∃ r0 r1 bout, t.response = some ⟨.ok, r0, r1, bout⟩) := by
  rw [exec_eq_execute, hinit] at hexec
  rcases execute_cases hexec with ⟨b, r, hr, rfl⟩ | ⟨c, -, rfl⟩
  · rcases stateCheckOf_cases hinit habort with hi | hi | hi
    · exact .inr (.inl ⟨hi, ruleOf_appends hi _ _ _ hr⟩)
    · obtain ⟨hactive, hadvances⟩ := ruleOf_advances hi _ _ _ hr
      exact .inr (.inr ⟨hi, hactive, hadvances, _, _, _, complete_response b r s⟩)
    · obtain rfl := ruleOf_keeps hi _ _ _ _ hr
      exact .inl (.refl _)
  · exact .inl (errorEntry_buffers c s.block)

/-- Settles O54: only the encoder's commands change the output, and what they change is its end. -/
theorem outputIsAppendOnly : Obligations.OutputIsAppendOnly := by
  unfold Obligations.OutputIsAppendOnly
  intro i s t hinit habort hexec
  rcases exec_buffers hinit habort hexec with ⟨hout, -⟩ | ⟨hi, ⟨hobuf, hbits⟩, -⟩ | ⟨-, -, ⟨hout, -⟩, -⟩
  · obtain ⟨hobuf, hbits⟩ := hout.extends
    exact ⟨hobuf, hbits, fun _ => hout⟩
  · exact ⟨hobuf, hbits, fun hne => absurd hi hne⟩
  · obtain ⟨hobuf, hbits⟩ := hout.extends
    exact ⟨hobuf, hbits, fun _ => hout⟩

/-- Settles O55: only a decode command that completes changes the position in the input, and it moves it forward. -/
theorem inputIsReadInOrder : Obligations.InputIsReadInOrder := by
  unfold Obligations.InputIsReadInOrder
  intro i s t hinit habort hexec
  rcases exec_buffers hinit habort hexec with
    ⟨-, hibuf, hipos⟩ | ⟨-, -, hibuf, hipos⟩ | ⟨hi, hactive, ⟨-, hibuf, hipos⟩, hok⟩
  · exact ⟨hibuf, hipos.ge, fun hne => absurd hipos hne⟩
  · exact ⟨hibuf, hipos.ge, fun hne => absurd hipos hne⟩
  · exact ⟨hibuf, hipos, fun _ => ⟨hi, hactive, hok⟩⟩

end Sys2Proof.Machine

namespace Sys2Proof.Machine

/-! ### The fields of a command word as numbers (30_encoding.md R101) -/

theorem opcField_toNat (w : Word) : (opcField w).toNat = w.toNat / 2 ^ 24 := by
  rw [opcField, BitVec.extractLsb'_toNat, Nat.shiftRight_eq_div_pow]
  omega

theorem hiField_toNat (w : Word) : (hiField w).toNat = w.toNat / 2 ^ 16 % 2 ^ 8 := by
  rw [hiField, BitVec.extractLsb'_toNat, Nat.shiftRight_eq_div_pow]

theorem catField_toNat (w : Word) : (catField w).toNat = w.toNat / 2 ^ 8 % 2 ^ 8 := by
  rw [catField, BitVec.extractLsb'_toNat, Nat.shiftRight_eq_div_pow]

theorem ctxField_toNat (w : Word) : (ctxField w).toNat = w.toNat % 2 ^ 16 := by
  rw [ctxField, BitVec.extractLsb'_toNat, Nat.shiftRight_zero]

theorem schField_toNat (w : Word) : (schField w).toNat = w.toNat % 8 := by
  rw [schField, BitVec.extractLsb'_toNat, Nat.shiftRight_zero]

theorem selField_toNat (w : Word) : (selField w).toNat = w.toNat % 16 := by
  rw [selField, BitVec.extractLsb'_toNat, Nat.shiftRight_zero]

theorem hcField_eq_decide (w : Word) : hcField w = decide (w.toNat % 2 = 1) := by
  rw [hcField, BitVec.getLsbD, Nat.testBit_zero]

/-! ### Reserved bits

The reserved bits of each format stand side by side (30_encoding.md R101), so that they are one field of the word. -/

/-- The lowest reserved bit of a format, and how many there are. -/
def reservedWindow : Format → Nat × Nat
  | .n => (0, 24)
  | .m => (0, 16)
  | .mc => (1, 15)
  | .c => (16, 8)
  | .s => (0, 8)
  | .b => (3, 21)
  | .t => (4, 20)

theorem and_ones_shiftLeft (x lo len : Nat) : x &&& (2 ^ len - 1) <<< lo = (x / 2 ^ lo % 2 ^ len) <<< lo := by
  refine Nat.eq_of_testBit_eq fun i => ?_
  rw [Nat.testBit_and, Nat.testBit_shiftLeft, Nat.testBit_shiftLeft, Nat.testBit_two_pow_sub_one,
    Nat.testBit_mod_two_pow, Nat.testBit_div_two_pow]
  by_cases h : lo ≤ i <;> simp [h, Bool.and_comm]

theorem reserved_toNat (f : Format) :
    f.reserved.toNat = (2 ^ (reservedWindow f).2 - 1) <<< (reservedWindow f).1 := by
  cases f <;> rfl

theorem and_reserved_eq_zero_iff (w : Word) (f : Format) :
    w &&& f.reserved = 0 ↔ w.toNat / 2 ^ (reservedWindow f).1 % 2 ^ (reservedWindow f).2 = 0 := by
  rw [← BitVec.toNat_inj, BitVec.toNat_and, reserved_toNat, and_ones_shiftLeft]
  simp [Nat.shiftLeft_eq]

/-! ### The opcode map (30_encoding.md R104) -/

theorem ofByte_eq_some_iff {opc : Byte} {op : Opcode} : Opcode.ofByte opc = some op ↔ opc = op.code := by
  constructor
  · intro h
    refine BitVec.eq_of_toNat_eq ?_
    unfold Opcode.ofByte at h
    split at h <;> cases h <;> assumption
  · rintro rfl
    cases op <;> rfl

theorem ofByte_eq_none_iff {opc : Byte} : Opcode.ofByte opc = none ↔ opc.toNat = 0 ∨ 14 < opc.toNat := by
  revert opc
  decide

/-! ### The decoder, check by check (30_encoding.md R107) -/

theorem decode_of_ofByte_none {c : Command} (h : Opcode.ofByte (opcField c.cmd) = none) :
    decode c = .error .badOpcode := by
  simp [decode, h]

theorem decode_of_opcField {c : Command} {op : Opcode} (h : opcField c.cmd = op.code) :
    decode c = if c.cmd &&& op.format.reserved = 0 then decodeFields op c else .error .reservedBits := by
  simp [decode, ofByte_eq_some_iff.mpr h]

/-- A command is decoded from its fields when its word passes the first two checks. -/
theorem decode_eq_ok_iff {c : Command} {i : Instr} :
    decode c = .ok i ↔
      ∃ op, opcField c.cmd = op.code ∧ c.cmd &&& op.format.reserved = 0 ∧ decodeFields op c = .ok i := by
  constructor
  · intro h
    cases hop : Opcode.ofByte (opcField c.cmd) with
    | none => simp [decode_of_ofByte_none hop] at h
    | some op =>
      have hcode := ofByte_eq_some_iff.mp hop
      rw [decode_of_opcField hcode] at h
      split at h
      next hreserved => exact ⟨op, hcode, hreserved, h⟩
      next => cases h
  · rintro ⟨op, hcode, hreserved, hfields⟩
    rw [decode_of_opcField hcode, if_pos hreserved, hfields]

/-! #### The last two checks: the scheme of `BIN` and `DEBIN`, the selector of `STAT` -/

theorem decodeBin_checks (c : Command) :
    if 5 ≤ c.cmd.toNat % 8 then decodeBin c = .error .badScheme else ∃ i, decodeBin c = .ok i := by
  rw [← schField_toNat]
  unfold decodeBin
  rcases (schField c.cmd).toNat with _ | _ | _ | _ | _ | n <;> simp

theorem decodeDebin_checks (c : Command) :
    if 5 ≤ c.cmd.toNat % 8 then decodeDebin c = .error .badScheme else ∃ i, decodeDebin c = .ok i := by
  rw [← schField_toNat]
  unfold decodeDebin
  rcases (schField c.cmd).toNat with _ | _ | _ | _ | _ | n <;> simp

theorem decodeStat_checks (c : Command) :
    if 8 ≤ c.cmd.toNat % 16 then decodeStat c = .error .badSelector else ∃ i, decodeStat c = .ok i := by
  rw [← selField_toNat]
  unfold decodeStat
  split <;> simp_all

theorem decodeFields_checks (op : Opcode) (c : Command) :
    if (op = .bin ∨ op = .debin) ∧ 5 ≤ c.cmd.toNat % 8 then decodeFields op c = .error .badScheme
    else if op = .stat ∧ 8 ≤ c.cmd.toNat % 16 then decodeFields op c = .error .badSelector
    else ∃ i, decodeFields op c = .ok i := by
  cases op
  case bin => simpa [decodeFields] using decodeBin_checks c
  case debin => simpa [decodeFields] using decodeDebin_checks c
  case stat => simpa [decodeFields] using decodeStat_checks c
  all_goals simp [decodeFields]

/-! ### The encoder (30_encoding.md R110) -/

/-- The command word's bits 23:0 as a number, the way 30_encoding.md R110 writes them. -/
def fieldsNat : Instr → Nat
  | .encInit mode => 2 ^ 16 * mode.toNat
  | .encReg ctx _ | .decReg ctx | .ctxRd ctx => ctx.toNat
  | .decInit mode declared _ => 2 ^ 16 * mode.toNat + declared.isSome.toNat
  | .ctxSel se cat _ => 2 ^ 16 * se.toNat + 2 ^ 8 * cat.toNat
  | .binTu _ _ | .debinTu _ _ => 1
  | .binEgu _ _ | .debinEgu _ _ => 2
  | .binEgs _ _ | .debinEgs _ _ => 3
  | .binFl _ _ | .debinFl _ _ => 4
  | .stat sel => sel.toNat
  | .encByp _ | .encFin | .decByp | .decEnd | .binU _ | .debinU _ | .abort => 0

theorem zero_append_toNat {m n : Nat} (y : BitVec n) : (0#m ++ y).toNat = y.toNat := by
  rw [toNat_append_eq, BitVec.toNat_zero, Nat.mul_zero, Nat.zero_add]

theorem append_zero_toNat {m n : Nat} (x : BitVec m) : (x ++ 0#n).toNat = 2 ^ n * x.toNat := by
  rw [toNat_append_eq, BitVec.toNat_zero, Nat.add_zero]

theorem fields_toNat (i : Instr) : i.fields.toNat = fieldsNat i := by
  cases i
  case encInit mode => exact append_zero_toNat mode
  case encReg ctx _ => exact zero_append_toNat ctx
  case decReg ctx => exact zero_append_toNat ctx
  case ctxRd ctx => exact zero_append_toNat ctx
  case stat sel => exact zero_append_toNat sel
  case decInit mode declared _ =>
    calc ((mode ++ 0#15) ++ BitVec.ofBool declared.isSome).toNat
      _ = 2 ^ 1 * (2 ^ 15 * mode.toNat) + declared.isSome.toNat := by
        rw [toNat_append_eq, append_zero_toNat, BitVec.toNat_ofBool]
      _ = 2 ^ 16 * mode.toNat + declared.isSome.toNat := by omega
  case ctxSel se cat _ =>
    calc ((se ++ cat) ++ 0#8).toNat
      _ = 2 ^ 8 * (2 ^ 8 * se.toNat + cat.toNat) := by rw [append_zero_toNat, toNat_append_eq]
      _ = 2 ^ 16 * se.toNat + 2 ^ 8 * cat.toNat := by omega
  all_goals rfl

theorem encodeWord_toNat (i : Instr) : (encodeWord i).toNat = 2 ^ 24 * i.opcode.code.toNat + fieldsNat i := by
  rw [← fields_toNat]
  exact toNat_append_eq _ _

@[simp] theorem encode_cmd (i : Instr) : (encode i).cmd = encodeWord i := rfl
@[simp] theorem encode_a (i : Instr) : (encode i).a = i.operandA := rfl
@[simp] theorem encode_b (i : Instr) : (encode i).b = i.operandB := rfl
@[simp] theorem encode_list (i : Instr) : (encode i).list = i.operandList := rfl

theorem opcField_encodeWord (i : Instr) : opcField (encodeWord i) = i.opcode.code :=
  Laws.EncodedOpcode.opcField_append _ _

/-- The encoder leaves every reserved bit 0 (30_encoding.md R101). -/
theorem encodeWord_reserved (i : Instr) : encodeWord i &&& i.opcode.format.reserved = 0 := by
  rw [and_reserved_eq_zero_iff, encodeWord_toNat]
  cases i <;> simp only [Instr.opcode, Opcode.format, reservedWindow, fieldsNat]
  case decInit mode declared _ =>
    have hbit := declared.isSome.toNat_lt
    omega
  all_goals omega

theorem hiField_encodeWord (i : Instr) : (hiField (encodeWord i)).toNat = fieldsNat i / 2 ^ 16 % 2 ^ 8 := by
  rw [hiField_toNat, encodeWord_toNat]
  omega

theorem catField_encodeWord (i : Instr) : (catField (encodeWord i)).toNat = fieldsNat i / 2 ^ 8 % 2 ^ 8 := by
  rw [catField_toNat, encodeWord_toNat]
  omega

theorem ctxField_encodeWord (i : Instr) : (ctxField (encodeWord i)).toNat = fieldsNat i % 2 ^ 16 := by
  rw [ctxField_toNat, encodeWord_toNat]
  omega

theorem schField_encodeWord (i : Instr) : (schField (encodeWord i)).toNat = fieldsNat i % 8 := by
  rw [schField_toNat, encodeWord_toNat]
  omega

theorem selField_encodeWord (i : Instr) : (selField (encodeWord i)).toNat = fieldsNat i % 16 := by
  rw [selField_toNat, encodeWord_toNat]
  omega

theorem hcField_encodeWord (i : Instr) : hcField (encodeWord i) = decide (fieldsNat i % 2 = 1) := by
  have hparity : (encodeWord i).toNat % 2 = fieldsNat i % 2 := by
    rw [encodeWord_toNat]
    omega
  rw [hcField_eq_decide, hparity]

/-! #### The fields of an encoded command are the values it was encoded from -/

@[simp] theorem hiField_encInit (mode : Byte) : hiField (encodeWord (.encInit mode)) = mode := by
  rw [← BitVec.toNat_inj, hiField_encodeWord, fieldsNat]
  omega

@[simp] theorem hiField_decInit (mode : Byte) (declared : Option Word) (input : List Byte) :
    hiField (encodeWord (.decInit mode declared input)) = mode := by
  have hbit := declared.isSome.toNat_lt
  rw [← BitVec.toNat_inj, hiField_encodeWord, fieldsNat]
  omega

@[simp] theorem hcField_decInit (mode : Byte) (declared : Option Word) (input : List Byte) :
    hcField (encodeWord (.decInit mode declared input)) = declared.isSome := by
  have hparity : fieldsNat (.decInit mode declared input) % 2 = declared.isSome.toNat := by
    have hbit := declared.isSome.toNat_lt
    rw [fieldsNat]
    omega
  rw [hcField_encodeWord, hparity]
  cases declared <;> rfl

@[simp] theorem hiField_ctxSel (se cat : Byte) (binIdx : Word) : hiField (encodeWord (.ctxSel se cat binIdx)) = se := by
  rw [← BitVec.toNat_inj, hiField_encodeWord, fieldsNat]
  omega

@[simp] theorem catField_ctxSel (se cat : Byte) (binIdx : Word) :
    catField (encodeWord (.ctxSel se cat binIdx)) = cat := by
  rw [← BitVec.toNat_inj, catField_encodeWord, fieldsNat]
  omega

/-- The context index of the three commands of the format C. -/
theorem ctxField_of_fieldsNat {i : Instr} {ctx : BitVec 16} (h : fieldsNat i = ctx.toNat) :
    ctxField (encodeWord i) = ctx := by
  rw [← BitVec.toNat_inj, ctxField_encodeWord, h]
  omega

@[simp] theorem ctxField_encReg (ctx : BitVec 16) (bin : Word) : ctxField (encodeWord (.encReg ctx bin)) = ctx :=
  ctxField_of_fieldsNat rfl

@[simp] theorem ctxField_decReg (ctx : BitVec 16) : ctxField (encodeWord (.decReg ctx)) = ctx :=
  ctxField_of_fieldsNat rfl

@[simp] theorem ctxField_ctxRd (ctx : BitVec 16) : ctxField (encodeWord (.ctxRd ctx)) = ctx :=
  ctxField_of_fieldsNat rfl

@[simp] theorem selField_stat (sel : BitVec 4) : selField (encodeWord (.stat sel)) = sel := by
  rw [← BitVec.toNat_inj, selField_encodeWord, fieldsNat]
  omega

theorem decodeFields_encode {i : Instr} (hwf : i.wellFormed = true) : decodeFields i.opcode (encode i) = .ok i := by
  cases i with
  | encInit | decReg | ctxRd => simp [Instr.opcode, decodeFields]
  | encReg | ctxSel => simp [Instr.opcode, decodeFields, Instr.operandA]
  | decInit mode declared input =>
    cases declared <;>
      simp [Instr.opcode, decodeFields, Instr.operandA, Instr.operandList, ListOperand.asBytes]
  | binU | binTu | binEgu | binEgs | binFl =>
    simp [Instr.opcode, decodeFields, decodeBin, schField_encodeWord, fieldsNat, Instr.operandA, Instr.operandB]
  | debinU | debinTu | debinEgu | debinEgs | debinFl =>
    simp [Instr.opcode, decodeFields, decodeDebin, schField_encodeWord, fieldsNat, Instr.operandB, Instr.operandList,
      ListOperand.asWords]
  | stat sel =>
    have hsel : sel.toNat < 8 := of_decide_eq_true hwf
    simp [Instr.opcode, decodeFields, decodeStat, hsel]
  | encByp | encFin | decByp | decEnd | abort => rfl

theorem decode_encode {i : Instr} (hwf : i.wellFormed = true) : decode (encode i) = .ok i :=
  decode_eq_ok_iff.mpr ⟨i.opcode, opcField_encodeWord i, encodeWord_reserved i, decodeFields_encode hwf⟩

/-- Settles O8: the encoder's word passes every check, and each field gives back the value it was made from. -/
theorem decodeOfEncodeIsTheCommand : Obligations.DecodeOfEncodeIsTheCommand := by
  unfold Obligations.DecodeOfEncodeIsTheCommand
  intro i hwf
  exact decode_encode hwf

/-! ### What a legal word decodes to -/

theorem decodeBin_ok {c : Command} {i : Instr} (h : decodeBin c = .ok i) :
    i.opcode = .bin ∧ fieldsNat i = c.cmd.toNat % 8 ∧ i.wellFormed = true := by
  rw [← schField_toNat]
  unfold decodeBin at h
  split at h <;> cases h
  all_goals exact ⟨rfl, Eq.symm ‹_›, rfl⟩

theorem decodeDebin_ok {c : Command} {i : Instr} (h : decodeDebin c = .ok i) :
    i.opcode = .debin ∧ fieldsNat i = c.cmd.toNat % 8 ∧ i.wellFormed = true := by
  rw [← schField_toNat]
  unfold decodeDebin at h
  split at h <;> cases h
  all_goals exact ⟨rfl, Eq.symm ‹_›, rfl⟩

theorem decodeStat_ok {c : Command} {i : Instr} (h : decodeStat c = .ok i) :
    i.opcode = .stat ∧ fieldsNat i = c.cmd.toNat % 16 ∧ i.wellFormed = true := by
  rw [← selField_toNat]
  unfold decodeStat at h
  split at h <;> cases h
  exact ⟨rfl, rfl, decide_eq_true ‹_›⟩

/-- The command read has the opcode and, when the reserved bits are 0, all other bits of its word. -/
theorem decodeFields_ok {op : Opcode} {c : Command} {i : Instr} (hreserved : c.cmd &&& op.format.reserved = 0)
    (h : decodeFields op c = .ok i) :
    i.opcode = op ∧ fieldsNat i = c.cmd.toNat % 2 ^ 24 ∧ i.wellFormed = true := by
  rw [and_reserved_eq_zero_iff] at hreserved
  cases op <;> simp only [Opcode.format, reservedWindow] at hreserved
  case bin =>
    obtain ⟨hop, hfields, hwf⟩ := decodeBin_ok h
    exact ⟨hop, by omega, hwf⟩
  case debin =>
    obtain ⟨hop, hfields, hwf⟩ := decodeDebin_ok h
    exact ⟨hop, by omega, hwf⟩
  case stat =>
    obtain ⟨hop, hfields, hwf⟩ := decodeStat_ok h
    exact ⟨hop, by omega, hwf⟩
  case decInit =>
    cases h
    refine ⟨rfl, ?_, rfl⟩
    have hhc : (if hcField c.cmd then some c.a else none).isSome.toNat = c.cmd.toNat % 2 := by
      rw [hcField_eq_decide]
      rcases Nat.mod_two_eq_zero_or_one c.cmd.toNat with hbit | hbit <;> simp [hbit]
    rw [fieldsNat, hiField_toNat, hhc]
    omega
  all_goals
    cases h
    refine ⟨rfl, ?_, rfl⟩
    simp only [fieldsNat, hiField_toNat, catField_toNat, ctxField_toNat]
    omega

/-- A command that decodes has the word that encodes what it decodes to. -/
theorem encodeWord_of_decode {c : Command} {i : Instr} (h : decode c = .ok i) :
    encodeWord i = c.cmd ∧ i.wellFormed = true := by
  obtain ⟨op, hcode, hreserved, hfields⟩ := decode_eq_ok_iff.mp h
  obtain ⟨rfl, hlow, hwf⟩ := decodeFields_ok hreserved hfields
  refine ⟨BitVec.eq_of_toNat_eq ?_, hwf⟩
  rw [encodeWord_toNat, ← hcode, opcField_toNat, hlow, Nat.div_add_mod]

/-- Settles O9: opcode, fields and reserved bits are all the bits of a word. -/
theorem decodedCommandEncodesToItsWord : Obligations.DecodedCommandEncodesToItsWord := by
  unfold Obligations.DecodedCommandEncodesToItsWord
  intro c i hdecode
  exact encodeWord_of_decode hdecode

/-! ### The table of masks and matches (30_encoding.md R109) -/

theorem rowMatches_iff {w : Word} {row : Word × Word} : rowMatches w row = true ↔ w &&& row.1 = row.2 :=
  beq_iff_eq

/-- Any two rows ask for different values of a bit that is in both masks. -/
theorem opcodeRows_clash : opcodeRows.Pairwise fun r r' => r.2 &&& r'.1 ≠ r'.2 &&& r.1 := by
  decide

theorem match_and_mask_eq {w : Word} {r r' : Word × Word} (h : rowMatches w r = true) (h' : rowMatches w r' = true) :
    r.2 &&& r'.1 = r'.2 &&& r.1 := by
  rw [← rowMatches_iff.mp h, ← rowMatches_iff.mp h', BitVec.and_assoc, BitVec.and_assoc, BitVec.and_comm r.1]

theorem not_rowMatches_of_lt {w : Word} {k j : Nat} {r r' : Word × Word} (hlt : k < j)
    (hk : opcodeRows[k]? = some r) (hj : opcodeRows[j]? = some r') (h : rowMatches w r = true) :
    rowMatches w r' ≠ true := by
  obtain ⟨hkl, rfl⟩ := List.getElem?_eq_some_iff.mp hk
  obtain ⟨hjl, rfl⟩ := List.getElem?_eq_some_iff.mp hj
  exact fun h' => List.pairwise_iff_getElem.mp opcodeRows_clash k j hkl hjl hlt (match_and_mask_eq h h')

/-- A word matches at most one row. -/
theorem row_unique {w : Word} {k j : Nat} {r r' : Word × Word} (hk : opcodeRows[k]? = some r)
    (hj : opcodeRows[j]? = some r') (h : rowMatches w r = true) (h' : rowMatches w r' = true) : k = j := by
  rcases Nat.lt_trichotomy k j with hlt | heq | hlt
  · exact absurd h' (not_rowMatches_of_lt hlt hk hj h)
  · exact heq
  · exact absurd h (not_rowMatches_of_lt hlt hj hk h')

theorem and_opcode_mask (w : Word) : w &&& 0xFF000000 = opcField w ++ 0#24 := by
  have hmask : (0xFF000000 : Word).toNat = (2 ^ 8 - 1) <<< 24 := rfl
  have hopc := opcField_toNat w
  have hbyte : w.toNat / 2 ^ 24 % 2 ^ 8 = (opcField w).toNat := by omega
  rw [← BitVec.toNat_inj, BitVec.toNat_and, hmask, and_ones_shiftLeft, append_zero_toNat, Nat.shiftLeft_eq, hbyte,
    Nat.mul_comm]

/-- The row of an opcode whose fields are all free: its mask is the opcode byte and the reserved bits. -/
theorem rowMatches_of_opcField {op : Opcode} {w : Word} (hcode : opcField w = op.code)
    (hreserved : w &&& op.format.reserved = 0) :
    rowMatches w (0xFF000000 ||| op.format.reserved, op.code ++ 0#24) = true := by
  rw [rowMatches_iff, BitVec.and_or_distrib_left, hreserved, and_opcode_mask, hcode]
  exact BitVec.or_zero

theorem rowMatches_stat {sel : BitVec 4} (h : sel.toNat < 8) :
    rowMatches (encodeWord (.stat sel)) (0xFFFFFFF8, 0x0E000000) = true := by
  revert sel
  decide

/-- Every well-formed command's word matches its row. -/
theorem encodeWord_matches_row {i : Instr} (hwf : i.wellFormed = true) :
    ∃ row, opcodeRows[i.row]? = some row ∧ rowMatches (encodeWord i) row = true := by
  have hfree := rowMatches_of_opcField (opcField_encodeWord i) (encodeWord_reserved i)
  cases i <;> dsimp only [Instr.opcode] at hfree
  case stat sel => exact ⟨_, rfl, rowMatches_stat (of_decide_eq_true hwf)⟩
  case binU | binTu | binEgu | binEgs | binFl | debinU | debinTu | debinEgu | debinEgs | debinFl =>
    refine ⟨_, rfl, ?_⟩
    dsimp only [encodeWord, Instr.opcode, Instr.fields]
    decide
  all_goals
    refine ⟨_, ?_, hfree⟩
    dsimp only [Instr.row]
    decide

/-- The bits of a word that its row's mask fixes, for a row of an opcode: the opcode, the reserved bits, the scheme, and
the bit that tells the selectors 0 to 7 of `STAT` from the others. -/
abbrev RowFixes (row : Word × Word) (op : Opcode) : Prop :=
  opcField row.1 = BitVec.allOnes 8 ∧ opcField row.2 = op.code ∧
    row.1 &&& op.format.reserved = op.format.reserved ∧ row.2 &&& op.format.reserved = 0 ∧
    (op = .bin ∨ op = .debin → schField row.1 = BitVec.allOnes 3 ∧ (schField row.2).toNat < 5) ∧
    (op = .stat → selField row.1 = 8 ∧ selField row.2 = 0)

theorem opcodeRows_fix : ∀ row ∈ opcodeRows, ∃ op, RowFixes row op := by
  simp only [opcodeRows, List.forall_mem_cons]
  exact ⟨⟨.encInit, by decide⟩, ⟨.encReg, by decide⟩, ⟨.encByp, by decide⟩, ⟨.encFin, by decide⟩, ⟨.decInit, by decide⟩,
    ⟨.decReg, by decide⟩, ⟨.decByp, by decide⟩, ⟨.decEnd, by decide⟩, ⟨.ctxSel, by decide⟩, ⟨.ctxRd, by decide⟩,
    ⟨.bin, by decide⟩, ⟨.bin, by decide⟩, ⟨.bin, by decide⟩, ⟨.bin, by decide⟩, ⟨.bin, by decide⟩,
    ⟨.debin, by decide⟩, ⟨.debin, by decide⟩, ⟨.debin, by decide⟩, ⟨.debin, by decide⟩, ⟨.debin, by decide⟩,
    ⟨.abort, by decide⟩, ⟨.stat, by decide⟩, List.forall_mem_nil _⟩

theorem selector_lt_of_and {sel : BitVec 4} (h : sel &&& 8 = 0) : sel.toNat < 8 := by
  revert sel
  decide

/-- A field that lies whole in the mask is the match's. -/
theorem field_eq_of_and_eq {w mask m : Word} {start len : Nat} (h : w &&& mask = m)
    (hfull : mask.extractLsb' start len = BitVec.allOnes len) : w.extractLsb' start len = m.extractLsb' start len := by
  rw [← h, BitVec.extractLsb'_and, hfull, BitVec.and_allOnes]

/-- A word that matches a row passes every check. -/
theorem decode_of_rowMatches {c : Command} {row : Word × Word} (hrow : row ∈ opcodeRows)
    (h : rowMatches c.cmd row = true) : ∃ i, decode c = .ok i := by
  obtain ⟨op, hopc, hcode, hmask, hzero, hscheme, hselector⟩ := opcodeRows_fix row hrow
  rw [rowMatches_iff] at h
  have hop : opcField c.cmd = op.code := (field_eq_of_and_eq h hopc).trans hcode
  have hreserved : c.cmd &&& op.format.reserved = 0 := by
    rw [← hzero, ← h, BitVec.and_assoc, hmask]
  have hsch : ¬ ((op = .bin ∨ op = .debin) ∧ 5 ≤ c.cmd.toNat % 8) := by
    rintro ⟨hbin, hlarge⟩
    obtain ⟨hfull, hsmall⟩ := hscheme hbin
    have hfield : schField c.cmd = schField row.2 := field_eq_of_and_eq h hfull
    rw [← schField_toNat, hfield] at hlarge
    omega
  have hsel : ¬ (op = .stat ∧ 8 ≤ c.cmd.toNat % 16) := by
    rintro ⟨hstat, hlarge⟩
    obtain ⟨height, hclear⟩ := hselector hstat
    have hfield : selField c.cmd &&& selField row.1 = selField row.2 :=
      BitVec.extractLsb'_and.symm.trans (congrArg selField h)
    rw [height, hclear] at hfield
    rw [← selField_toNat] at hlarge
    exact absurd (selector_lt_of_and hfield) (Nat.not_lt.mpr hlarge)
  have hchecks := decodeFields_checks op c
  rw [if_neg hsch, if_neg hsel] at hchecks
  obtain ⟨i, hi⟩ := hchecks
  exact ⟨i, decode_eq_ok_iff.mpr ⟨op, hop, hreserved, hi⟩⟩

/-- Settles O10: a legal word is its command's encoding, which matches the command's row; no two rows share a word; and a
word that matches a row passes every check. -/
theorem legalWordMatchesExactlyItsRow : Obligations.LegalWordMatchesExactlyItsRow := by
  unfold Obligations.LegalWordMatchesExactlyItsRow
  refine ⟨fun a b l => decode_of_ofByte_none (show Opcode.ofByte (opcField 0) = none from rfl), ?_, ?_⟩
  · intro c i hdecode
    obtain ⟨hword, hwf⟩ := encodeWord_of_decode hdecode
    obtain ⟨row, hrow, hmatches⟩ := encodeWord_matches_row hwf
    rw [hword] at hmatches
    exact ⟨row, hrow, hmatches, fun k other hk hother => row_unique hk hrow hother hmatches⟩
  · intro c e row hdecode hrow
    refine Bool.eq_false_iff.mpr fun hmatches => ?_
    obtain ⟨i, hi⟩ := decode_of_rowMatches hrow hmatches
    rw [hi] at hdecode
    cases hdecode

/-! ### Illegal words (30_encoding.md R107) -/

theorem step_of_decode_error {s t : State} {c : Command} {e : Illegal} (hfetch : fetch s = some (c, t))
    (hdecode : decode c = .error e) : step s = .next (takeError false (Cause.ofIllegal e) t) := by
  simp [step, hfetch, hdecode, executeIllegal]

theorem ofIllegal_errorClass (e : Illegal) : (Cause.ofIllegal e).errorClass = .illegalCommand := by
  cases e <;> rfl

/-- Settles O4: an illegal word takes the error of its cause, as an error of a command other than an `INIT`. -/
theorem illegalWordTakesTheError : Obligations.IllegalWordTakesTheError := by
  unfold Obligations.IllegalWordTakesTheError
  intro s c rest e hcommands hdecode
  refine ⟨(Cause.ofIllegal e).code, by rintro rfl; rfl, by rintro rfl; rfl, by rintro rfl; rfl, by rintro rfl; rfl, ?_⟩
  rw [step_of_decode_error (fetch_of_commands_cons hcommands) hdecode, takeError, errorEntry_running,
    ofIllegal_errorClass]
  rfl

theorem step_answers_illegal {c : Command} {e : Illegal} (hdecode : decode c = .error e) :
    (Cause.ofIllegal e).errorClass = .illegalCommand ∧ ∀ (s : State) (rest : List Command), s.commands = c :: rest →
      ∃ t, step s = .next t ∧ t.response = some ⟨.error (Cause.ofIllegal e), 0, 0, []⟩ :=
  ⟨ofIllegal_errorClass e, fun _ _ hcommands =>
    ⟨_, step_of_decode_error (fetch_of_commands_cons hcommands) hdecode, takeError_response _ _ _⟩⟩

/-- The reserved bits by the opcode's number. -/
theorem format_reserved_eq (op : Opcode) :
    op.format.reserved =
      if op.code.toNat ∈ [3, 4, 7, 8, 13] then 0x00FFFFFF
      else if op.code.toNat = 1 then 0x0000FFFF
      else if op.code.toNat = 5 then 0x0000FFFE
      else if op.code.toNat ∈ [2, 6, 10] then 0x00FF0000
      else if op.code.toNat = 9 then 0x000000FF
      else if op.code.toNat ∈ [11, 12] then 0x00FFFFF8
      else 0x00FFFFF0 := by
  cases op <;> rfl

theorem code_eq_bin_or_debin_iff (op : Opcode) : op.code.toNat = 11 ∨ op.code.toNat = 12 ↔ op = .bin ∨ op = .debin := by
  cases op <;> decide

theorem code_eq_stat_iff (op : Opcode) : op.code.toNat = 14 ↔ op = .stat := by
  cases op <;> decide

theorem code_legal (op : Opcode) : ¬ (op.code.toNat = 0 ∨ 14 < op.code.toNat) := by
  cases op <;> decide

/-- Settles O11: the decoder's checks, told by the opcode's number. -/
theorem illegalWordsAreRefusedInOrder : Obligations.IllegalWordsAreRefusedInOrder := by
  unfold Obligations.IllegalWordsAreRefusedInOrder
  intro c
  dsimp only
  rw [← opcField_toNat]
  cases hop : Opcode.ofByte (opcField c.cmd) with
  | none =>
    rw [if_pos (ofByte_eq_none_iff.mp hop)]
    exact step_answers_illegal (decode_of_ofByte_none hop)
  | some op =>
    have hcode := ofByte_eq_some_iff.mp hop
    have hdecode := decode_of_opcField hcode
    rw [hcode, if_neg (code_legal op), ← format_reserved_eq]
    simp only [code_eq_bin_or_debin_iff, code_eq_stat_iff]
    by_cases hreserved : c.cmd &&& op.format.reserved = 0
    · rw [if_neg (not_not.mpr hreserved)]
      rw [if_pos hreserved] at hdecode
      have hchecks := decodeFields_checks op c
      rw [← hdecode] at hchecks
      split_ifs at hchecks ⊢
      · exact step_answers_illegal hchecks
      · exact step_answers_illegal hchecks
      · exact hchecks
    · rw [if_pos hreserved]
      rw [if_neg hreserved] at hdecode
      exact step_answers_illegal hdecode

/-! ### Ignored operands (30_encoding.md R103) -/

theorem decodeBin_congr {c d : Command} (hcmd : c.cmd = d.cmd) (ha : c.a = d.a)
    (hb : c.cmd.toNat % 8 ≠ 0 → c.b = d.b) : decodeBin c = decodeBin d := by
  rw [← schField_toNat] at hb
  unfold decodeBin
  rw [← hcmd, ← ha]
  cases hsch : (schField c.cmd).toNat with
  | zero => rfl
  | succ n => rw [hb (by omega)]

theorem decodeDebin_congr {c d : Command} (hcmd : c.cmd = d.cmd) (hb : c.cmd.toNat % 8 ≠ 0 → c.b = d.b)
    (hlist : c.list = d.list) : decodeDebin c = decodeDebin d := by
  rw [← schField_toNat] at hb
  unfold decodeDebin
  rw [← hcmd, ← hlist]
  cases hsch : (schField c.cmd).toNat with
  | zero => rfl
  | succ n => rw [hb (by omega)]

theorem decodeFields_congr {op : Opcode} {c d : Command} (hcmd : c.cmd = d.cmd)
    (ha : op.code.toNat ∈ [2, 3, 9, 11] → c.a = d.a)
    (hcount : op.code.toNat = 5 → c.cmd.toNat % 2 = 1 → c.a = d.a)
    (hb : op.code.toNat ∈ [11, 12] → c.cmd.toNat % 8 ≠ 0 → c.b = d.b)
    (hlist : op.code.toNat ∈ [5, 12] → c.list = d.list) : decodeFields op c = decodeFields op d := by
  cases op <;> simp only [decodeFields, decodeStat, ← hcmd]
  case encReg => rw [ha (by decide)]
  case encByp => rw [ha (by decide)]
  case ctxSel => rw [ha (by decide)]
  case decInit =>
    rw [hlist (by decide)]
    cases hhc : hcField c.cmd with
    | false => rfl
    | true =>
      rw [hcField_eq_decide, decide_eq_true_iff] at hhc
      rw [hcount rfl hhc]
  case bin => exact decodeBin_congr hcmd (ha (by decide)) (hb (by decide))
  case debin => exact decodeDebin_congr hcmd (hb (by decide)) (hlist (by decide))

/-- Settles O12: the first two checks look at the command word alone, and the fields read no ignored operand. -/
theorem ignoredOperandsHaveNoEffect : Obligations.IgnoredOperandsHaveNoEffect := by
  unfold Obligations.IgnoredOperandsHaveNoEffect
  intro c d hcmd ha hcount hb hlist
  rw [← opcField_toNat] at ha hcount hb hlist
  cases hop : Opcode.ofByte (opcField c.cmd) with
  | none => rw [decode_of_ofByte_none hop, decode_of_ofByte_none (hcmd ▸ hop)]
  | some op =>
    have hcode := ofByte_eq_some_iff.mp hop
    rw [hcode] at ha hcount hb hlist
    rw [decode_of_opcField hcode, decode_of_opcField (hcmd ▸ hcode), ← hcmd,
      decodeFields_congr hcmd ha hcount hb hlist]

/-! ### Words written out (30_encoding.md R112) -/

/-- Settles O7: each legal example is the encoding of its command; the sixth word has bit 16 set, which the format C
reserves. -/
theorem exampleWordsDecode : Obligations.ExampleWordsDecode := by
  unfold Obligations.ExampleWordsDecode
  exact ⟨decode_encode (i := .encReg 3 0) rfl, decode_encode (i := .ctxSel 0 1 5) rfl,
    decode_encode (i := .binEgs 0xFFFFFFFD 1) rfl, decode_encode (i := .decInit 0 (some 4) [0x5C, 0x7F, 0xC0]) rfl,
    decode_encode (i := .stat 4) rfl, by decide, decode_encode (i := .encInit 7) rfl,
    decode_encode (i := .debinEgu 2 [1, 0]) rfl⟩

end Sys2Proof.Machine

namespace Sys2Proof.Machine

/-! ### Lists of ones

A bin list is a run of ones, or a run of ones, a zero and the bins after it. Every scheme but the fixed-length one reads
its list this way. -/

@[simp] theorem ones_length (n : Nat) : (ones n).length = n := List.length_replicate

theorem ones_succ (n : Nat) : ones (n + 1) = true :: ones n := rfl

theorem eq_ones_or_ones_false (l : List Bit) : ∃ m, l = ones m ∨ ∃ s, l = ones m ++ false :: s := by
  induction l with
  | nil => exact ⟨0, .inl rfl⟩
  | cons b l ih =>
    obtain ⟨m, hm⟩ := ih
    cases b with
    | false => exact ⟨0, .inr ⟨l, rfl⟩⟩
    | true =>
      refine ⟨m + 1, hm.imp ?_ ?_⟩
      · rintro rfl
        rfl
      · rintro ⟨s, rfl⟩
        exact ⟨s, rfl⟩

theorem prefix_ones_iff {l : List Bit} {m : Nat} : l <+: ones m ↔ ∃ j ≤ m, l = ones j := by
  refine ⟨fun h => ⟨l.length, by simpa using h.length_le, ?_⟩, ?_⟩
  · exact List.eq_replicate_iff.mpr ⟨rfl, fun b hb => List.eq_of_mem_replicate (h.subset hb)⟩
  · rintro ⟨j, hj, rfl⟩
    exact ⟨ones (m - j), by simp [ones, hj]⟩

theorem prefix_ones_false_iff {l s : List Bit} {m : Nat} :
    l <+: ones m ++ false :: s ↔ (∃ j ≤ m, l = ones j) ∨ ∃ s', s' <+: s ∧ l = ones m ++ false :: s' := by
  rw [← prefix_ones_iff]
  constructor
  · intro h
    rcases List.prefix_or_prefix_of_prefix h (List.prefix_append (ones m) _) with hl | ⟨r, rfl⟩
    · exact .inl hl
    · rcases List.prefix_cons_iff.mp ((List.prefix_append_right_inj _).mp h) with rfl | ⟨s', rfl, hs⟩
      · exact .inl (by simp)
      · exact .inr ⟨s', hs, rfl⟩
  · rintro (h | ⟨s', hs, rfl⟩)
    · exact h.trans (List.prefix_append _ _)
    · exact (List.prefix_append_right_inj _).mpr (List.prefix_cons_iff.mpr (.inr ⟨s', rfl, hs⟩))

theorem findIdx?_ones (m : Nat) : (ones m).findIdx? (· == false) = none := by
  simp [ones]

theorem findIdx?_ones_false (m : Nat) (s : List Bit) :
    (ones m ++ false :: s).findIdx? (· == false) = some m := by
  induction m with
  | zero => rfl
  | succ m ih =>
    rw [ones_succ, List.cons_append, List.findIdx?_cons, ih]
    rfl

theorem takeWhile_ones (m : Nat) : (ones m).takeWhile (· == true) = ones m := by
  simp [ones]

theorem takeWhile_ones_false (m : Nat) (s : List Bit) : (ones m ++ false :: s).takeWhile (· == true) = ones m := by
  rw [List.takeWhile_append_of_pos (by simp [ones]), List.takeWhile_cons_of_neg (by simp), List.append_nil]

/-! ### Fixed-width suffixes

A list that begins the `n` bins of a number begins those of its smallest completion, with every missing bin taken as 0
(40_binarizer.md R139). -/

/-- The number a list begins when every missing one of `n` bins is taken as 0. -/
def smallest (l : List Bit) (n : Nat) : Nat := bitsValue l * 2 ^ (n - l.length)

theorem smallest_eq_bitsValue (l : List Bit) (n : Nat) :
    smallest l n = bitsValue (l ++ List.replicate (n - l.length) false) := by
  rw [bitsValue_append, bitsValue_replicate_false, List.length_replicate, add_zero, smallest]

theorem smallest_lt {l : List Bit} {n : Nat} (h : l.length ≤ n) : smallest l n < 2 ^ n := by
  have hlt := bitsValue_lt (l ++ List.replicate (n - l.length) false)
  rwa [← smallest_eq_bitsValue l n, List.length_append, List.length_replicate, Nat.add_sub_cancel' h] at hlt

theorem smallest_le_of_prefix {l : List Bit} {v n : Nat} (h : l <+: msbBits v n) : smallest l n ≤ v % 2 ^ n := by
  obtain ⟨r, hr⟩ := h
  have hlen : n - l.length = r.length := by
    have := congrArg List.length hr
    simp only [List.length_append, msbBits_length] at this
    omega
  rw [← bitsValue_msbBits, ← hr, bitsValue_append, smallest, hlen]
  exact Nat.le_add_right _ _

theorem msbBits_add_mul (q v n : Nat) : msbBits (q * 2 ^ n + v) n = msbBits v n :=
  bitsValue_injective (by simp) (by simp [bitsValue_msbBits])

theorem prefix_msbBits_smallest {l : List Bit} {n : Nat} (h : l.length ≤ n) : l <+: msbBits (smallest l n) n := by
  have hbits := msbBits_bitsValue (l ++ List.replicate (n - l.length) false)
  rw [← smallest_eq_bitsValue l n, List.length_append, List.length_replicate, Nat.add_sub_cancel' h] at hbits
  rw [hbits]
  exact List.prefix_append _ _

theorem length_lt_of_prefix_ne {l m : List Bit} (h : l <+: m) (hne : l ≠ m) : l.length < m.length :=
  lt_of_le_of_ne h.length_le fun hlen => hne (h.eq_of_length hlen)

/-! ### The codes as runs of ones -/

theorem truncatedBins_of_lt {n c : Nat} (h : n < c) : truncatedBins n c = ones n ++ [false] := by
  simp [truncatedBins, h, h.le]

theorem truncatedBins_of_le {n c : Nat} (h : c ≤ n) : truncatedBins n c = ones c := by
  simp [truncatedBins, h, h.not_gt]

theorem truncatedBins_min (n c : Nat) : truncatedBins (min n c) c = truncatedBins n c := by
  simp [truncatedBins]

theorem expGolombBins_eq (u k : Nat) : expGolombBins u k = ones (u / 2 ^ k + 1) ++ false :: msbBits u k := by
  simp [expGolombBins, Nat.shiftRight_eq_div_pow]

theorem expGolombBins_mul_add {v k : Nat} (q : Nat) (h : v < 2 ^ k) :
    expGolombBins (q * 2 ^ k + v) k = ones (q + 1) ++ false :: msbBits v k := by
  rw [expGolombBins_eq, msbBits_add_mul, mul_comm, Nat.mul_add_div (Nat.two_pow_pos k), Nat.div_eq_of_lt h, add_zero]

/-! ### The parsers, by the form of the list -/

theorem parseUnary_ones (m : Nat) :
    parseUnary (ones m) = if 2 ^ 31 - 1 < m then .error .debinOverflow else .ok debinIncomplete := by
  rw [parseUnary, findIdx?_ones, ones_length]

theorem parseUnary_ones_false (m : Nat) (s : List Bit) :
    parseUnary (ones m ++ false :: s) =
      if s ≠ [] then .error .debinExtra
      else if 2 ^ 31 - 1 < m then .error .debinOverflow
      else .ok (debinComplete m) := by
  have hlen : m + 1 < (ones m ++ false :: s).length ↔ s ≠ [] := by
    simp [← List.length_pos_iff_ne_nil]
  simp only [parseUnary, findIdx?_ones_false, hlen]

theorem parseTruncated_ones (c m : Nat) :
    parseTruncated c (ones m) =
      if m < c then .ok debinIncomplete else if c < m then .error .debinExtra else .ok (debinComplete c) := by
  have htake : (ones m).take (min (ones m).length c) = ones (min m c) := by
    simp [ones, List.take_replicate]
  rw [parseTruncated, htake, findIdx?_ones, ones_length]

theorem parseTruncated_ones_false (c m : Nat) (s : List Bit) :
    parseTruncated c (ones m ++ false :: s) =
      if m < c ∧ s = [] then .ok (debinComplete m) else .error .debinExtra := by
  have hlen : (ones m ++ false :: s).length = m + 1 + s.length := by
    simp +arith
  by_cases hm : m < c
  · have htake : (ones m ++ false :: s).take (min (m + 1 + s.length) c) =
        ones m ++ false :: s.take (min (m + 1 + s.length) c - m - 1) := by
      rw [List.take_append, ones_length, List.take_of_length_le (by simp; omega),
        show min (m + 1 + s.length) c - m = min (m + 1 + s.length) c - m - 1 + 1 by omega, List.take_succ_cons]
      simp
    simp only [parseTruncated, hlen, htake, findIdx?_ones_false, hm, true_and]
    cases s <;> simp
  · have htake : (ones m ++ false :: s).take (min (m + 1 + s.length) c) = ones c := by
      rw [List.take_append_of_le_length (by simp; omega), ones, List.take_replicate, ones]
      congr 1
      omega
    simp only [parseTruncated, hlen, htake, findIdx?_ones]
    rw [if_neg (by omega), if_pos (by omega), if_neg (by omega)]

theorem parseExpGolomb_false (s : List Bit) (k maxV : Nat) :
    parseExpGolomb (false :: s) k maxV = .error .debinMalformed := rfl

theorem parseExpGolomb_ones (q k maxV : Nat) :
    parseExpGolomb (ones (q + 1)) k maxV = if maxV < q * 2 ^ k then .error .debinOverflow else .ok none := by
  rw [ones_succ, parseExpGolomb, ← ones_succ]
  simp only [takeWhile_ones, if_true, ones_length, Nat.add_sub_cancel, Nat.shiftLeft_eq]

theorem parseExpGolomb_ones_false (q k maxV : Nat) (s : List Bit) :
    parseExpGolomb (ones (q + 1) ++ false :: s) k maxV =
      if k < s.length then .error .debinExtra
      else if maxV < q * 2 ^ k + smallest s k then .error .debinOverflow
      else if s.length < k then .ok none
      else .ok (some (q * 2 ^ k + smallest s k)) := by
  have hdrop : (ones (q + 1) ++ false :: s).drop (q + 1 + 1) = s := by
    rw [List.drop_append]
    simp [ones]
  have hlen : q + 1 ≠ (ones (q + 1) ++ false :: s).length := by
    simp
  rw [ones_succ, List.cons_append, parseExpGolomb, ← List.cons_append, ← ones_succ]
  dsimp only
  rw [takeWhile_ones_false, ones_length, if_neg hlen, hdrop, Nat.add_sub_cancel, Nat.shiftLeft_eq, Nat.shiftLeft_eq]
  rfl

theorem parseFixed_eq (len : Nat) (l : List Bit) :
    parseFixed len l =
      if len < l.length then .error .debinExtra
      else if 2 ^ 31 - 1 < smallest l len then .error .debinOverflow
      else if l.length < len then .ok debinIncomplete
      else .ok (debinComplete (smallest l len)) := by
  rw [smallest, ← Nat.shiftLeft_eq]
  rfl

/-! ### What a parse owes its code

The outcomes of 40_binarizer.md R139 for a code, the numbers in its range and the values they stand for. -/

/-- `parse` is complete on the codes of the numbers in range and answers their values, waits on the proper beginnings of
those codes, answers nothing else, and refuses bins after a code. -/
structure ReadsCode (code : Nat → List Bit) (inRange : Nat → Prop) (value : Nat → Int)
    (parse : List Bit → Except Cause Result) : Prop where
  complete : ∀ {u}, inRange u → parse (code u) = .ok (debinComplete (value u))
  waits : ∀ {u l}, inRange u → l <+: code u → l ≠ code u → parse l = .ok debinIncomplete
  only : ∀ {l r}, parse l = .ok r →
    (∃ u, inRange u ∧ l = code u ∧ r = debinComplete (value u)) ∨
      (r = debinIncomplete ∧ ∃ u, inRange u ∧ l <+: code u ∧ l ≠ code u)
  extra : ∀ {u more}, inRange u → more ≠ [] → parse (code u ++ more) = .error .debinExtra

/-- 40_binarizer.md R140. -/
theorem parseUnary_reads : ReadsCode unaryBins (· ≤ 2 ^ 31 - 1) (·) parseUnary where
  complete {u} hu := by
    rw [unaryBins, parseUnary_ones_false, if_neg (by simp), if_neg (by omega)]
  waits {u l} hu hl hne := by
    rcases prefix_ones_false_iff.mp hl with ⟨j, hj, rfl⟩ | ⟨s, hs, rfl⟩
    · rw [parseUnary_ones, if_neg (by omega)]
    · obtain rfl := List.prefix_nil.mp hs
      exact absurd rfl hne
  only {l r} h := by
    obtain ⟨m, rfl | ⟨s, rfl⟩⟩ := eq_ones_or_ones_false l
    · rw [parseUnary_ones] at h
      split at h
      · cases h
      · cases h
        exact .inr ⟨rfl, m, by omega, List.prefix_append _ _, by simp [unaryBins]⟩
    · rw [parseUnary_ones_false] at h
      split at h
      · cases h
      · split at h
        · cases h
        · cases h
          exact .inl ⟨m, by omega, by simp_all [unaryBins], rfl⟩
  extra {u more} hu hmore := by
    rw [unaryBins, List.append_assoc, List.singleton_append, parseUnary_ones_false, if_pos hmore]

/-- 40_binarizer.md R141: every number at or above the cutoff has the cutoff's code and comes back as the cutoff. -/
theorem parseTruncated_reads {c : Nat} (hc : c ≤ 2 ^ 31 - 1) :
    ReadsCode (truncatedBins · c) (· ≤ 2 ^ 31 - 1) (fun n => (min n c : Nat)) (parseTruncated c) where
  complete {u} hu := by
    rcases lt_or_ge u c with h | h
    · rw [truncatedBins_of_lt h, parseTruncated_ones_false, if_pos ⟨h, rfl⟩, min_eq_left h.le]
    · rw [truncatedBins_of_le h, parseTruncated_ones, if_neg (by simp), if_neg (by simp), min_eq_right h]
  waits {u l} hu hl hne := by
    rcases lt_or_ge u c with h | h
    · rw [truncatedBins_of_lt h] at hl hne
      rcases prefix_ones_false_iff.mp hl with ⟨j, hj, rfl⟩ | ⟨s, hs, rfl⟩
      · rw [parseTruncated_ones, if_pos (by omega)]
      · obtain rfl := List.prefix_nil.mp hs
        exact absurd rfl hne
    · rw [truncatedBins_of_le h] at hl hne
      have hlt := length_lt_of_prefix_ne hl hne
      obtain ⟨j, hj, rfl⟩ := prefix_ones_iff.mp hl
      rw [parseTruncated_ones, if_pos (by simpa using hlt)]
  only {l r} h := by
    obtain ⟨m, rfl | ⟨s, rfl⟩⟩ := eq_ones_or_ones_false l
    · rw [parseTruncated_ones] at h
      split at h
      · rename_i hm
        cases h
        refine .inr ⟨rfl, c, hc, ?_⟩
        rw [truncatedBins_of_le le_rfl]
        exact ⟨prefix_ones_iff.mpr ⟨m, hm.le, rfl⟩, fun he => by simpa [hm.ne] using congrArg List.length he⟩
      · split at h
        · cases h
        · cases h
          obtain rfl : m = c := by omega
          exact .inl ⟨m, hc, (truncatedBins_of_le le_rfl).symm, by simp⟩
    · rw [parseTruncated_ones_false] at h
      split at h
      · rename_i hm
        obtain ⟨hm, rfl⟩ := hm
        cases h
        exact .inl ⟨m, by omega, (truncatedBins_of_lt hm).symm, by simp [hm.le]⟩
      · cases h
  extra {u more} hu hmore := by
    rcases lt_or_ge u c with h | h
    · rw [truncatedBins_of_lt h, List.append_assoc, List.singleton_append, parseTruncated_ones_false,
        if_neg (by simp [hmore])]
    · rw [truncatedBins_of_le h]
      obtain ⟨m, rfl | ⟨s, rfl⟩⟩ := eq_ones_or_ones_false more
      · have hm : 0 < m := by simpa [ones, Nat.pos_iff_ne_zero] using hmore
        rw [show ones c ++ ones m = ones (c + m) by simp [ones], parseTruncated_ones, if_neg (by omega),
          if_pos (by omega)]
      · rw [← List.append_assoc, show ones c ++ ones m = ones (c + m) by simp [ones], parseTruncated_ones_false,
          if_neg (by omega)]

/-- 40_binarizer.md R140: the list begins the code of some number, but of none in range. -/
theorem parseUnary_overflow {l : List Bit} (hcode : ∃ u, l <+: unaryBins u)
    (hrange : ¬ ∃ u ≤ 2 ^ 31 - 1, l <+: unaryBins u) : parseUnary l = .error .debinOverflow := by
  obtain ⟨u, hu⟩ := hcode
  rcases prefix_ones_false_iff.mp hu with ⟨j, -, rfl⟩ | ⟨s, hs, rfl⟩
  · rw [parseUnary_ones, if_pos]
    exact not_le.mp fun hj => hrange ⟨j, hj, List.prefix_append _ _⟩
  · obtain rfl := List.prefix_nil.mp hs
    rw [parseUnary_ones_false, if_neg (by simp), if_pos]
    exact not_le.mp fun hu => hrange ⟨u, hu, List.prefix_rfl⟩

/-! #### The exp-Golomb parse -/

/-- A list with part of its suffix begins the code of its smallest completion. -/
theorem prefix_expGolombBins_smallest {s : List Bit} {k : Nat} (q : Nat) (h : s.length ≤ k) :
    ones (q + 1) ++ false :: s <+: expGolombBins (q * 2 ^ k + smallest s k) k := by
  rw [expGolombBins_mul_add q (smallest_lt h)]
  exact prefix_ones_false_iff.mpr (.inr ⟨s, prefix_msbBits_smallest h, rfl⟩)

theorem prefix_expGolombBins_ones (q k : Nat) : ones (q + 1) <+: expGolombBins (q * 2 ^ k) k := by
  rw [← add_zero (q * 2 ^ k), expGolombBins_mul_add q (Nat.two_pow_pos k)]
  exact List.prefix_append _ _

/-- What begins a code: nothing, a run of ones, or the whole run and zero and part of the suffix; each with the bound its
smallest completion keeps. -/
theorem prefix_expGolombBins_cases {l : List Bit} {u k : Nat} (h : l <+: expGolombBins u k) :
    l = [] ∨ (∃ q, l = ones (q + 1) ∧ q * 2 ^ k ≤ u) ∨
      ∃ s, l = ones (u / 2 ^ k + 1) ++ false :: s ∧ s.length ≤ k ∧ u / 2 ^ k * 2 ^ k + smallest s k ≤ u := by
  have hdiv := Nat.div_mul_le_self u (2 ^ k)
  rw [expGolombBins_eq] at h
  rcases prefix_ones_false_iff.mp h with ⟨_ | q, hq, rfl⟩ | ⟨s, hs, rfl⟩
  · exact .inl rfl
  · refine .inr (.inl ⟨q, rfl, ?_⟩)
    have := Nat.mul_le_mul_right (2 ^ k) (Nat.le_of_succ_le_succ hq)
    omega
  · refine .inr (.inr ⟨s, rfl, by simpa using hs.length_le, ?_⟩)
    have hmod := smallest_le_of_prefix hs
    have hsum := Nat.div_add_mod' u (2 ^ k)
    omega

/-- 40_binarizer.md R139, R142: an incomplete parse is of a proper beginning of the code of a number in range, its
smallest completion. -/
theorem parseExpGolomb_none {l : List Bit} {k maxV : Nat} (h : parseExpGolomb l k maxV = .ok none) :
    ∃ u ≤ maxV, l <+: expGolombBins u k ∧ l ≠ expGolombBins u k := by
  obtain ⟨_ | q, rfl | ⟨s, rfl⟩⟩ := eq_ones_or_ones_false l
  · exact ⟨0, Nat.zero_le _, List.nil_prefix, by simp [expGolombBins_eq, ones]⟩
  · rw [ones, List.replicate_zero, List.nil_append, parseExpGolomb_false] at h
    cases h
  · rw [parseExpGolomb_ones] at h
    split at h
    · cases h
    · rename_i hq
      have hprefix := prefix_expGolombBins_ones q k
      refine ⟨_, not_lt.mp hq, hprefix, fun he => ?_⟩
      have hlen := congrArg List.length he
      rw [ones_length, expGolombBins_length, Nat.mul_div_cancel q (Nat.two_pow_pos k)] at hlen
      omega
  · rw [parseExpGolomb_ones_false] at h
    split at h
    · cases h
    · rename_i hs
      split at h
      · cases h
      · rename_i hv
        split at h
        · rename_i hlt
          refine ⟨_, not_lt.mp hv, prefix_expGolombBins_smallest q (not_lt.mp hs), fun he => ?_⟩
          rw [expGolombBins_mul_add q (smallest_lt (not_lt.mp hs))] at he
          simpa [hlt.ne] using congrArg List.length he
        · cases h

/-- What `DEBIN.EGU` and `DEBIN.EGS` answer for a parse, where `value` is the value a number stands for. -/
def expGolombAnswer (value : Nat → Int) : Option Nat → Result
  | none => debinIncomplete
  | some u => debinComplete (value u)

/-- 40_binarizer.md R142, R143. -/
theorem parseExpGolomb_reads (k maxV : Nat) (value : Nat → Int) :
    ReadsCode (expGolombBins · k) (· ≤ maxV) value
      fun l => (parseExpGolomb l k maxV).map (expGolombAnswer value) where
  complete {u} hu := by
    rw [parseExpGolomb_expGolombBins hu]
    rfl
  waits {u l} hu hl hne := by
    have hlen := length_lt_of_prefix_ne hl hne
    have hnone : parseExpGolomb l k maxV = .ok none := by
      rcases prefix_expGolombBins_cases hl with rfl | ⟨q, rfl, hq⟩ | ⟨s, rfl, hs, hv⟩
      · rfl
      · rw [parseExpGolomb_ones, if_neg (by omega)]
      · have hs' : s.length < k := by
          simp only [expGolombBins_length, List.length_append, List.length_cons, ones_length] at hlen
          omega
        rw [parseExpGolomb_ones_false, if_neg (by omega), if_neg (by omega), if_pos hs']
    rw [hnone]
    rfl
  only {l r} h := by
    cases hparse : parseExpGolomb l k maxV with
    | error c => simp [hparse, Except.map] at h
    | ok o =>
      obtain rfl : expGolombAnswer value o = r := by simpa [hparse, Except.map] using h
      cases o with
      | some u =>
        obtain ⟨hl, hu⟩ := parseExpGolomb_some hparse
        exact .inl ⟨u, hu, hl, rfl⟩
      | none =>
        obtain ⟨u, hu, hl, hne⟩ := parseExpGolomb_none hparse
        exact .inr ⟨rfl, u, hu, hl, hne⟩
  extra {u more} hu hmore := by
    have hmore := List.length_pos_iff_ne_nil.mpr hmore
    rw [expGolombBins_eq, List.append_assoc, List.cons_append, parseExpGolomb_ones_false,
      if_pos (by simpa using hmore)]
    rfl

/-- 40_binarizer.md R142, R143: the list begins the code of some number, but of none in range. -/
theorem parseExpGolomb_overflow {l : List Bit} {k maxV : Nat} (hcode : ∃ u, l <+: expGolombBins u k)
    (hrange : ¬ ∃ u ≤ maxV, l <+: expGolombBins u k) : parseExpGolomb l k maxV = .error .debinOverflow := by
  obtain ⟨u, hu⟩ := hcode
  rcases prefix_expGolombBins_cases hu with rfl | ⟨q, rfl, -⟩ | ⟨s, rfl, hs, -⟩
  · exact absurd ⟨0, Nat.zero_le _, List.nil_prefix⟩ hrange
  · rw [parseExpGolomb_ones, if_pos]
    exact not_le.mp fun hq => hrange ⟨_, hq, prefix_expGolombBins_ones q k⟩
  · rw [parseExpGolomb_ones_false, if_neg (by omega), if_pos]
    exact not_le.mp fun hv => hrange ⟨_, hv, prefix_expGolombBins_smallest _ hs⟩

/-! #### The fixed-length parse -/

/-- 40_binarizer.md R144. -/
theorem parseFixed_reads (len : Nat) :
    ReadsCode (msbBits · len) (fun n => n ≤ 2 ^ 31 - 1 ∧ n < 2 ^ len) (·) (parseFixed len) where
  complete {u} hu := by
    have hv : smallest (msbBits u len) len = u := by
      simp [smallest, bitsValue_msbBits, Nat.mod_eq_of_lt hu.2]
    rw [parseFixed_eq, hv, msbBits_length, if_neg (by simp), if_neg (by omega), if_neg (by simp)]
  waits {u l} hu hl hne := by
    have hlen : l.length < len := by simpa using length_lt_of_prefix_ne hl hne
    have hv := (smallest_le_of_prefix hl).trans (Nat.mod_le u _)
    rw [parseFixed_eq, if_neg (by omega), if_neg (by omega), if_pos hlen]
  only {l r} h := by
    rw [parseFixed_eq] at h
    split at h
    · cases h
    · rename_i hlen
      have hlen := not_lt.mp hlen
      have hprefix := prefix_msbBits_smallest hlen
      split at h
      · cases h
      · have hrange : smallest l len ≤ 2 ^ 31 - 1 ∧ smallest l len < 2 ^ len := ⟨not_lt.mp ‹_›, smallest_lt hlen⟩
        split at h
        · rename_i hlt
          cases h
          exact .inr ⟨rfl, _, hrange, hprefix, fun he => by simpa [hlt.ne] using congrArg List.length he⟩
        · cases h
          exact .inl ⟨_, hrange, hprefix.eq_of_length (by simp; omega), rfl⟩
  extra {u more} hu hmore := by
    have hmore := List.length_pos_iff_ne_nil.mpr hmore
    rw [parseFixed_eq, if_pos (by simpa using hmore)]

/-- 40_binarizer.md R144: the list begins no `len` bins of a number in range. -/
theorem parseFixed_overflow {l : List Bit} {len : Nat} (hlen : l.length ≤ len)
    (hrange : ¬ ∃ u ≤ 2 ^ 31 - 1, l <+: msbBits u len) : parseFixed len l = .error .debinOverflow := by
  rw [parseFixed_eq, if_neg (by omega), if_pos]
  exact not_le.mp fun hv => hrange ⟨_, hv, prefix_msbBits_smallest hlen⟩

end Sys2Proof.Machine

namespace Sys2Proof.Machine

/-! ### The five schemes

Each `BIN` command checks the parameter, then the value, and answers a code; each `DEBIN` command checks the parameter,
then the bins, and parses them (40_binarizer.md R132, R139). What differs is collected here, so that a statement about
all five is proved once. -/

/-- The schemes of 40_binarizer.md R133 to R137. -/
inductive Scheme where
  | u | tu | egu | egs | fl

/-- The command that binarizes the value `v`. -/
def Scheme.bin : Scheme → Word → Word → Instr
  | .u, _, v => .binU v
  | .tu, p, v => .binTu v p
  | .egu, p, v => .binEgu v p
  | .egs, p, v => .binEgs v p
  | .fl, p, v => .binFl v p

/-- The command that parses the bins `ws`. -/
def Scheme.debin : Scheme → Word → List Word → Instr
  | .u, _, ws => .debinU ws
  | .tu, p, ws => .debinTu p ws
  | .egu, p, ws => .debinEgu p ws
  | .egs, p, ws => .debinEgs p ws
  | .fl, p, ws => .debinFl p ws

/-- The check of the parameter; `U` has none and ignores the operand. -/
def Scheme.param : Scheme → Word → Except Cause Nat
  | .u, p => .ok p.toNat
  | .tu, p => cutoffOperand p
  | .egu, p | .egs, p => orderOperand p
  | .fl, p => lengthOperand p

/-- The check of the value, and the number that is coded for it. -/
def Scheme.number : Scheme → Nat → Word → Except Cause Nat
  | .u, _, v | .tu, _, v | .egu, _, v => valueOperand v
  | .egs, _, v => .ok (foldSign (s32 v))
  | .fl, n, v => flValueOperand v n

/-- The numbers a `BIN` command codes. -/
def Scheme.InRange : Scheme → Nat → Nat → Prop
  | .u, _, m | .tu, _, m | .egu, _, m => m ≤ 2 ^ 31 - 1
  | .egs, _, m => m ≤ 2 ^ 32 - 1
  | .fl, n, m => m ≤ 2 ^ 31 - 1 ∧ m < 2 ^ n

/-- The code of a number. -/
def Scheme.code : Scheme → Nat → Nat → List Bit
  | .u, _, m => unaryBins m
  | .tu, n, m => truncatedBins m n
  | .egu, n, m | .egs, n, m => expGolombBins m n
  | .fl, n, m => msbBits m n

/-- The value that a number's code is read back as. -/
def Scheme.value : Scheme → Nat → Nat → Int
  | .u, _, m | .egu, _, m | .fl, _, m => m
  | .tu, n, m => (min m n : Nat)
  | .egs, _, m => unfoldSign m

/-- The parse of the bins. -/
def Scheme.parse : Scheme → Nat → List Bit → Except Cause Result
  | .u, _, l => parseUnary l
  | .tu, n, l => parseTruncated n l
  | .egu, n, l => (parseExpGolomb l n (2 ^ 31 - 1)).map (expGolombAnswer (·))
  | .egs, n, l => (parseExpGolomb l n (2 ^ 32 - 1)).map (expGolombAnswer unfoldSign)
  | .fl, n, l => parseFixed n l

/-- The template of 40_binarizer.md R131, R132. -/
def Scheme.binRule (σ : Scheme) (p v : Word) (_ : Config) (b : Block) : Except Cause (Block × Result) := do
  let n ← σ.param p
  let m ← σ.number n v
  .ok (b, binResult (σ.code n m))

/-- The template of 40_binarizer.md R139. -/
def Scheme.debinRule (σ : Scheme) (p : Word) (ws : List Word) (_ : Config) (b : Block) :
    Except Cause (Block × Result) := do
  let n ← σ.param p
  let l ← checkBins ws
  let r ← σ.parse n l
  .ok (b, r)

theorem exec_bin (σ : Scheme) (p v : Word) (s : State) : exec (σ.bin p v) s = execute false (σ.binRule p v) s := by
  cases σ <;> rfl

/-- The exp-Golomb commands answer after the parse, which is the parse of the answer. -/
theorem bind_expGolombAnswer (x : Except Cause (Option Nat)) (value : Nat → Int) (b : Block) :
    (do let o ← x; .ok (b, expGolombAnswer value o)) = (do let r ← x.map (expGolombAnswer value); .ok (b, r)) := by
  cases x <;> rfl

theorem debinEguRule_eq (p : Word) (ws : List Word) : debinEguRule p ws = Scheme.egu.debinRule p ws :=
  funext₂ fun _ b => congrArg (orderOperand p >>= ·) <| funext fun k =>
    congrArg (checkBins ws >>= ·) <| funext fun l =>
      bind_expGolombAnswer (parseExpGolomb l k (2 ^ 31 - 1)) (·) b

theorem debinEgsRule_eq (p : Word) (ws : List Word) : debinEgsRule p ws = Scheme.egs.debinRule p ws :=
  funext₂ fun _ b => congrArg (orderOperand p >>= ·) <| funext fun k =>
    congrArg (checkBins ws >>= ·) <| funext fun l =>
      bind_expGolombAnswer (parseExpGolomb l k (2 ^ 32 - 1)) unfoldSign b

theorem exec_debin (σ : Scheme) (p : Word) (ws : List Word) (s : State) :
    exec (σ.debin p ws) s = execute false (σ.debinRule p ws) s := by
  cases σ with
  | u => rfl
  | tu => rfl
  | egu => exact congrArg (execute false · s) (debinEguRule_eq p ws)
  | egs => exact congrArg (execute false · s) (debinEgsRule_eq p ws)
  | fl => rfl

/-! #### The parameter and the value of a scheme -/

theorem Scheme.param_eq_toNat {σ : Scheme} {p : Word} {n : Nat} (h : σ.param p = .ok n) : n = p.toNat := by
  cases σ with
  | u => exact (Except.ok.inj h).symm
  | tu => exact (cutoffOperand_ok_iff.mp h).2
  | egu => exact (orderOperand_ok_iff.mp h).2
  | egs => exact (orderOperand_ok_iff.mp h).2
  | fl => exact (lengthOperand_ok_iff.mp h).2

theorem toNat_le_of_nonneg {w : Word} (h : 0 ≤ s32 w) : w.toNat ≤ 2 ^ 31 - 1 :=
  Nat.le_pred_of_lt ((toInt_nonneg_iff w).mp h)

theorem cutoffOperand_le {p : Word} {n : Nat} (h : cutoffOperand p = .ok n) : n ≤ 2 ^ 31 - 1 := by
  obtain ⟨hp, rfl⟩ := cutoffOperand_ok_iff.mp h
  exact toNat_le_of_nonneg hp

theorem foldSign_le (v : Word) : foldSign (s32 v) ≤ 2 ^ 32 - 1 := by
  have hlo := BitVec.le_toInt v
  have hhi := BitVec.toInt_lt (x := v)
  unfold foldSign s32
  split <;> omega

/-- A value that `BIN` accepts is coded as a number in range. -/
theorem Scheme.number_inRange {σ : Scheme} {n m : Nat} {v : Word} (h : σ.number n v = .ok m) : σ.InRange n m := by
  have hvalue : valueOperand v = .ok m → m ≤ 2 ^ 31 - 1 := by
    intro h
    obtain ⟨hv, rfl⟩ := valueOperand_ok_iff.mp h
    exact toNat_le_of_nonneg hv
  cases σ with
  | u => exact hvalue h
  | tu => exact hvalue h
  | egu => exact hvalue h
  | egs =>
    obtain rfl := Except.ok.inj h
    exact foldSign_le v
  | fl =>
    obtain ⟨hv, hfits, rfl⟩ := flValueOperand_ok_iff.mp h
    exact ⟨toNat_le_of_nonneg hv, hfits⟩

theorem toNat_ofInt_natCast {m : Nat} (h : m ≤ 2 ^ 31 - 1) : (BitVec.ofInt 32 m : Word).toNat = m := by
  rw [BitVec.ofInt_natCast, BitVec.toNat_ofNat, Nat.mod_eq_of_lt (by omega)]

theorem s32_ofInt_natCast_nonneg {m : Nat} (h : m ≤ 2 ^ 31 - 1) : 0 ≤ s32 (BitVec.ofInt 32 m) := by
  rw [toInt_nonneg_iff, toNat_ofInt_natCast h]
  omega

theorem valueOperand_ofInt {m : Nat} (h : m ≤ 2 ^ 31 - 1) : valueOperand (BitVec.ofInt 32 m) = .ok m :=
  valueOperand_ok_iff.mpr ⟨s32_ofInt_natCast_nonneg h, (toNat_ofInt_natCast h).symm⟩

theorem s32_ofInt_unfoldSign {m : Nat} (h : m ≤ 2 ^ 32 - 1) :
    s32 (BitVec.ofInt 32 (unfoldSign m)) = unfoldSign m := by
  refine BitVec.toInt_ofInt_eq_self (by decide) ?_ ?_ <;> unfold unfoldSign <;> split <;> omega

/-- `BIN` accepts the value of a number in range, and answers the number's code. -/
theorem Scheme.number_value {σ : Scheme} {p : Word} {n m : Nat} (hp : σ.param p = .ok n) (hm : σ.InRange n m) :
    ∃ m', σ.number n (BitVec.ofInt 32 (σ.value n m)) = .ok m' ∧ σ.code n m' = σ.code n m := by
  cases σ with
  | u => exact ⟨m, valueOperand_ofInt hm, rfl⟩
  | tu =>
    have hn := cutoffOperand_le hp
    exact ⟨min m n, valueOperand_ofInt (by omega), truncatedBins_min m n⟩
  | egu => exact ⟨m, valueOperand_ofInt hm, rfl⟩
  | egs =>
    refine ⟨m, ?_, rfl⟩
    simp only [Scheme.number, Scheme.value, s32_ofInt_unfoldSign hm, foldSign_unfoldSign]
  | fl =>
    obtain ⟨hm, hfits⟩ := hm
    have htoNat := toNat_ofInt_natCast hm
    exact ⟨m, flValueOperand_ok_iff.mpr ⟨s32_ofInt_natCast_nonneg hm, htoNat.symm ▸ hfits, htoNat.symm⟩, rfl⟩

/-- What `DEBIN` answers for the code of `v`: `v`, but the cutoff for a truncated unary value above it
(40_binarizer.md R145). -/
def Scheme.readBack : Scheme → Word → Word → Word
  | .tu, p, v => if v.toNat ≤ p.toNat then v else p
  | .u, _, v | .egu, _, v | .egs, _, v | .fl, _, v => v

theorem Scheme.value_number {σ : Scheme} {p v : Word} {n m : Nat} (hp : σ.param p = .ok n)
    (hm : σ.number n v = .ok m) : BitVec.ofInt 32 (σ.value n m) = σ.readBack p v := by
  cases σ with
  | u =>
    obtain ⟨-, rfl⟩ := valueOperand_ok_iff.mp hm
    exact BitVec.ofNat_toNat 32 v
  | tu =>
    obtain ⟨-, rfl⟩ := valueOperand_ok_iff.mp hm
    obtain rfl := Scheme.param_eq_toNat hp
    simp only [Scheme.value, Scheme.readBack, BitVec.ofInt_natCast]
    split
    · rw [min_eq_left ‹_›, BitVec.ofNat_toNat, BitVec.setWidth_eq]
    · rw [min_eq_right (by omega), BitVec.ofNat_toNat, BitVec.setWidth_eq]
  | egu =>
    obtain ⟨-, rfl⟩ := valueOperand_ok_iff.mp hm
    exact BitVec.ofNat_toNat 32 v
  | egs =>
    obtain rfl := Except.ok.inj hm
    simp only [Scheme.value, Scheme.readBack, unfoldSign_foldSign, s32, BitVec.ofInt_toInt]
  | fl =>
    obtain ⟨-, -, rfl⟩ := flValueOperand_ok_iff.mp hm
    exact BitVec.ofNat_toNat 32 v

/-- The parse of each scheme reads its code (40_binarizer.md R139 to R144). -/
theorem Scheme.parse_reads {σ : Scheme} {p : Word} {n : Nat} (hp : σ.param p = .ok n) :
    ReadsCode (σ.code n) (σ.InRange n) (σ.value n) (σ.parse n) := by
  cases σ with
  | u => exact parseUnary_reads
  | tu => exact parseTruncated_reads (cutoffOperand_le hp)
  | egu => exact parseExpGolomb_reads n (2 ^ 31 - 1) _
  | egs => exact parseExpGolomb_reads n (2 ^ 32 - 1) _
  | fl => exact parseFixed_reads n

/-! #### Running `BIN` and `DEBIN` -/

/-- A command that answers OK completed with what its rule gave. -/
theorem execute_answered_ok {rule : Config → Block → Except Cause (Block × Result)} {s t : State} {r0 r1 : Word}
    {bout : List Bit} (h : execute false rule s = .next t) (hresponse : t.response = some ⟨.ok, r0, r1, bout⟩) :
    ∃ b, rule s.config s.block = .ok (b, ⟨r0, r1, bout⟩) := by
  rcases execute_cases h with ⟨b, r, hrule, rfl⟩ | ⟨c, -, rfl⟩
  · obtain ⟨rfl, rfl, rfl⟩ : r.r0 = r0 ∧ r.r1 = r1 ∧ r.bout = bout := by simpa using hresponse
    exact ⟨b, hrule⟩
  · simp at hresponse

/-- The command answers the error of cause `c` and no results. -/
def AnswersError (i : Instr) (s : State) (c : Cause) : Prop :=
  ∃ t, exec i s = .next t ∧ t.response = some ⟨.error c, 0, 0, []⟩

theorem answersError_of_rule {i : Instr} {rule : Config → Block → Except Cause (Block × Result)} {s : State} {c : Cause}
    (hexec : exec i s = execute false rule s) (hrule : rule s.config s.block = .error c) : AnswersError i s c :=
  ⟨_, hexec.trans (execute_error hrule), takeError_response _ c s⟩

section
variable {σ : Scheme} {p v : Word} {ws : List Word} {s t : State} {n m : Nat} {l : List Bit} {c : Cause}

theorem exec_bin_ok (hp : σ.param p = .ok n) (hv : σ.number n v = .ok m) (s : State) :
    exec (σ.bin p v) s = .next { s with
      response := some ⟨.ok, BitVec.ofNat 32 (min (σ.code n m).length (2 ^ 32 - 1)), 0, σ.code n m⟩ } := by
  rw [exec_bin, execute_ok (b := s.block) (r := binResult (σ.code n m)) (by simp [Scheme.binRule, hp, hv])]
  rfl

theorem bin_raises_of_param (hp : σ.param p = .error c) (v : Word) (s : State) : AnswersError (σ.bin p v) s c :=
  answersError_of_rule (exec_bin σ p v s) (by simp [Scheme.binRule, hp])

theorem bin_raises_of_number (hp : σ.param p = .ok n) (hv : σ.number n v = .error c) (s : State) :
    AnswersError (σ.bin p v) s c :=
  answersError_of_rule (exec_bin σ p v s) (by simp [Scheme.binRule, hp, hv])

theorem bin_answered {r0 r1 : Word} {bins : List Bit} (h : exec (σ.bin p v) s = .next t)
    (hresponse : t.response = some ⟨.ok, r0, r1, bins⟩) :
    ∃ n m, σ.param p = .ok n ∧ σ.number n v = .ok m ∧ bins = σ.code n m := by
  rw [exec_bin] at h
  obtain ⟨b, hrule⟩ := execute_answered_ok h hresponse
  obtain ⟨n, hp, hrule⟩ := bind_ok_iff.mp hrule
  obtain ⟨m, hv, hrule⟩ := bind_ok_iff.mp hrule
  exact ⟨n, m, hp, hv, (congrArg (·.2.bout) (Except.ok.inj hrule)).symm⟩

theorem exec_debin_ok {r : Result} (hp : σ.param p = .ok n) (hl : σ.parse n l = .ok r) (s : State) :
    exec (σ.debin p (l.map bitWord)) s = .next { s with response := some ⟨.ok, r.r0, r.r1, r.bout⟩ } := by
  rw [exec_debin, execute_ok (b := s.block) (r := r) (by simp [Scheme.debinRule, hp, checkBins_map_bitWord, hl])]
  rfl

theorem debin_raises_of_param (hp : σ.param p = .error c) (ws : List Word) (s : State) :
    AnswersError (σ.debin p ws) s c :=
  answersError_of_rule (exec_debin σ p ws s) (by simp [Scheme.debinRule, hp])

theorem debin_raises_of_bins (hp : σ.param p = .ok n) (hws : ∃ w ∈ ws, 1 < w.toNat) (s : State) :
    AnswersError (σ.debin p ws) s .binValue := by
  have hbins : checkBins ws = .error .binValue := checkBins_error_iff.mpr ⟨rfl, hws⟩
  exact answersError_of_rule (exec_debin σ p ws s) (by simp [Scheme.debinRule, hp, hbins])

theorem debin_raises_of_parse (hp : σ.param p = .ok n) (hl : σ.parse n l = .error c) (s : State) :
    AnswersError (σ.debin p (l.map bitWord)) s c :=
  answersError_of_rule (exec_debin σ p _ s) (by simp [Scheme.debinRule, hp, checkBins_map_bitWord, hl])

theorem debin_answered {r0 r1 : Word} {bout : List Bit} (h : exec (σ.debin p ws) s = .next t)
    (hresponse : t.response = some ⟨.ok, r0, r1, bout⟩) :
    ∃ n l, σ.param p = .ok n ∧ ws = l.map bitWord ∧ σ.parse n l = .ok ⟨r0, r1, bout⟩ := by
  rw [exec_debin] at h
  obtain ⟨b, hrule⟩ := execute_answered_ok h hresponse
  obtain ⟨n, hp, hrule⟩ := bind_ok_iff.mp hrule
  obtain ⟨l, hl, hrule⟩ := bind_ok_iff.mp hrule
  obtain ⟨r, hr, hrule⟩ := bind_ok_iff.mp hrule
  obtain rfl : r = ⟨r0, r1, bout⟩ := congrArg Prod.snd (Except.ok.inj hrule)
  exact ⟨n, l, hp, checkBins_ok hl, hr⟩

/-! #### The statements for a scheme -/

/-- `DEBIN` on the code of a number in range answers the number's value. -/
theorem exec_debin_code (hp : σ.param p = .ok n) (hm : σ.InRange n m) (s : State) :
    exec (σ.debin p ((σ.code n m).map bitWord)) s =
      .next { s with response := some ⟨.ok, BitVec.ofInt 32 (σ.value n m), 1, []⟩ } :=
  exec_debin_ok hp ((Scheme.parse_reads hp).complete hm) s

theorem debin_inverts_bin {r0 r1 : Word} {bins : List Bit} (h : exec (σ.bin p v) s = .next t)
    (hresponse : t.response = some ⟨.ok, r0, r1, bins⟩) (s' : State) :
    exec (σ.debin p (bins.map bitWord)) s' = .next { s' with response := some ⟨.ok, σ.readBack p v, 1, []⟩ } := by
  obtain ⟨n, m, hp, hv, rfl⟩ := bin_answered h hresponse
  rw [exec_debin_code hp (Scheme.number_inRange hv), Scheme.value_number hp hv]

theorem debin_waits {r0 r1 : Word} {bins : List Bit} (h : exec (σ.bin p v) s = .next t)
    (hresponse : t.response = some ⟨.ok, r0, r1, bins⟩) (hl : l <+: bins) (hne : l ≠ bins) (s' : State) :
    exec (σ.debin p (l.map bitWord)) s' = .next { s' with response := some ⟨.ok, 0, 0, []⟩ } := by
  obtain ⟨n, m, hp, hv, rfl⟩ := bin_answered h hresponse
  exact exec_debin_ok hp ((Scheme.parse_reads hp).waits (Scheme.number_inRange hv) hl hne) s'

/-- A complete answer is the value of a number in range, given its code. -/
theorem debin_complete_answered {r0 : Word} {bout : List Bit} (h : exec (σ.debin p ws) s = .next t)
    (hresponse : t.response = some ⟨.ok, r0, 1, bout⟩) :
    ∃ n m, σ.param p = .ok n ∧ σ.InRange n m ∧ ws = (σ.code n m).map bitWord ∧
      r0 = BitVec.ofInt 32 (σ.value n m) := by
  obtain ⟨n, l, hp, rfl, hparse⟩ := debin_answered h hresponse
  rcases (Scheme.parse_reads hp).only hparse with ⟨m, hm, rfl, hr⟩ | ⟨hr, -⟩
  · exact ⟨n, m, hp, hm, rfl, congrArg Result.r0 hr⟩
  · cases hr

/-- An incomplete answer is 0, given a proper beginning of the code of a number in range. -/
theorem debin_incomplete_answered {r0 : Word} {bout : List Bit} (h : exec (σ.debin p ws) s = .next t)
    (hresponse : t.response = some ⟨.ok, r0, 0, bout⟩) :
    r0 = 0 ∧ ∃ n m l, σ.param p = .ok n ∧ σ.InRange n m ∧ ws = l.map bitWord ∧ l <+: σ.code n m ∧ l ≠ σ.code n m := by
  obtain ⟨n, l, hp, rfl, hparse⟩ := debin_answered h hresponse
  rcases (Scheme.parse_reads hp).only hparse with ⟨m, -, -, hr⟩ | ⟨hr, m, hm, hl, hne⟩
  · cases hr
  · exact ⟨congrArg Result.r0 hr, n, m, l, hp, hm, rfl, hl, hne⟩

/-- `BIN` of the value of a number in range completes with the number's code. -/
theorem exists_bin_code (hp : σ.param p = .ok n) (hm : σ.InRange n m) (s : State) :
    ∃ t len, exec (σ.bin p (BitVec.ofInt 32 (σ.value n m))) s = .next t ∧
      t.response = some ⟨.ok, len, 0, σ.code n m⟩ := by
  obtain ⟨m', hv, hcode⟩ := Scheme.number_value hp hm
  rw [← hcode]
  exact ⟨_, _, exec_bin_ok hp hv s, rfl⟩

theorem debin_completes_only_on_code {r0 : Word} {bout : List Bit} (h : exec (σ.debin p ws) s = .next t)
    (hresponse : t.response = some ⟨.ok, r0, 1, bout⟩) :
    ∃ t' len bins, exec (σ.bin p r0) s = .next t' ∧ t'.response = some ⟨.ok, len, 0, bins⟩ ∧
      ws = bins.map bitWord := by
  obtain ⟨n, m, hp, hm, hws, rfl⟩ := debin_complete_answered h hresponse
  obtain ⟨t', len, hexec, hcode⟩ := exists_bin_code hp hm s
  exact ⟨t', len, _, hexec, hcode, hws⟩

theorem debin_waits_only_on_prefix {r0 : Word} {bout : List Bit} (h : exec (σ.debin p ws) s = .next t)
    (hresponse : t.response = some ⟨.ok, r0, 0, bout⟩) :
    r0 = 0 ∧ ∃ v t' len bins l, exec (σ.bin p v) s = .next t' ∧ t'.response = some ⟨.ok, len, 0, bins⟩ ∧
      ws = l.map bitWord ∧ l <+: bins ∧ l ≠ bins := by
  obtain ⟨hr0, n, m, l, hp, hm, hws, hl, hne⟩ := debin_incomplete_answered h hresponse
  obtain ⟨t', len, hexec, hcode⟩ := exists_bin_code hp hm s
  exact ⟨hr0, _, t', len, _, l, hexec, hcode, hws, hl, hne⟩

theorem debin_refuses_extra {r0 : Word} {bout more : List Bit} (h : exec (σ.debin p ws) s = .next t)
    (hresponse : t.response = some ⟨.ok, r0, 1, bout⟩) (hmore : more ≠ []) (s' : State) :
    AnswersError (σ.debin p (ws ++ more.map bitWord)) s' .debinExtra := by
  obtain ⟨n, m, hp, hm, rfl, -⟩ := debin_complete_answered h hresponse
  rw [← List.map_append]
  exact debin_raises_of_parse hp ((Scheme.parse_reads hp).extra hm hmore) s'

end

/-! #### The operand checks that fail -/

theorem valueOperand_error {a : Word} (h : a.toInt < 0) : valueOperand a = .error .negValue := if_pos h

theorem cutoffOperand_error {b : Word} (h : b.toInt < 0) : cutoffOperand b = .error .negCutoff := if_pos h

theorem orderOperand_error {b : Word} (h : 31 < b.toNat) : orderOperand b = .error .badOrder :=
  if_pos (by rw [s32, BitVec.toInt_eq_toNat_cond]; split <;> omega)

theorem lengthOperand_error {b : Word} (h : 32 < b.toNat) : lengthOperand b = .error .badLength :=
  if_pos (by rw [s32, BitVec.toInt_eq_toNat_cond]; split <;> omega)

theorem flValueOperand_error {a : Word} {len : Nat} (h : a.toInt < 0 ∨ 2 ^ len ≤ a.toInt) :
    flValueOperand a len = .error .flRange := by
  unfold flValueOperand s32
  split
  · rfl
  · rename_i hneg
    have hfit := h.resolve_left hneg
    rw [if_pos]
    zify
    rwa [Int.toNat_of_nonneg (not_lt.mp hneg)]

/-- A list of bins that begins with the word 0 begins with the bin 0. -/
theorem exists_bins_of_head {ws : List Word} (hgood : ¬ ∃ w ∈ ws, 1 < w.toNat) (hhead : ws.head? = some 0) :
    ∃ l, ws = (false :: l).map bitWord := by
  cases hbins : checkBins ws with
  | error c => exact absurd (checkBins_error_iff.mp hbins).2 hgood
  | ok l =>
    obtain rfl := checkBins_ok hbins
    rcases l with _ | ⟨_ | _, l⟩
    · simp at hhead
    · exact ⟨l, rfl⟩
    · exact absurd hhead (by simp [bitWord])

/-! #### The operand checks that pass -/

theorem cutoffOperand_ok {b : Word} (h : 0 ≤ b.toInt) : cutoffOperand b = .ok b.toNat :=
  cutoffOperand_ok_iff.mpr ⟨h, rfl⟩

theorem orderOperand_ok {b : Word} (h : b.toNat ≤ 31) : orderOperand b = .ok b.toNat :=
  orderOperand_ok_iff.mpr ⟨h, rfl⟩

theorem lengthOperand_ok {b : Word} (h : b.toNat ≤ 32) : lengthOperand b = .ok b.toNat :=
  lengthOperand_ok_iff.mpr ⟨h, rfl⟩

theorem valueOperand_ok {a : Word} (h : 0 ≤ a.toInt) : valueOperand a = .ok a.toNat :=
  valueOperand_ok_iff.mpr ⟨h, rfl⟩

end Sys2Proof.Machine

namespace Sys2Proof.Machine

/-! ### The obligations of 40_binarizer.md -/

/-- Settles O43: each scheme's parse is complete on its code and undoes the coding of the value. -/
theorem debinInvertsBin : Obligations.DebinInvertsBin := by
  unfold Obligations.DebinInvertsBin
  intro s t s' v p r0 r1 bins hresponse
  exact ⟨fun h => debin_inverts_bin (σ := .u) (p := p) h hresponse s',
    fun h => debin_inverts_bin (σ := .tu) h hresponse s', fun h => debin_inverts_bin (σ := .egu) h hresponse s',
    fun h => debin_inverts_bin (σ := .egs) h hresponse s', fun h => debin_inverts_bin (σ := .fl) h hresponse s'⟩

/-- Settles O38: the code has `v + 1` bins, or `c` of them from the cutoff on, and neither number saturates. -/
theorem binUnaryAnswersItsCode : Obligations.BinUnaryAnswersItsCode := by
  unfold Obligations.BinUnaryAnswersItsCode
  refine ⟨fun s v hv => ?_, fun s v c hv hc => ?_⟩
  · have hlt := (toInt_nonneg_iff v).mp hv
    have hexec := exec_bin_ok (σ := .u) (p := 0) rfl (valueOperand_ok hv) s
    rwa [Scheme.code, unaryBins_length, min_eq_left (by omega)] at hexec
  · have hlt := (toInt_nonneg_iff v).mp hv
    have hexec := exec_bin_ok (σ := .tu) (cutoffOperand_ok hc) (valueOperand_ok hv) s
    rw [Scheme.code] at hexec
    split
    · rename_i h
      rwa [truncatedBins_of_lt h, List.length_append, ones_length, List.length_singleton,
        min_eq_left (by omega)] at hexec
    · rename_i h
      have hc := c.isLt
      rwa [truncatedBins_of_le (not_lt.mp h), ones_length, min_eq_left (by omega), BitVec.ofNat_toNat,
        BitVec.setWidth_eq] at hexec

theorem foldSign_cast (n : Int) : (foldSign n : Int) = 2 * (n.natAbs : Int) - (if n < 0 then 1 else 0) := by
  unfold foldSign
  split <;> omega

/-- Settles O39: the suffix is the `k` low bits of the number coded. -/
theorem binExpGolombAnswersItsCode : Obligations.BinExpGolombAnswersItsCode := by
  unfold Obligations.BinExpGolombAnswersItsCode
  refine ⟨fun s v k hv hk => ?_, fun s v k hk => ?_⟩
  · have hexec := exec_bin_ok (σ := .egu) (orderOperand_ok hk) (valueOperand_ok hv) s
    rw [Scheme.code, expGolombBins_length, expGolombBins_eq] at hexec
    exact ⟨_, msbBits_length _ _, bitsValue_msbBits _ _, hexec⟩
  · have hexec := exec_bin_ok (σ := .egs) (v := v) (orderOperand_ok hk) rfl s
    rw [Scheme.code, expGolombBins_length, expGolombBins_eq] at hexec
    exact ⟨_, _, foldSign_cast v.toInt, msbBits_length _ _, bitsValue_msbBits _ _, hexec⟩

/-- Settles O40: a value that fits is its own low bits. -/
theorem binFixedAnswersItsCode : Obligations.BinFixedAnswersItsCode := by
  unfold Obligations.BinFixedAnswersItsCode
  intro s v len hv hlen hfits
  have hexec := exec_bin_ok (σ := .fl) (lengthOperand_ok hlen) (flValueOperand_ok_iff.mpr ⟨hv, hfits, rfl⟩) s
  rw [Scheme.code, msbBits_length, min_eq_left (by omega), BitVec.ofNat_toNat, BitVec.setWidth_eq] at hexec
  exact ⟨_, msbBits_length _ _, by rw [bitsValue_msbBits, Nat.mod_eq_of_lt hfits], hexec⟩

/-- Settles O41: the check of the parameter comes first, and each check raises its own cause. -/
theorem binChecksItsOperandsInOrder : Obligations.BinChecksItsOperandsInOrder := by
  unfold Obligations.BinChecksItsOperandsInOrder
  intro s v p
  refine ⟨fun hv => bin_raises_of_number (σ := .u) (p := 0) rfl (valueOperand_error hv) s, ?_, ?_, ?_⟩
  · split
    · exact bin_raises_of_param (σ := .tu) (cutoffOperand_error ‹_›) v s
    · split
      · exact bin_raises_of_number (σ := .tu) (cutoffOperand_ok (not_lt.mp ‹_›)) (valueOperand_error ‹_›) s
      · trivial
  · split
    · have hp := orderOperand_error ‹_›
      exact ⟨bin_raises_of_param (σ := .egu) hp v s, bin_raises_of_param (σ := .egs) hp v s⟩
    · split
      · exact bin_raises_of_number (σ := .egu) (orderOperand_ok (not_lt.mp ‹_›)) (valueOperand_error ‹_›) s
      · trivial
  · split
    · exact bin_raises_of_param (σ := .fl) (lengthOperand_error ‹_›) v s
    · split
      · exact bin_raises_of_number (σ := .fl) (lengthOperand_ok (not_lt.mp ‹_›)) (flValueOperand_error ‹_›) s
      · trivial

/-- Settles O42: the lists given are the codes of numbers in range. -/
theorem debinCompletesOnEveryCode : Obligations.DebinCompletesOnEveryCode := by
  unfold Obligations.DebinCompletesOnEveryCode
  refine ⟨fun s n hn => ?_, fun s c hc => ⟨fun n hn => ?_, ?_⟩, fun s k q suffix hk hsuffix => ?_,
    fun s len bins hlen hbins hrange => ?_⟩
  · exact exec_debin_code (σ := .u) (p := 0) rfl hn s
  · have hp := cutoffOperand_ok hc
    have hexec := exec_debin_code (σ := .tu) hp (hn.le.trans (cutoffOperand_le hp)) s
    rwa [Scheme.code, truncatedBins_of_lt hn, Scheme.value, min_eq_left hn.le] at hexec
  · have hp := cutoffOperand_ok hc
    have hexec := exec_debin_code (σ := .tu) hp (cutoffOperand_le hp) s
    rwa [Scheme.code, truncatedBins_of_le le_rfl, Scheme.value, min_self, BitVec.ofInt_natCast, BitVec.ofNat_toNat,
      BitVec.setWidth_eq] at hexec
  · have hp := orderOperand_ok hk
    have hcode : expGolombBins (q * 2 ^ k.toNat + bitsValue suffix) k.toNat =
        List.replicate (q + 1) true ++ false :: suffix := by
      rw [← hsuffix, expGolombBins_mul_add q (bitsValue_lt suffix), msbBits_bitsValue, ones]
    dsimp only
    rw [← hcode]
    refine ⟨fun hu => ?_, fun hu => ⟨_, ?_, exec_debin_code (σ := .egs) hp hu s⟩⟩
    · exact exec_debin_code (σ := .egu) hp hu s
    · have hs32 := s32_ofInt_unfoldSign hu
      rw [← foldSign_cast, Scheme.value, ← s32, hs32, foldSign_unfoldSign]
  · have hfits : bitsValue bins < 2 ^ len.toNat := hbins ▸ bitsValue_lt bins
    have hexec := exec_debin_code (σ := .fl) (lengthOperand_ok hlen) ⟨hrange, hfits⟩ s
    rwa [Scheme.code, ← hbins, msbBits_bitsValue] at hexec

/-- Settles O44: each scheme's parse waits on the proper beginnings of its code. -/
theorem debinWaitsOnProperPrefixes : Obligations.DebinWaitsOnProperPrefixes := by
  unfold Obligations.DebinWaitsOnProperPrefixes
  intro s t s' v p r0 r1 bins l hresponse hl hne
  exact ⟨fun h => debin_waits (σ := .u) (p := p) h hresponse hl hne s',
    fun h => debin_waits (σ := .tu) h hresponse hl hne s', fun h => debin_waits (σ := .egu) h hresponse hl hne s',
    fun h => debin_waits (σ := .egs) h hresponse hl hne s', fun h => debin_waits (σ := .fl) h hresponse hl hne s'⟩

/-- Settles O45: a complete parse is of a code, and `BIN` accepts the value answered for it. -/
theorem debinCompletesOnlyOnCodes : Obligations.DebinCompletesOnlyOnCodes := by
  unfold Obligations.DebinCompletesOnlyOnCodes
  intro s t p r0 bout ws hresponse
  exact ⟨fun h => debin_completes_only_on_code (σ := .u) (p := p) h hresponse,
    fun h => debin_completes_only_on_code (σ := .tu) h hresponse,
    fun h => debin_completes_only_on_code (σ := .egu) h hresponse,
    fun h => debin_completes_only_on_code (σ := .egs) h hresponse,
    fun h => debin_completes_only_on_code (σ := .fl) h hresponse⟩

/-- Settles O46: an incomplete parse is of a proper beginning of the code of its smallest completion. -/
theorem debinWaitsOnlyOnProperPrefixes : Obligations.DebinWaitsOnlyOnProperPrefixes := by
  unfold Obligations.DebinWaitsOnlyOnProperPrefixes
  intro s t p r0 bout ws hresponse
  exact ⟨fun h => debin_waits_only_on_prefix (σ := .u) (p := p) h hresponse,
    fun h => debin_waits_only_on_prefix (σ := .tu) h hresponse,
    fun h => debin_waits_only_on_prefix (σ := .egu) h hresponse,
    fun h => debin_waits_only_on_prefix (σ := .egs) h hresponse,
    fun h => debin_waits_only_on_prefix (σ := .fl) h hresponse⟩

/-- Settles O47: the list that was complete is a code, and each parse refuses bins after a code. -/
theorem debinRefusesBinsAfterACode : Obligations.DebinRefusesBinsAfterACode := by
  unfold Obligations.DebinRefusesBinsAfterACode
  intro s t s' p r0 bout more ws hresponse hmore
  exact ⟨fun h => debin_refuses_extra (σ := .u) (p := p) h hresponse hmore s',
    fun h => debin_refuses_extra (σ := .tu) h hresponse hmore s',
    fun h => debin_refuses_extra (σ := .egu) h hresponse hmore s',
    fun h => debin_refuses_extra (σ := .egs) h hresponse hmore s',
    fun h => debin_refuses_extra (σ := .fl) h hresponse hmore s'⟩

/-- Settles O48: the smallest completion of the list would be in range if it were not refused. -/
theorem debinRefusesValuesOutOfRange : Obligations.DebinRefusesValuesOutOfRange := by
  unfold Obligations.DebinRefusesValuesOutOfRange
  intro s k l
  refine ⟨fun hcode hrange => ?_, fun hk hcode hrange => ?_, fun hk hcode hrange => ?_, fun hk hlen hrange => ?_⟩
  · exact debin_raises_of_parse (σ := .u) (p := k) rfl (parseUnary_overflow hcode hrange) s
  · refine debin_raises_of_parse (σ := .egu) (orderOperand_ok hk) ?_ s
    rw [Scheme.parse, parseExpGolomb_overflow hcode hrange, Except.map]
  · refine debin_raises_of_parse (σ := .egs) (orderOperand_ok hk) ?_ s
    rw [Scheme.parse, parseExpGolomb_overflow hcode hrange, Except.map]
  · exact debin_raises_of_parse (σ := .fl) (lengthOperand_ok hk) (parseFixed_overflow hlen hrange) s

/-- Settles O49: the check of the parameter comes first, then that of the bins, then the parse. -/
theorem debinChecksBeforeParsing : Obligations.DebinChecksBeforeParsing := by
  unfold Obligations.DebinChecksBeforeParsing
  intro s p ws
  refine ⟨fun hbad => debin_raises_of_bins (σ := .u) (p := p) rfl hbad s, fun hp => ?_, fun hp hbad => ?_, fun hp => ?_,
    fun hp hbad => ?_, fun hp hgood hhead => ?_, fun hp => ?_, fun hp hbad => ?_⟩
  · exact debin_raises_of_param (σ := .tu) (cutoffOperand_error hp) ws s
  · exact debin_raises_of_bins (σ := .tu) (cutoffOperand_ok hp) hbad s
  · have hp := orderOperand_error hp
    exact ⟨debin_raises_of_param (σ := .egu) hp ws s, debin_raises_of_param (σ := .egs) hp ws s⟩
  · have hp := orderOperand_ok hp
    exact ⟨debin_raises_of_bins (σ := .egu) hp hbad s, debin_raises_of_bins (σ := .egs) hp hbad s⟩
  · have hp := orderOperand_ok hp
    obtain ⟨l, rfl⟩ := exists_bins_of_head hgood hhead
    exact ⟨debin_raises_of_parse (σ := .egu) hp rfl s, debin_raises_of_parse (σ := .egs) hp rfl s⟩
  · exact debin_raises_of_param (σ := .fl) (lengthOperand_error hp) ws s
  · exact debin_raises_of_bins (σ := .fl) (lengthOperand_ok hp) hbad s

/-- Settles O52: an OK answer is that of a command that completed, and a reading command completes with the block it
had. -/
theorem readingCommandsWriteNoRegister : Obligations.ReadingCommandsWriteNoRegister := by
  unfold Obligations.ReadingCommandsWriteNoRegister
  intro i s t r0 r1 bout hi hexec hresponse
  rw [exec_eq_execute] at hexec
  rcases execute_cases hexec with ⟨b, r, hrule, rfl⟩ | ⟨c, -, rfl⟩
  · exact ruleOf_keeps hi s.config s.block b r hrule
  · simp at hresponse

end Sys2Proof.Machine

namespace Sys2Proof.Machine

/-! ### A command's answer, read off its rule -/

theorem answersError_of_ruleOf {i : Instr} {s : State} {c : Cause} (h : ruleOf i s.config s.block = .error c) :
    AnswersError i s c :=
  ⟨_, (exec_eq_execute i s).trans (execute_error h), takeError_response _ c s⟩

theorem exec_of_ruleOf_same_block {i : Instr} {s : State} {r : Result}
    (h : ruleOf i s.config s.block = .ok (s.block, r)) :
    exec i s = .next { s with response := some ⟨.ok, r.r0, r.r1, r.bout⟩ } :=
  (exec_eq_execute i s).trans (execute_ok h)

/-! ### The seeding at the start of a session (41_context.md R171) -/

theorem seedContexts_of_not_seedLegal {cfg : Config} {mode : Byte} (hseed : ¬ SeedLegal cfg mode) (b : Block) :
    seedContexts cfg mode b = .error .noSeed := by
  rcases seedContexts_cases cfg mode b with ⟨-, h⟩ | ⟨hlegal, -⟩ | ⟨hlegal, -⟩
  · exact h
  · exact absurd hlegal hseed
  · exact absurd hlegal hseed

theorem seedContexts_of_not_lpsLegal {cfg : Config} {mode : Byte} (hseed : SeedLegal cfg mode)
    (hlps : ¬ LpsLegal cfg) (b : Block) : seedContexts cfg mode b = .error .badLpsTable := by
  rcases seedContexts_cases cfg mode b with ⟨hnot, -⟩ | ⟨-, -, h⟩ | ⟨-, hlegal, -⟩
  · exact absurd hseed hnot
  · exact h
  · exact absurd hlegal hlps

/-- Both `INIT`s seed before they do anything that can fail, so a cause of the seeding is the command's. -/
theorem ruleOf_init_of_seedContexts_error {i : Instr} {mode : Byte} {cfg : Config} {c : Cause}
    (hi : i = .encInit mode ∨ ∃ declared input, i = .decInit mode declared input)
    (h : seedContexts cfg mode Block.reset = .error c) (b : Block) : ruleOf i cfg b = .error c := by
  rcases hi with rfl | ⟨declared, input, rfl⟩
  · rw [ruleOf, encInitRule_eq, h, error_bind]
  · rw [ruleOf, decInitRule_eq, h, error_bind]

/-- Settles O22: each of the two causes is one of the seeding, which checks the seed before the LPS table. -/
theorem initRefusesBadParameters : Obligations.InitRefusesBadParameters := by
  unfold Obligations.InitRefusesBadParameters
  intro s mode i hi
  exact ⟨fun hseed => answersError_of_ruleOf
      (ruleOf_init_of_seedContexts_error hi (seedContexts_of_not_seedLegal hseed _) _),
    fun hseed hlps => answersError_of_ruleOf
      (ruleOf_init_of_seedContexts_error hi (seedContexts_of_not_lpsLegal hseed hlps _) _)⟩

/-! ### `CTX.SEL` (41_context.md R177, R178) -/

theorem checkState_ctxSel_ok {b : Block} (h : b.sstate = .encActive ∨ b.sstate = .decActive) :
    checkState .ctxSel b = .ok () := by
  rw [checkState_eq]
  rcases h with h | h <;> rw [h] <;> rfl

section
variable {se cat : Byte} {binIdx : Word} {cfg : Config} {b : Block} {start len off : Nat}

theorem ctxSelRule_noRange (hstate : checkState .ctxSel b = .ok ()) (hrange : ctxRangeEntry cfg se b.mode = none) :
    ctxSelRule se cat binIdx cfg b = .error .noRange := by
  simp [ctxSelRule, hstate, hrange]

theorem ctxSelRule_noOffset (hstate : checkState .ctxSel b = .ok ())
    (hrange : ctxRangeEntry cfg se b.mode = some (start, len)) (hoffset : ctxOffsetEntry cfg se cat = none) :
    ctxSelRule se cat binIdx cfg b = .error .noOffset := by
  simp [ctxSelRule, hstate, hrange, hoffset]

/-- With a range and an offset, what is left is the test of the bounds. -/
theorem ctxSelRule_found (hstate : checkState .ctxSel b = .ok ())
    (hrange : ctxRangeEntry cfg se b.mode = some (start, len)) (hoffset : ctxOffsetEntry cfg se cat = some off) :
    ctxSelRule se cat binIdx cfg b =
      if len ≤ off + ctxBinIncEntry cfg se binIdx ∨ nCtx cfg < start + len then .error .ctxOutsideRange
      else .ok (b, { r0 := BitVec.ofNat 32 (start + off + ctxBinIncEntry cfg se binIdx) }) := by
  simp [ctxSelRule, hstate, hrange, hoffset]

end

theorem nCtx_le (cfg : Config) : nCtx cfg ≤ 2 ^ 16 := cfg.lastCtx.isLt

/-- Settles O36: the three lookups and the test of the bounds, in the order of the rule; an index below `N_CTX` fits the
result word. -/
theorem ctxSelSelectsByTheTables : Obligations.CtxSelSelectsByTheTables := by
  unfold Obligations.CtxSelSelectsByTheTables
  intro s se cat binIdx hactive
  have hstate := checkState_ctxSel_ok hactive
  refine ⟨fun hrange => answersError_of_ruleOf (ctxSelRule_noRange hstate hrange), fun start len hrange =>
    ⟨fun hoffset => answersError_of_ruleOf (ctxSelRule_noOffset hstate hrange hoffset), fun off hoffset => ?_⟩⟩
  have hrule := ctxSelRule_found (binIdx := binIdx) hstate hrange hoffset
  dsimp only
  split
  next houtside => exact answersError_of_ruleOf (hrule.trans (if_pos houtside))
  next hinside =>
    have hindex : start + off + ctxBinIncEntry s.config se binIdx < nCtx s.config := by
      simp only [nCtx, ctxBinIncEntry]
      omega
    have hword : (BitVec.ofNat 32 (start + off + ctxBinIncEntry s.config se binIdx)).toNat =
        start + off + ctxBinIncEntry s.config se binIdx := by
      have := nCtx_le s.config
      rw [BitVec.toNat_ofNat, Nat.mod_eq_of_lt (by omega)]
    exact ⟨_, hword, hword.trans_lt hindex,
      exec_of_ruleOf_same_block (i := .ctxSel se cat binIdx) (hrule.trans (if_neg hinside))⟩

/-! ### `CTX.RD` (41_context.md R179) -/

theorem checkState_ctxRd_ok {b : Block} (h : InSession b.sstate) : checkState .ctxRd b = .ok () := by
  rw [checkState_eq]
  rcases h with h | h | h | h <;> rw [h] <;> rfl

/-- 41_context.md R170: an entry outside the block is one 7-bit value. -/
theorem contextWord_toNat (c : ContextState) : (contextWord c).toNat = c.pStateIdx.toNat + 64 * c.valMPS.toNat := by
  rw [contextWord]
  simp only [toNat_append_eq, BitVec.toNat_ofBool, BitVec.toNat_ofNat]
  omega

/-- Settles O37: in an open session the two checks left are those of the index and of the entry. -/
theorem ctxRdAnswersTheEntry : Obligations.CtxRdAnswersTheEntry := by
  unfold Obligations.CtxRdAnswersTheEntry
  intro s i hopen
  have hstate := checkState_ctxRd_ok hopen
  refine ⟨fun tab c htab hc hi => ⟨contextWord c, contextWord_toNat c, ?_⟩, fun hi => ?_⟩
  · have hindex : checkCtxIndex s.config i = .ok () := checkCtxIndex_ok_iff.mpr hi
    have hread : readCtx i s.block = .ok c := readCtx_ok_iff.mpr ⟨tab, htab, hc⟩
    exact exec_of_ruleOf_same_block (r := { r0 := contextWord c }) (by simp [ruleOf, ctxRdRule, hstate, hindex, hread])
  · have hindex : checkCtxIndex s.config i = .error .ctxRange := checkCtxIndex_error_iff.mpr ⟨rfl, hi⟩
    exact answersError_of_ruleOf (by simp [ruleOf, ctxRdRule, hstate, hindex])

/-! ### What changes an entry of the context table

An operation other than `UpdateContext` keeps every entry, and `UpdateContext` keeps those it does not name
(41_context.md R173). -/

/-- `CTX[j]` is `e`: a context state, or no value. -/
def EntryIs (j : Nat) (e : Option ContextState) (b : Block) : Prop := b.ctx.bind (·[j]?) = e

section
variable {j : Nat} {e : Option ContextState} {cfg : Config} {b : Block}

theorem EntryIs.set {t : List ContextState} {k : Nat} {c : ContextState} (h : EntryIs j e b) (ht : b.ctx = some t)
    (hne : k ≠ j) : EntryIs j e { b with ctx := some (t.set k c) } := by
  rw [EntryIs, ht, Option.bind_some] at h
  rw [EntryIs, Option.bind_some, List.getElem?_set_ne hne, h]

theorem updateContext_entry {i : BitVec 16} {bin : Bit} (hne : i.toNat ≠ j) (h : EntryIs j e b) :
    Ensures (EntryIs j e) (updateContext cfg i bin b) := by
  intro b' hb'
  obtain ⟨t, c, ht, -, rfl⟩ := updateContext_ok_iff.mp hb'
  exact h.set ht hne

/-! #### The single registers -/

theorem writeLow_entry {v : Int} (h : EntryIs j e b) : Ensures (EntryIs j e) (writeLow v b) := by
  intro b' hb'
  obtain ⟨-, -, rfl⟩ := writeLow_cases hb'
  exact h

theorem writeRange_entry {v : Int} (h : EntryIs j e b) : Ensures (EntryIs j e) (writeRange v b) := by
  intro b' hb'
  obtain ⟨-, -, rfl⟩ := writeRange_cases hb'
  exact h

theorem countBin_entry (h : EntryIs j e b) : Ensures (EntryIs j e) (countBin b) := by
  intro b' hb'
  obtain ⟨-, rfl, -⟩ := countBin_cases hb'
  exact h

theorem incPending_entry (h : EntryIs j e b) : Ensures (EntryIs j e) (incPending b) := by
  intro b' hb'
  obtain ⟨rfl, -⟩ := incPending_ok hb'
  exact h

theorem writeBit_entry {bit : Bit} (h : EntryIs j e b) : Ensures (EntryIs j e) (writeBit cfg bit b) :=
  .ite (.ite (.error _) (.ok h)) (.ok h)

theorem readBit_entry (h : EntryIs j e b) : Ensures (fun p => EntryIs j e p.2) (readBit b) := by
  intro ⟨bit, b'⟩ hb'
  obtain ⟨-, rfl⟩ := readBit_ok_iff.mp hb'
  exact h

/-! #### The encoder -/

theorem writePending_entry {bit : Bit} {n : Nat} (h : EntryIs j e b) :
    Ensures (EntryIs j e) (writePending cfg bit n b) := by
  induction n generalizing b with
  | zero => exact .ok h
  | succ n ih =>
    rw [writePending_succ]
    exact (writeBit_entry h).bind fun _ h => ih h

theorem putBit_entry {bit : Bit} (h : EntryIs j e b) : Ensures (EntryIs j e) (putBit cfg bit b) := by
  rw [putBit_eq]
  exact .bind (.ite (.ok h) (writeBit_entry h)) fun _ h => writePending_entry h

theorem padByte_entry {n : Nat} (h : EntryIs j e b) : Ensures (EntryIs j e) (padByte cfg n b) := by
  induction n generalizing b with
  | zero => exact .ok h
  | succ n ih =>
    rw [padByte_succ]
    exact .ite (.ok h) ((writeBit_entry h).bind fun _ h => ih h)

theorem renormBit_entry (h : EntryIs j e b) : Ensures (EntryIs j e) (renormBit cfg b) :=
  .ite (putBit_entry h) <| .ite ((writeLow_entry h).bind fun _ h => putBit_entry h)
    ((writeLow_entry h).bind fun _ h => incPending_entry h)

theorem renormE_entry {n : Nat} (h : EntryIs j e b) : Ensures (EntryIs j e) (renormE cfg n b) := by
  induction n generalizing b with
  | zero => exact .ite (.ok h) (.error _)
  | succ n ih =>
    refine .ite (.ok h) ((renormBit_entry h).bind fun _ h => ?_)
    exact (writeRange_entry h).bind fun _ h => (writeLow_entry h).bind fun _ h => ih h

theorem encodeDecision_entry {i : BitVec 16} {bin : Bit} (h : EntryIs j e b) :
    Ensures (EntryIs j e) (encodeDecision cfg i bin b) :=
  .past fun _ _ => (writeRange_entry h).bind fun _ h =>
    .ite (.ok h) ((writeLow_entry h).bind fun _ h => writeRange_entry h)

theorem encodeBypass_entry {bin : Bit} (h : EntryIs j e b) : Ensures (EntryIs j e) (encodeBypass cfg bin b) :=
  .ite ((writeLow_entry h).bind fun _ h => putBit_entry h) <|
    .ite ((writeLow_entry h).bind fun _ h => putBit_entry h) ((writeLow_entry h).bind fun _ h => incPending_entry h)

theorem flushE_entry (h : EntryIs j e b) : Ensures (EntryIs j e) (flushE cfg b) := by
  refine (writeRange_entry h).bind fun _ h => (writeLow_entry h).bind fun _ h => ?_
  refine (writeRange_entry h).bind fun _ h => (renormE_entry h).bind fun _ h => ?_
  refine (putBit_entry h).bind fun _ h => (writeBit_entry h).bind fun _ h => ?_
  exact (writeBit_entry h).bind fun _ h => padByte_entry h

/-! #### The decoder -/

theorem renormD_entry {n : Nat} (h : EntryIs j e b) : Ensures (EntryIs j e) (renormD n b) := by
  induction n generalizing b with
  | zero => exact .ite (.ok h) (.error _)
  | succ n ih =>
    refine .ite (.ok h) ((writeRange_entry h).bind fun _ h => (readBit_entry h).bind fun _ h => ?_)
    exact (writeLow_entry h).bind fun _ h => ih h

theorem decodeDecision_entry {i : BitVec 16} (h : EntryIs j e b) :
    Ensures (fun p => EntryIs j e p.2) (decodeDecision cfg i b) :=
  .past fun _ _ => (writeRange_entry h).bind fun _ h =>
    .ite ((writeLow_entry h).bind fun _ h => (writeRange_entry h).bind fun _ h => .ok h) (.ok h)

theorem decodeBypass_entry (h : EntryIs j e b) : Ensures (fun p => EntryIs j e p.2) (decodeBypass b) :=
  (readBit_entry h).bind fun _ h =>
    .ite ((writeLow_entry h).bind fun _ h => .ok h) ((writeLow_entry h).bind fun _ h => .ok h)

/-! #### The commands -/

/-- The entry `j` survives a command within a session that completes, unless it is a regular bin of the index `j`
(41_context.md R172, R173, R176). -/
theorem ruleOf_entry {i : Instr} (hinit : isInit i = false) (habort : i ≠ .abort)
    (henc : ∀ ctx bin, i = .encReg ctx bin → ctx.toNat ≠ j) (hdec : ∀ ctx, i = .decReg ctx → ctx.toNat ≠ j)
    (h : EntryIs j e b) : Ensures (fun p => EntryIs j e p.1) (ruleOf i cfg b) := by
  cases i with
  | encInit mode => cases hinit
  | decInit mode declared input => cases hinit
  | abort => exact absurd rfl habort
  | encReg ctx bin =>
    refine .past fun _ _ => .past fun _ _ => .past fun _ _ => (countBin_entry h).bind fun _ h => ?_
    refine (encodeDecision_entry h).bind fun _ h => (updateContext_entry (henc ctx bin rfl) h).bind fun _ h => ?_
    exact (renormE_entry h).bind fun _ h => .past fun _ _ => .ok h
  | encByp bin =>
    refine .past fun _ _ => .past fun _ _ => (countBin_entry h).bind fun _ h => ?_
    exact (encodeBypass_entry h).bind fun _ h => .past fun _ _ => .ok h
  | encFin => exact .past fun _ _ => (flushE_entry h).bind fun _ h => .ok h
  | decReg ctx =>
    refine .past fun _ _ => .past fun _ _ => .past fun _ _ => (countBin_entry h).bind fun _ h => ?_
    refine (decodeDecision_entry h).bind fun _ h => (updateContext_entry (hdec ctx rfl) h).bind fun _ h => ?_
    exact (renormD_entry h).bind fun _ h => .past fun _ _ => .ok h
  | decByp =>
    refine .past fun _ _ => .past fun _ _ => (countBin_entry h).bind fun _ h => ?_
    exact (decodeBypass_entry h).bind fun _ h => .past fun _ _ => .ok h
  | decEnd => exact .past fun _ _ => .ok h
  | _ =>
    rintro ⟨b', r⟩ hrule
    exact ruleOf_keeps rfl cfg b b' r hrule ▸ h

end

/-- An error within a session does not touch the table (60_exceptions.md R318). -/
theorem errorEntry_ctx (c : Cause) (b : Block) : (errorEntry false c b).ctx = b.ctx := by
  rw [errorEntry_running]

/-- Settles O53: of the operations of a command only `UpdateContext` writes the table, and an error does not. -/
theorem contextsChangeOnlyByTheirRegularBins : Obligations.ContextsChangeOnlyByTheirRegularBins := by
  unfold Obligations.ContextsChangeOnlyByTheirRegularBins
  intro i s t j hinit habort hexec henc hdec
  rw [exec_eq_execute, hinit] at hexec
  rcases execute_cases hexec with ⟨b, r, hrule, rfl⟩ | ⟨c, -, rfl⟩
  · exact ruleOf_entry hinit habort henc hdec rfl _ hrule
  · rw [takeError_block, errorEntry_ctx]

end Sys2Proof.Machine

namespace Sys2Proof.Machine

/-! ### The start of an encode session (42_encoder.md R200, R201) -/

theorem seedContexts_of_legal {cfg : Config} {mode : Byte} (hseed : SeedLegal cfg mode) (hlps : LpsLegal cfg)
    (b : Block) : ∃ t, seedTable cfg mode = some t ∧
      seedContexts cfg mode b = .ok { b with ctx := some t, mode := mode } := by
  rcases seedContexts_cases cfg mode b with ⟨hnot, -⟩ | ⟨-, hnot, -⟩ | ⟨-, -, h⟩
  · exact absurd hseed hnot
  · exact absurd hlps hnot
  · exact h

/-- Settles O20: both checks of the seeding pass, so the table it writes is the seed's, and the assignments after it
are of values that fit. -/
theorem encInitStartsASession : Obligations.EncInitStartsASession := by
  unfold Obligations.EncInitStartsASession
  intro s mode hseed hlps
  obtain ⟨tab, htab, hseeded⟩ := seedContexts_of_legal hseed hlps Block.reset
  obtain ⟨hlength, hentries⟩ := seedTable_some htab
  refine ⟨tab, hlength, hentries, (exec_eq_execute _ s).trans (execute_ok (r := {}) ?_)⟩
  rw [ruleOf, encInitRule_eq, hseeded, ok_bind]

/-! ### The checks before a bin is encoded (42_encoder.md R202, R207, R209) -/

theorem checkState_encode_ok {b : Block} (h : b.sstate = .encActive) : checkState .encode b = .ok () := by
  rw [checkState_eq, h]
  rfl

theorem binOperand_of_gt {a : Word} (h : 1 < a.toNat) : binOperand a = .error .binValue := if_pos h

theorem binOperand_of_le {a : Word} (h : ¬ 1 < a.toNat) : ∃ bin, binOperand a = .ok bin := ⟨_, if_neg h⟩

theorem countBin_full {b : Block} (h : b.binCount.toNat = 2 ^ 32 - 1) : countBin b = .error .binCountOverflow :=
  if_pos h

section
variable {cfg : Config} {b : Block} {i : BitVec 16} {bin : Word}

theorem encRegRule_ctxRange (hactive : b.sstate = .encActive) (hindex : nCtx cfg ≤ i.toNat) :
    encRegRule i bin cfg b = .error .ctxRange := by
  simp [encRegRule, checkState_encode_ok hactive, checkCtxIndex_error_iff.mpr ⟨rfl, hindex⟩]

theorem encRegRule_binValue (hactive : b.sstate = .encActive) (hindex : i.toNat < nCtx cfg) (hbin : 1 < bin.toNat) :
    encRegRule i bin cfg b = .error .binValue := by
  simp [encRegRule, checkState_encode_ok hactive, checkCtxIndex_ok_iff.mpr hindex, binOperand_of_gt hbin]

theorem encRegRule_binCountOverflow (hactive : b.sstate = .encActive) (hindex : i.toNat < nCtx cfg)
    (hbin : ¬ 1 < bin.toNat) (hfull : b.binCount.toNat = 2 ^ 32 - 1) :
    encRegRule i bin cfg b = .error .binCountOverflow := by
  obtain ⟨x, hx⟩ := binOperand_of_le hbin
  simp [encRegRule, checkState_encode_ok hactive, checkCtxIndex_ok_iff.mpr hindex, hx, countBin_full hfull]

theorem encBypRule_binValue (hactive : b.sstate = .encActive) (hbin : 1 < bin.toNat) :
    encBypRule bin cfg b = .error .binValue := by
  simp [encBypRule, checkState_encode_ok hactive, binOperand_of_gt hbin]

theorem encBypRule_binCountOverflow (hactive : b.sstate = .encActive) (hbin : ¬ 1 < bin.toNat)
    (hfull : b.binCount.toNat = 2 ^ 32 - 1) : encBypRule bin cfg b = .error .binCountOverflow := by
  obtain ⟨x, hx⟩ := binOperand_of_le hbin
  simp [encBypRule, checkState_encode_ok hactive, hx, countBin_full hfull]

end

/-- Settles O29: each check is reached when the ones before it pass, and raises its own cause. -/
theorem encoderChecksItsOperandsInOrder : Obligations.EncoderChecksItsOperandsInOrder := by
  unfold Obligations.EncoderChecksItsOperandsInOrder
  intro s i bin hactive
  constructor
  · split_ifs with hindex hbin hfull
    · exact answersError_of_ruleOf (encRegRule_ctxRange hactive hindex)
    · exact answersError_of_ruleOf (encRegRule_binValue hactive (not_le.mp hindex) hbin)
    · exact answersError_of_ruleOf (encRegRule_binCountOverflow hactive (not_le.mp hindex) hbin hfull)
  · split_ifs with hbin hfull
    · exact answersError_of_ruleOf (encBypRule_binValue hactive hbin)
    · exact answersError_of_ruleOf (encBypRule_binCountOverflow hactive hbin hfull)

/-! ### A counted bin -/

/-- The block as `CountBin` leaves it, short of the end of the counter (42_encoder.md R209). -/
def counted (b : Block) : Block := { b with binCount := b.binCount + 1 }

theorem countBin_ok {b : Block} (h : b.binCount.toNat < 2 ^ 32 - 1) : countBin b = .ok (counted b) := if_neg h.ne

theorem counted_binCount {b : Block} (h : b.binCount.toNat < 2 ^ 32 - 1) :
    (counted b).binCount.toNat = b.binCount.toNat + 1 := by
  obtain ⟨-, -, hsucc⟩ := countBin_cases (countBin_ok h)
  exact hsucc

theorem Encoding.counted {cfg : Config} {b : Block} (h : Encoding cfg b) : Encoding cfg (counted b) := h.count _

theorem emits_counted (cfg : Config) (b : Block) : Emits cfg b (counted b) := Emits.registers b _ _ _ _ _

theorem HasRoom.counted {cfg : Config} {b : Block} {n : Nat} (h : HasRoom cfg b n) : HasRoom cfg (counted b) n :=
  h.of_bits (bits_congr rfl rfl rfl)

/-- The registers that no command of an encode session but `ENC.FIN` writes. -/
theorem Emits.kept {cfg : Config} {b b' : Block} (h : Emits cfg b b') (hactive : b.sstate = .encActive) :
    b'.sstate = .encActive ∧ b'.mode = b.mode ∧ b'.errClass = b.errClass ∧ b'.errCause = b.errCause ∧
      b'.ibuf = b.ibuf ∧ b'.ipos = b.ipos ∧ b'.hasDecl = b.hasDecl ∧ b'.declCount = b.declCount := by
  rw [h.frame]
  exact ⟨hactive, rfl, rfl, rfl, rfl, rfl, rfl, rfl⟩

/-! ### `ENC.BYP` (42_encoder.md R207, R208) -/

theorem toNat_ofNat_low {n : Nat} (h : n < 1024) : (BitVec.ofNat 10 n).toNat = n := by
  rw [BitVec.toNat_ofNat, Nat.mod_eq_of_lt h]

/-- The bypass step settles a bit or leaves one more pending: with `v` the doubled low and the range added for a bin of
1, a 1 is settled from 1024 on and a 0 below 512, and `LOW` keeps the rest of `v` (42_encoder.md R208). -/
theorem encodeBypass_cases {cfg : Config} {bin : Bit} {b b' : Block} (hb : Coding b)
    (h : encodeBypass cfg bin b = .ok b') :
    let v := 2 * b.low.toNat + if bin then b.range.toNat else 0
    (∃ bit m low, Packed (settledBits b.first b.pending.toNat bit) b m ∧ low.toNat + bit.toNat * 1024 = v ∧
      (bit = false → v < 512) ∧ b' = { m with low := low, first := false, pending := 0 }) ∨
    (∃ low, low.toNat + 512 = v ∧ v < 1024 ∧ (b.pending + 1).toNat = b.pending.toNat + 1 ∧
      b' = { b with low := low, pending := b.pending + 1 }) := by
  have hscale := hb.scale
  have hpos := hb.pos
  have hv : 2 * b.low.toNat + (if bin then b.range.toNat else 0) < 2048 := by split <;> omega
  obtain ⟨hcarry, hbelow, hpend⟩ := encodeBypass_ok hb h
  dsimp only
  generalize 2 * b.low.toNat + (if bin then b.range.toNat else 0) = v at *
  rcases le_or_gt 1024 v with hhigh | hhigh
  · obtain ⟨m, hm, he⟩ := hcarry hhigh
    have hlow := toNat_ofNat_low (n := v - 1024) (by omega)
    exact .inl ⟨true, m, _, hm, by rw [hlow, Bool.toNat_true]; omega, nofun, he⟩
  · rcases lt_or_ge v 512 with hsmall | hsmall
    · obtain ⟨m, hm, he⟩ := hbelow hsmall
      have hlow := toNat_ofNat_low (n := v) (by omega)
      exact .inl ⟨false, m, _, hm, by rw [hlow, Bool.toNat_false]; omega, fun _ => hsmall, he⟩
    · obtain ⟨he, hpending⟩ := hpend hsmall hhigh
      have hlow := toNat_ofNat_low (n := v - 512) (by omega)
      exact .inr ⟨_, by rw [hlow]; omega, hhigh, hpending, he⟩

/-- The bypass step writes the registers of the interval and of the packer only. -/
theorem encodeBypass_kept {cfg : Config} {bin : Bit} {b b' : Block} (hb : Coding b)
    (h : encodeBypass cfg bin b = .ok b') : b'.ctx = b.ctx ∧ b'.binCount = b.binCount := by
  rcases encodeBypass_cases hb h with ⟨bit, m, low, hm, -, -, rfl⟩ | ⟨low, -, -, -, rfl⟩
  · rw [hm.frame]
    exact ⟨rfl, rfl⟩
  · exact ⟨rfl, rfl⟩

/-- Past its checks, `ENC.BYP` completes exactly with the block of the bypass step of a counted bin. -/
theorem encBypRule_ok_iff {cfg : Config} {b b' : Block} {bin : Bit} {r : Result} (h : Encoding cfg b)
    (hactive : b.sstate = .encActive) (hcount : b.binCount.toNat < 2 ^ 32 - 1) :
    encBypRule (bitWord bin) cfg b = .ok (b', r) ↔ encodeBypass cfg bin (counted b) = .ok b' ∧ r = {} := by
  rw [encBypRule, checkState_encode_ok hactive, ok_bind, binOperand_bitWord, ok_bind, countBin_ok hcount, ok_bind,
    bind_ok_iff]
  constructor
  · rintro ⟨m, hm, hr⟩
    obtain ⟨_, -, hr⟩ := bind_ok_iff.mp hr
    cases hr
    exact ⟨hm, rfl⟩
  · rintro ⟨hb', rfl⟩
    obtain ⟨-, hrange, -⟩ := encodeBypass_coding h.counted.coding hb'
    exact ⟨b', hb', by rw [checkInvariantE_eq_ok (hrange ▸ h.range_ge), ok_bind]⟩

/-- What a bypass step leaves in `LOW` and in the packer, by the band of `v`, the doubled low with the range added for a
bin of 1. -/
def BypassBands (v : Nat) (b b' : Block) : Prop :=
  if 1024 ≤ v then
    b'.low.toNat = v - 1024 ∧ b'.bits = b.bits ++ settledBits b.first b.pending.toNat true ∧ b'.pending = 0 ∧
      b'.first = false
  else if v < 512 then
    b'.low.toNat = v ∧ b'.bits = b.bits ++ settledBits b.first b.pending.toNat false ∧ b'.pending = 0 ∧ b'.first = false
  else
    b'.low.toNat = v - 512 ∧ b'.bits = b.bits ∧ b'.pending.toNat = b.pending.toNat + 1 ∧ b'.first = b.first

theorem Packed.bits_settled {l : List Bit} {b m : Block} (h : Packed l b m) (low : BitVec 10) :
    Block.bits { m with low := low, first := false, pending := 0 } = b.bits ++ l := h.bits

theorem encodeBypass_bands {cfg : Config} {bin : Bit} {b b' : Block} (hb : Coding b)
    (h : encodeBypass cfg bin b = .ok b') :
    BypassBands (2 * b.low.toNat + if bin then b.range.toNat else 0) b b' := by
  have hcases := encodeBypass_cases hb h
  generalize 2 * b.low.toNat + (if bin then b.range.toNat else 0) = v at hcases ⊢
  unfold BypassBands
  rcases hcases with ⟨bit, m, low, hm, hlow, hzero, rfl⟩ | ⟨low, hlow, hlt, hpending, rfl⟩
  · cases bit with
    | true =>
      rw [Bool.toNat_true] at hlow
      rw [if_pos (by omega)]
      exact ⟨by dsimp only; omega, hm.bits_settled low, rfl, rfl⟩
    | false =>
      have hsmall := hzero rfl
      rw [if_neg (by omega), if_pos hsmall]
      exact ⟨hlow, hm.bits_settled low, rfl, rfl⟩
  · rw [if_neg (by omega), if_neg (by omega)]
    exact ⟨by dsimp only; omega, bits_congr rfl rfl rfl, hpending, rfl⟩

/-- Settles O26: past its checks the command is the bypass step, which has the room it needs. -/
theorem encBypSettlesOneBit : Obligations.EncBypSettlesOneBit := by
  unfold Obligations.EncBypSettlesOneBit
  intro s bin hinv hactive hcount hroom v hpending settled
  have hstart := hinv.encoding hactive
  obtain ⟨b', hbypass⟩ := encodeBypass_room (cfg := s.config) (bin := bin) hstart.counted.coding hpending
    (room_iff.mp hroom).counted
  have hrule := (encBypRule_ok_iff hstart hactive hcount).mpr ⟨hbypass, rfl⟩
  obtain ⟨-, hrange, hstep⟩ := encodeBypass_coding hstart.counted.coding hbypass
  obtain ⟨hctx, hcounted⟩ := encodeBypass_kept hstart.counted.coding hbypass
  have hemits := (emits_counted s.config s.block).trans hstep
  obtain ⟨⟨hobuf, -⟩, -⟩ := ruleOf_appends (i := .encByp (bitWord bin)) rfl s.config s.block _ hrule
  have hsettled : ∀ x, s.block.bits ++ settledBits s.block.first s.block.pending.toNat x = settled x := fun x =>
    (List.append_assoc _ _ _).symm
  refine ⟨_, (exec_eq_execute _ s).trans (execute_ok hrule), rfl, ?_, hrange, hctx,
    (congrArg BitVec.toNat hcounted).trans (counted_binCount hcount), hobuf, (hemits.side hstart.side).last, rfl, rfl,
    hemits.kept hactive⟩
  rw [← hsettled, ← hsettled]
  exact encodeBypass_bands (b := counted s.block) hstart.counted.coding hbypass

/-- A settled bypass bin on the exact interval: what `LOW` loses, the bit adds. -/
theorem settled_doubles {b m : Block} {bit : Bit} {low : BitVec 10} {add : Nat} (hb : Coding b)
    (hm : Packed (settledBits b.first b.pending.toNat bit) b m)
    (hlow : low.toNat + bit.toNat * 1024 = 2 * b.low.toNat + add) (hfirst : b.first = true → bit = false) :
    Block.exactLow { m with low := low, first := false, pending := 0 } = 2 * b.exactLow + add ∧
      Block.position { m with low := low, first := false, pending := 0 } = b.position + 1 := by
  obtain ⟨hexact, hposition⟩ := settled_exact (low := low) (range := m.range) hm fun hf => ⟨hb.start hf, hfirst hf⟩
  refine ⟨?_, hposition⟩
  omega

/-- A bypass bin left pending on the exact interval: the run is one digit longer, and `LOW` loses what it stands for. -/
theorem deferred_doubles {b : Block} {low : BitVec 10} {add : Nat}
    (hpending : (b.pending + 1).toNat = b.pending.toNat + 1) (hlow : low.toNat + 512 = 2 * b.low.toNat + add) :
    Block.exactLow { b with low := low, pending := b.pending + 1 } = 2 * b.exactLow + add ∧
      Block.position { b with low := low, pending := b.pending + 1 } = b.position + 1 := by
  have hbits : Block.bits { b with low := low, pending := b.pending + 1 } = b.bits := bits_congr rfl rfl rfl
  have hpow := Nat.one_le_two_pow (n := b.pending.toNat)
  have hdouble : bitsValue b.bits * 2 ^ (b.pending.toNat + 1 + 10) =
      2 * (bitsValue b.bits * 2 ^ (b.pending.toNat + 10)) := by ring
  constructor
  · simp only [Block.exactLow, hbits, hpending, hdouble, pow_succ 2 b.pending.toNat]
    omega
  · simp only [Block.position, hbits, hpending]
    omega

/-- The bypass step on the exact interval (42_encoder.md R210): twice the scale, the upper half for a bin of 1. -/
theorem encodeBypass_exact {cfg : Config} {bin : Bit} {b b' : Block} (hb : Coding b)
    (h : encodeBypass cfg bin b = .ok b') :
    b'.exactLow = 2 * b.exactLow + (if bin then b.range.toNat else 0) ∧ b'.position = b.position + 1 := by
  have hadd : (if bin then b.range.toNat else 0) ≤ b.range.toNat := by split <;> omega
  rcases encodeBypass_cases hb h with ⟨bit, m, low, hm, hlow, -, rfl⟩ | ⟨low, hlow, -, hpending, rfl⟩
  · refine settled_doubles hb hm hlow fun hf => ?_
    have hscale := hb.first_scale hf
    cases bit with
    | true => rw [Bool.toNat_true] at hlow; omega
    | false => rfl
  · exact deferred_doubles hpending hlow

/-- An `ENC.BYP` that completes has passed its checks. -/
theorem encBypRule_checks {cfg : Config} {b b' : Block} {bin : Word} {r : Result}
    (h : encBypRule bin cfg b = .ok (b', r)) : b.sstate = .encActive ∧ b.binCount.toNat < 2 ^ 32 - 1 := by
  unfold encBypRule at h
  obtain ⟨_, hstate, h⟩ := bind_ok_iff.mp h
  obtain ⟨_, -, h⟩ := bind_ok_iff.mp h
  obtain ⟨_, hcount, -⟩ := bind_ok_iff.mp h
  exact ⟨sstate_of_checkState_encode hstate, (countBin_cases hcount).1⟩

/-- Settles O27: a command that completes is a bypass step, whose three bands agree on the exact interval. -/
theorem encBypHalvesTheExactInterval : Obligations.EncBypHalvesTheExactInterval := by
  unfold Obligations.EncBypHalvesTheExactInterval
  intro s t bin hinv hexec hresponse
  rw [exec_eq_execute] at hexec
  rcases execute_cases hexec with ⟨b', r, hrule, rfl⟩ | ⟨c, -, rfl⟩
  · obtain ⟨hactive, hcount⟩ := encBypRule_checks hrule
    have hstart := hinv.encoding hactive
    obtain ⟨hbypass, -⟩ := (encBypRule_ok_iff hstart hactive hcount).mp hrule
    obtain ⟨hexact, hposition⟩ := encodeBypass_exact hstart.counted.coding hbypass
    obtain ⟨-, hrange, -⟩ := encodeBypass_coding hstart.counted.coding hbypass
    exact ⟨hexact, hposition, hrange⟩
  · simp at hresponse

/-! ### Narrowing the interval

`ENC.REG` and the flush of `ENC.FIN` each go on with a part of the interval: `offset` above its low end, `width` wide
(42_encoder.md R203, 43_bit_sink.md R236). -/

/-- `LOW` and `RANGE` of the part, nothing else written. -/
def narrowed (offset width : Nat) (b : Block) : Block :=
  { b with low := BitVec.ofNat 10 (b.low.toNat + offset), range := BitVec.ofNat 9 width }

section
variable {b : Block} {offset width : Nat}

theorem bits_narrowed : (narrowed offset width b).bits = b.bits := bits_congr rfl rfl rfl

theorem position_narrowed : (narrowed offset width b).position = b.position := rfl

/-- A part of the interval is within the scale, and its low end and its width fit their registers. -/
theorem narrowed_part (hb : Coding b) (hpos : 1 ≤ width) (hpart : offset + width ≤ b.range.toNat) :
    (narrowed offset width b).low.toNat = b.low.toNat + offset ∧ (narrowed offset width b).range.toNat = width ∧
      (narrowed offset width b).exactLow = b.exactLow + offset ∧ Coding (narrowed offset width b) := by
  have hlt := b.range.isLt
  have hscale := hb.scale
  have hinside := hb.inside
  have hlow : (narrowed offset width b).low.toNat = b.low.toNat + offset := toNat_ofNat_low (by omega)
  have hrange : (narrowed offset width b).range.toNat = width := by
    rw [narrowed, BitVec.toNat_ofNat, Nat.mod_eq_of_lt (by omega)]
  have hexact : (narrowed offset width b).exactLow = b.exactLow + offset := by
    rw [Block.exactLow, bits_narrowed, hlow]
    exact (Nat.add_assoc _ _ _).symm
  refine ⟨hlow, hrange, hexact, hb.fits, by omega, by omega, hb.start, ?_⟩
  rw [hexact, hrange, position_narrowed]
  omega

theorem emits_narrowed (cfg : Config) (offset width : Nat) (b : Block) : Emits cfg b (narrowed offset width b) :=
  Emits.registers b _ _ _ _ _

end

/-! ### `ENC.REG` (42_encoder.md R202 to R206) -/

/-- Where in the interval the part of a bin begins: the MPS takes the lower part, the LPS the upper (42_encoder.md
R203). -/
def partOffset (cfg : Config) (c : ContextState) (bin : Bit) (b : Block) : Nat :=
  if bin = c.valMPS then 0 else b.range.toNat - lpsRange cfg c.pStateIdx b.range

/-- How wide the part of a bin is. -/
def partWidth (cfg : Config) (c : ContextState) (bin : Bit) (b : Block) : Nat :=
  if bin = c.valMPS then b.range.toNat - lpsRange cfg c.pStateIdx b.range else lpsRange cfg c.pStateIdx b.range

theorem Encoding.part_bounds {cfg : Config} {b : Block} (h : Encoding cfg b) (c : ContextState) (bin : Bit) :
    1 ≤ partWidth cfg c bin b ∧ partOffset cfg c bin b + partWidth cfg c bin b ≤ b.range.toNat := by
  obtain ⟨hpos, hlt⟩ := lpsRange_bounds h.opened.lps c.pStateIdx h.range_ge
  unfold partWidth partOffset
  split <;> omega

theorem encodeDecision_narrowed {cfg : Config} {i : BitVec 16} {bin : Bit} {b : Block} {c : ContextState}
    (h : Encoding cfg b) (hc : readCtx i b = .ok c) :
    encodeDecision cfg i bin b = .ok (narrowed (partOffset cfg c bin b) (partWidth cfg c bin b) b) := by
  rw [encodeDecision_eq hc h.opened.lps h.range_ge h.coding.scale, partOffset, partWidth]
  split
  · simp [narrowed]
  · rfl

/-- The block that `ENC.REG` renormalizes: the bin counted, its part of the interval taken, its context adapted. -/
def beforeRenorm (cfg : Config) (i : BitVec 16) (bin : Bit) (tab : List ContextState) (c : ContextState) (b : Block) :
    Block :=
  { narrowed (partOffset cfg c bin b) (partWidth cfg c bin b) (counted b) with
    ctx := some (tab.set i.toNat (adapt cfg c bin)) }

/-- `ENC.REG` of a bin for the context `c`, the entry `i` of the table `tab`, in an open encode session. -/
structure EncodesRegular (cfg : Config) (i : BitVec 16) (tab : List ContextState) (c : ContextState) (b : Block) :
    Prop where
  encoding : Encoding cfg b
  active : b.sstate = .encActive
  table : b.ctx = some tab
  entry : tab[i.toNat]? = some c
  count : b.binCount.toNat < 2 ^ 32 - 1

section
variable {cfg : Config} {i : BitVec 16} {tab : List ContextState} {c : ContextState} {b : Block}

theorem EncodesRegular.index_lt (h : EncodesRegular cfg i tab c b) : i.toNat < nCtx cfg := by
  obtain ⟨t, ht, hlength⟩ := h.encoding.opened.table
  obtain ⟨hi, -⟩ := List.getElem?_eq_some_iff.mp h.entry
  rw [h.table] at ht
  cases ht
  exact hlength ▸ hi

/-- Past its checks, `ENC.REG` takes the bin's part, adapts the context and renormalizes (42_encoder.md R202). -/
theorem EncodesRegular.rule_eq (h : EncodesRegular cfg i tab c b) (bin : Bit) :
    encRegRule i (bitWord bin) cfg b = (renormE cfg 8 (beforeRenorm cfg i bin tab c b) >>= fun b =>
      checkInvariantE b >>= fun _ => .ok (b, {})) := by
  have hread : readCtx i (counted b) = .ok c := readCtx_ok_iff.mpr ⟨tab, h.table, h.entry⟩
  have hupdate : updateContext cfg i bin (narrowed (partOffset cfg c bin b) (partWidth cfg c bin b) (counted b)) =
      .ok (beforeRenorm cfg i bin tab c b) := updateContext_ok_iff.mpr ⟨tab, c, h.table, h.entry, rfl⟩
  rw [encRegRule, checkState_encode_ok h.active, ok_bind, checkCtxIndex_ok_iff.mpr h.index_lt, ok_bind,
    binOperand_bitWord, ok_bind, countBin_ok h.count, ok_bind, encodeDecision_narrowed h.encoding.counted hread,
    ok_bind]
  exact congrArg (· >>= _) hupdate

/-- The bin's part of the interval, as the renormalization finds it. -/
theorem EncodesRegular.part (h : EncodesRegular cfg i tab c b) (bin : Bit) :
    (beforeRenorm cfg i bin tab c b).low.toNat = b.low.toNat + partOffset cfg c bin b ∧
      (beforeRenorm cfg i bin tab c b).range.toNat = partWidth cfg c bin b ∧
      (beforeRenorm cfg i bin tab c b).exactLow = b.exactLow + partOffset cfg c bin b ∧
      Coding (beforeRenorm cfg i bin tab c b) := by
  obtain ⟨hpos, hle⟩ := h.encoding.part_bounds c bin
  obtain ⟨hlow, hrange, hexact, hcoding⟩ := narrowed_part h.encoding.counted.coding hpos hle
  exact ⟨hlow, hrange, hexact, hcoding.context _⟩

theorem EncodesRegular.emits (h : EncodesRegular cfg i tab c b) (bin : Bit) :
    Emits cfg b (beforeRenorm cfg i bin tab c b) := by
  obtain ⟨t, ht, hlength⟩ := h.encoding.opened.table
  rw [h.table] at ht
  cases ht
  exact ((emits_counted cfg b).trans (emits_narrowed cfg _ _ _)).trans (Emits.context _ (by simpa using hlength))

/-- With the room it needs, `ENC.REG` completes with the bin's part renormalized (42_encoder.md R205). -/
theorem EncodesRegular.completes (h : EncodesRegular cfg i tab c b) {bin : Bit}
    (hpasses : ¬ RunPasses b.pending.toNat (b.low.toNat + partOffset cfg c bin b) (doublings (partWidth cfg c bin b)))
    (hroom : Room cfg b (doublings (partWidth cfg c bin b))) :
    ∃ b', encRegRule i (bitWord bin) cfg b = .ok (b', {}) ∧
      Scaled (doublings (partWidth cfg c bin b)) (beforeRenorm cfg i bin tab c b) b' ∧ Emits cfg b b' := by
  obtain ⟨hlow, hrange, -, hcoding⟩ := h.part bin
  obtain ⟨b', hb'⟩ := renormE_room (cfg := cfg) hcoding (doublings_le _) (by rw [hlow, hrange]; exact hpasses)
    (by rw [hrange]; exact (room_iff.mp hroom).of_bits (bits_congr rfl rfl rfl))
  obtain ⟨hge, hscaled⟩ := renormE_ok hcoding hb'
  refine ⟨b', ?_, hrange ▸ hscaled, (h.emits bin).trans (hscaled.emits fun hc => hc.renormE hb')⟩
  rw [h.rule_eq, hb', ok_bind, checkInvariantE_eq_ok hge, ok_bind]

end

/-- A renormalization writes neither the context table nor the counter of bins. -/
theorem Scaled.kept {k : Nat} {b b' : Block} (h : Scaled k b b') : b'.ctx = b.ctx ∧ b'.binCount = b.binCount := by
  rw [h.frame]
  exact ⟨rfl, rfl⟩

/-- Settles O25: the command takes the bin's part of the exact interval, and the renormalization scales it. -/
theorem encRegNarrowsTheExactInterval : Obligations.EncRegNarrowsTheExactInterval := by
  unfold Obligations.EncRegNarrowsTheExactInterval
  intro s i bin tab c hinv hactive htable hentry hcount lps mps r k hpasses hroom
  have h : EncodesRegular s.config i tab c s.block := ⟨hinv.encoding hactive, hactive, htable, hentry, hcount⟩
  have hlps : lpsRange s.config c.pStateIdx s.block.range = lps := lpsRange_eq _ _ _
  have hoffset : partOffset s.config c bin s.block = if bin = c.valMPS then 0 else mps := by rw [partOffset, hlps]
  have hwidth : partWidth s.config c bin s.block = r := by rw [partWidth, hlps]
  obtain ⟨b', hrule, hscaled, hemits⟩ := h.completes (bin := bin) (by rwa [hoffset, hwidth]) (by rwa [hwidth])
  obtain ⟨-, hrange, hexact, -⟩ := h.part bin
  obtain ⟨l, hbits, -⟩ := hscaled.packed
  obtain ⟨hctx, hcounted⟩ := hscaled.kept
  rw [hwidth] at hscaled hrange
  rw [hoffset] at hexact
  exact ⟨_, (exec_eq_execute _ s).trans (execute_ok hrule), rfl, hrange ▸ hscaled.range, hexact ▸ hscaled.exact,
    hscaled.position, hctx, (congrArg BitVec.toNat hcounted).trans (counted_binCount hcount), ⟨l, hbits.symm⟩,
    hscaled.bytes, rfl, rfl, hemits.kept hactive⟩

/-! ### The flush (43_bit_sink.md R236, R237) -/

/-- The zeros that complete a byte after `n` bits. -/
def padLength (n : Nat) : Nat := (8 - n % 8) % 8

/-- With room for the zeros, the padding does not fail. -/
theorem padByte_room {cfg : Config} {n : Nat} {b : Block} (hb : b.part.toNat < 2 ^ b.pcnt.toNat)
    (hr : HasRoom cfg b (padLength b.bits.length)) : ∃ b', padByte cfg n b = .ok b' := by
  induction n generalizing b with
  | zero => exact ⟨b, rfl⟩
  | succ n ih =>
    rw [padByte_succ]
    split
    · exact ⟨b, rfl⟩
    · rename_i hpcnt
      have hne : b.bits.length % 8 ≠ 0 := fun he => hpcnt (BitVec.eq_of_toNat_eq ((pcnt_eq b).trans he))
      obtain ⟨m, hw⟩ := writeBit_room (cfg := cfg) false (hr.mono (by rw [padLength]; omega))
      have hp := (writeBit_ok hb hw).1
      rw [hw, ok_bind]
      refine ih hp.fits (hr.mono ?_ |>.after hp.bits)
      rw [padLength, padLength, hp.bits, List.length_append, List.length_singleton]
      omega

/-- The end of `FlushE`, after its renormalization. -/
def flushTail (cfg : Config) (b : Block) : Except Cause Block :=
  putBit cfg (b.low.getLsbD 9) b >>= fun b =>
    writeBit cfg (b.low.getLsbD 8) b >>= fun b => writeBit cfg true b >>= fun b => padByte cfg 7 b

/-- What it writes before the padding: the two top bits of `LOW` and the stop bit, and with the first of them the
pending ones. -/
def flushBits (b : Block) : List Bit :=
  settledBits b.first b.pending.toNat (b.low.getLsbD 9) ++ [b.low.getLsbD 8, true]

/-- Settling a bit writes out all that the position counts but that bit (43_bit_sink.md R240). -/
theorem length_bits_settled (b : Block) (bit : Bit) :
    (b.bits ++ settledBits b.first b.pending.toNat bit).length = b.position := by
  simp only [settledBits, Block.position, List.length_append, List.length_replicate]
  split
  · simp
  · simp; omega

theorem length_bits_flushed (b : Block) : (b.bits ++ flushBits b).length = b.position + 2 := by
  rw [flushBits, ← List.append_assoc, List.length_append, length_bits_settled]
  rfl

/-- Before the first bit of a session is settled, the top bit of `LOW` is 0. -/
theorem Coding.top_of_first {b : Block} (hb : Coding b) (hf : b.first = true) : b.low.getLsbD 9 = false := by
  have hscale := hb.first_scale hf
  exact Nat.testBit_lt_two_pow (by omega)

/-- `LOW` is its two top bits and the eight below them. -/
theorem low_top_bits (low : BitVec 10) :
    low.toNat = 512 * (low.getLsbD 9).toNat + 256 * (low.getLsbD 8).toNat + low.toNat % 256 := by
  have hlt := low.isLt
  simp only [BitVec.getLsbD, Nat.toNat_testBit]
  omega

/-- The bits of the flush are the exact low end without its last eight bits, and the stop bit (43_bit_sink.md R233,
R236). -/
theorem bitsValue_flushed {b m : Block} (hb : Coding b)
    (hm : Packed (settledBits b.first b.pending.toNat (b.low.getLsbD 9)) b m) :
    bitsValue (b.bits ++ flushBits b) = 2 * (b.exactLow / 2 ^ 8) + 1 := by
  have htop := low_top_bits b.low
  have hsettled : bitsValue (b.bits ++ settledBits b.first b.pending.toNat (b.low.getLsbD 9)) * 1024 +
      2 * b.low.toNat = 2 * b.exactLow + (b.low.getLsbD 9).toNat * 1024 := by
    have hexact := (settled_exact (low := 0) (range := m.range) hm fun hf => ⟨hb.start hf, hb.top_of_first hf⟩).1
    rw [← hm.bits_settled 0]
    simpa [Block.exactLow, Block.bits] using hexact
  have hvalue : bitsValue (b.bits ++ flushBits b) =
      4 * bitsValue (b.bits ++ settledBits b.first b.pending.toNat (b.low.getLsbD 9)) +
        2 * (b.low.getLsbD 8).toNat + 1 := by
    rw [flushBits, ← List.append_assoc, bitsValue_append]
    simp only [bitsValue_cons, List.length_cons, List.length_nil, bitsValue_nil, Bool.toNat_true]
    ring
  omega

/-- With room for its bits and its padding, the end of the flush does not fail, and writes them. -/
theorem Coding.flushTail_completes {cfg : Config} {b : Block} (hb : Coding b)
    (hroom : ∀ cap, cfg.obufCap = some cap → b.position + 2 + padLength (b.position + 2) ≤ 8 * cap) :
    ∃ m b', flushTail cfg b = .ok b' ∧ Packed (settledBits b.first b.pending.toNat (b.low.getLsbD 9)) b m ∧
      Packed ([b.low.getLsbD 8, true] ++ List.replicate (padLength (b.position + 2)) false)
        { m with first := false, pending := 0 } b' := by
  have hcap : ∀ {d : Block} {k : Nat}, d.bits.length + k ≤ b.position + 2 + padLength (b.position + 2) →
      HasRoom cfg d k := fun hle cap hc => by
    have := hroom cap hc
    omega
  obtain ⟨b₂, hput⟩ := putBit_room (cfg := cfg) (bit := b.low.getLsbD 9) hb.fits (hcap (by
    rw [Block.position]; omega))
  obtain ⟨m, hm, rfl⟩ := putBit_ok hb.fits hput
  have hlow : m.low.getLsbD 8 = b.low.getLsbD 8 := by rw [hm.frame]
  have hlen₂ : (Block.bits { m with first := false, pending := 0 }).length = b.position :=
    (congrArg List.length hm.bits).trans (length_bits_settled b _)
  obtain ⟨b₃, hwrite⟩ := writeBit_room (cfg := cfg) (b := { m with first := false, pending := 0 })
    (b.low.getLsbD 8) (hcap (by omega))
  have hw₃ := (writeBit_ok (b := { m with first := false, pending := 0 }) hm.fits hwrite).1
  have hlen₃ : b₃.bits.length = b.position + 1 := by rw [hw₃.bits, List.length_append, hlen₂]; rfl
  obtain ⟨b₄, hstop⟩ := writeBit_room (cfg := cfg) true (hcap (d := b₃) (k := 1) (by omega))
  have hw₄ := (writeBit_ok hw₃.fits hstop).1
  have hlen₄ : b₄.bits.length = b.position + 2 := by rw [hw₄.bits, List.length_append, hlen₃]; rfl
  obtain ⟨b', hpad⟩ := padByte_room (n := 7) hw₄.fits (hcap (by rw [hlen₄]))
  have hw₅ := (padByte_ok hw₄.fits hpad (by omega)).1
  rw [pcnt_eq, hlen₄] at hw₅
  refine ⟨m, b', ?_, hm, (hw₃.trans hw₄).trans hw₅⟩
  rw [flushTail, hput, ok_bind, hlow, hwrite, ok_bind, hstop, ok_bind, hpad]

/-- `FlushE` is a renormalization of the two highest values of the interval, and the end (43_bit_sink.md R236). -/
theorem flushE_eq_flushTail {cfg : Config} {b : Block} (h : Encoding cfg b) :
    flushE cfg b = (renormE cfg 8 (narrowed (b.range.toNat - 2) 2 b) >>= flushTail cfg) :=
  flushE_eq h.range_ge h.coding.scale

/-- With room for its bits and its padding, the flush does not fail: it scales the exact interval by the seven doublings
of its width of 2, and writes the end of the flush. -/
theorem Encoding.flush_completes {cfg : Config} {b : Block} (h : Encoding cfg b)
    (hpasses : ¬ RunPasses b.pending.toNat (b.low.toNat + b.range.toNat - 2) 7)
    (hroom : ∀ cap, cfg.obufCap = some cap → b.position + 9 + padLength (b.position + 9) ≤ 8 * cap) :
    ∃ d m b', flushE cfg b = .ok b' ∧ Scaled 7 (narrowed (b.range.toNat - 2) 2 b) d ∧
      Packed (settledBits d.first d.pending.toNat (d.low.getLsbD 9)) d m ∧
      Packed ([d.low.getLsbD 8, true] ++ List.replicate (padLength (b.position + 9)) false)
        { m with first := false, pending := 0 } b' := by
  have hge := h.range_ge
  have hscale := h.coding.scale
  obtain ⟨hlow, hrange, -, hcoding⟩ := narrowed_part (offset := b.range.toNat - 2) (width := 2) h.coding (by omega)
    (by omega)
  have hseven : doublings (narrowed (b.range.toNat - 2) 2 b).range.toNat = 7 := by rw [hrange]; decide
  have hfits : HasRoom cfg b (b.pending.toNat + 7) := fun cap hc => by
    have := hroom cap hc
    rw [Block.position] at this
    omega
  obtain ⟨d, hd⟩ := renormE_room (cfg := cfg) (n := 8) hcoding (doublings_le _)
    (by rwa [hseven, hlow, ← Nat.add_sub_assoc (by omega)]) (by rw [hseven]; exact hfits.of_bits bits_narrowed)
  obtain ⟨-, hscaled⟩ := renormE_ok hcoding hd
  rw [hseven] at hscaled
  have hposition : d.position + 2 = b.position + 9 := by rw [hscaled.position, position_narrowed]
  obtain ⟨m, b', htail, hm, hb'⟩ := hscaled.coding.flushTail_completes (hposition ▸ hroom)
  exact ⟨d, m, b', by rw [flushE_eq_flushTail h, hd, ok_bind, htail], hscaled, hm, hposition ▸ hb'⟩

theorem getLastD_stop_pad (x y : Bit) (n : Nat) :
    ([x, true] ++ List.replicate n false).getLastD y = decide (n = 0) := by
  cases n with
  | zero => rfl
  | succ n => rw [List.replicate_succ', ← List.append_assoc, getLastD_append]; rfl

/-- With the packer empty, its bits are those of the bytes. -/
theorem bits_eq_bytesBits {b : Block} (h : b.pcnt = 0) : b.bits = bytesBits b.obuf := by
  rw [Block.bits, h]
  exact List.append_nil _

/-- Settles O28: the flush takes the two highest values of the interval, scales them by seven doublings and writes their
top, and the packer is empty after it. -/
theorem encFinWritesTheFinalInterval : Obligations.EncFinWritesTheFinalInterval := by
  unfold Obligations.EncFinWritesTheFinalInterval
  intro s hinv hactive hpasses n value pad hroom
  have hstart := hinv.encoding hactive
  have hge := hstart.range_ge
  obtain ⟨d, m, b', hflush, hscaled, hm, hend⟩ := hstart.flush_completes hpasses hroom
  obtain ⟨hemits, hrange, -, hpending, hfirst, hpart, hpcnt⟩ := hstart.flush hflush
  obtain ⟨-, -, hexact, -⟩ := narrowed_part (offset := s.block.range.toNat - 2) (width := 2) hstart.coding (by omega)
    (by omega)
  have hbits : bytesBits b'.obuf = (d.bits ++ flushBits d) ++ List.replicate pad false := by
    rw [← bits_eq_bytesBits hpcnt, hend.bits, hm.bits_settled, flushBits]
    simp only [List.append_assoc]
    rfl
  have hlength : (d.bits ++ flushBits d).length = n := by
    rw [length_bits_flushed, hscaled.position, position_narrowed]
  have hvalue : bitsValue (d.bits ++ flushBits d) = value := by
    rw [bitsValue_flushed hscaled.coding hm, hscaled.exact, hexact, Nat.mul_comm _ (2 ^ 7),
      ← Nat.add_sub_assoc (by omega)]
  have hrule : encFinRule s.config s.block =
      .ok ({ b' with sstate := .encFinal }, { r0 := BitVec.ofNat 32 b'.obuf.length }) := by
    rw [encFinRule, checkState_encode_ok hactive, ok_bind, hflush, ok_bind]
  obtain ⟨⟨hobuf, -⟩, -⟩ := ruleOf_appends (i := .encFin) rfl s.config s.block _ hrule
  obtain ⟨-, hmode, hclass, hcause, hibuf, hipos, hhas, hdecl⟩ := hemits.kept hactive
  obtain ⟨hctx', hcount'⟩ := hscaled.kept
  obtain ⟨hctx, hcount⟩ : b'.ctx = d.ctx ∧ b'.binCount = d.binCount := by
    rw [hend.frame, hm.frame]
    exact ⟨rfl, rfl⟩
  refine ⟨_, (exec_eq_execute _ s).trans (execute_ok hrule), rfl, ?_, ?_, hobuf, rfl, hrange, hpending, hfirst, hpart,
    hpcnt, hend.last.trans (getLastD_stop_pad _ _ _), rfl, rfl, hctx.trans hctx', hmode, hclass, hcause, hibuf, hipos,
    hcount.trans hcount', hhas, hdecl⟩
  · rw [← bytesBits_length, complete_block, hbits, List.length_append, hlength, List.length_replicate]
  · rw [complete_block, hbits, ← hvalue, ← hlength, msbBits_bitsValue]

end Sys2Proof.Machine

namespace Sys2Proof.Machine

/-! ### The capacity of the output buffer (43_bit_sink.md R230)

An operation of the encoder is run beside itself without a capacity. An operation on the other registers is the same in
both runs, and `WriteBit` differs only where it would complete a byte too many; since no operation shortens the output,
what is past the capacity stays past it. -/

/-- The parameters without a capacity of the output buffer. -/
def uncapped (cfg : Config) : Config := { cfg with obufCap := none }

@[simp] theorem uncapped_obufCap (cfg : Config) : (uncapped cfg).obufCap = none := rfl

/-- Where `free` completes, the output is no shorter than that of `b`, and `capped`, begun within `cap` bytes, does the
same if the output stays within them, and raises `OUTPUT_OVERFLOW` if not. -/
def StopsAtCap {α : Type} (cap : Nat) (block : α → Block) (b : Block) (free capped : Except Cause α) : Prop :=
  Ensures (fun a => b.obuf.length ≤ (block a).obuf.length ∧ (b.obuf.length ≤ cap →
    capped = if (block a).obuf.length ≤ cap then .ok a else .error .outputOverflow)) free

section
variable {α β : Type} {cap : Nat} {block : α → Block} {b : Block}

/-- An operation on the other registers does not depend on the capacity. -/
theorem StopsAtCap.of_buffers {x : Except Cause Block} (h : Ensures (SameBuffers b) x) : StopsAtCap cap id b x x := by
  intro b' hb'
  obtain ⟨⟨-, hobuf⟩, -⟩ := h b' hb'
  rw [id, hobuf]
  exact ⟨le_rfl, fun hle => by rw [if_pos hle, hb']⟩

theorem StopsAtCap.ok {a : α} (h : (block a).obuf = b.obuf) : StopsAtCap cap block b (.ok a) (.ok a) := by
  refine Ensures.ok ?_
  rw [h]
  exact ⟨le_rfl, fun hle => by rw [if_pos hle]⟩

theorem StopsAtCap.error (c : Cause) (y : Except Cause α) : StopsAtCap cap block b (.error c) y := Ensures.error c

/-- Past an operation that does not depend on the capacity and gives no block, such as a check. -/
theorem StopsAtCap.past {x : Except Cause β} {f g : β → Except Cause α}
    (h : ∀ d, StopsAtCap cap block b (f d) (g d)) : StopsAtCap cap block b (x >>= f) (x >>= g) := by
  cases x with
  | error c => exact .error c _
  | ok d => exact h d

/-- In sequence: once past the capacity, the output stays past it. -/
theorem StopsAtCap.bind {x y : Except Cause Block} {f g : Block → Except Cause α} (hx : StopsAtCap cap id b x y)
    (hf : ∀ d, StopsAtCap cap block d (f d) (g d)) : StopsAtCap cap block b (x >>= f) (y >>= g) := by
  intro a ha
  obtain ⟨d, hd, ha⟩ := bind_ok_iff.mp ha
  obtain ⟨hgrows, hfirst⟩ := hx d hd
  obtain ⟨hgrows', hsecond⟩ := hf d a ha
  rw [id] at hgrows hfirst
  refine ⟨hgrows.trans hgrows', fun hle => ?_⟩
  rw [hfirst hle]
  split
  · rename_i hwithin
    exact hsecond hwithin
  · rename_i hpast
    rw [error_bind, if_neg fun hend => hpast (hgrows'.trans hend)]

theorem StopsAtCap.ite {p : Prop} [Decidable p] {x x' y y' : Except Cause α} (h : StopsAtCap cap block b x y)
    (h' : StopsAtCap cap block b x' y') : StopsAtCap cap block b (if p then x else x') (if p then y else y') := by
  split
  · exact h
  · exact h'

end

/-! #### The operations of the encoder -/

section
variable {cfg : Config} {cap : Nat}

/-- A bit that completes a byte is refused where the bytes already fill the capacity (43_bit_sink.md R230). -/
theorem writeBit_stopsAtCap (hcap : cfg.obufCap = some cap) (bit : Bit) (b : Block) :
    StopsAtCap cap id b (writeBit (uncapped cfg) bit b) (writeBit cfg bit b) := by
  unfold writeBit
  refine .ite ?_ (.ok rfl)
  rw [uncapped_obufCap, hcap, if_neg nofun]
  refine Ensures.ok ?_
  rw [id, List.length_append, List.length_singleton]
  refine ⟨Nat.le_succ _, fun hle => ?_⟩
  by_cases hfull : cap = b.obuf.length
  · rw [if_pos (congrArg some hfull), if_neg (by omega)]
  · rw [if_neg fun he => hfull (Option.some.inj he), if_pos (by omega)]

theorem writePending_stopsAtCap (hcap : cfg.obufCap = some cap) (bit : Bit) (n : Nat) (b : Block) :
    StopsAtCap cap id b (writePending (uncapped cfg) bit n b) (writePending cfg bit n b) := by
  induction n generalizing b with
  | zero => exact .ok rfl
  | succ n ih =>
    rw [writePending_succ, writePending_succ]
    exact (writeBit_stopsAtCap hcap bit b).bind fun d => ih { d with pending := d.pending - 1 }

theorem putBit_stopsAtCap (hcap : cfg.obufCap = some cap) (bit : Bit) (b : Block) :
    StopsAtCap cap id b (putBit (uncapped cfg) bit b) (putBit cfg bit b) := by
  rw [putBit_eq, putBit_eq]
  exact .bind (.ite (.ok rfl) (writeBit_stopsAtCap hcap bit b)) fun d => writePending_stopsAtCap hcap _ _ d

/-- What an iteration of the renormalization and a bypass bin do when they settle a bit. -/
theorem writeLow_putBit_stopsAtCap (hcap : cfg.obufCap = some cap) (v : Int) (bit : Bit) (b : Block) :
    StopsAtCap cap id b (writeLow v b >>= putBit (uncapped cfg) bit) (writeLow v b >>= putBit cfg bit) :=
  (StopsAtCap.of_buffers (writeLow_buffers v b)).bind (putBit_stopsAtCap hcap bit)

/-- What they do when they leave one more bit pending. -/
theorem writeLow_incPending_stopsAtCap (v : Int) (b : Block) :
    StopsAtCap cap id b (writeLow v b >>= incPending) (writeLow v b >>= incPending) :=
  (StopsAtCap.of_buffers (writeLow_buffers v b)).bind fun d => .of_buffers (incPending_buffers d)

theorem padByte_stopsAtCap (hcap : cfg.obufCap = some cap) (n : Nat) (b : Block) :
    StopsAtCap cap id b (padByte (uncapped cfg) n b) (padByte cfg n b) := by
  induction n generalizing b with
  | zero => exact .ok rfl
  | succ n ih =>
    rw [padByte_succ, padByte_succ]
    exact .ite (.ok rfl) ((writeBit_stopsAtCap hcap false b).bind ih)

theorem renormBit_stopsAtCap (hcap : cfg.obufCap = some cap) (b : Block) :
    StopsAtCap cap id b (renormBit (uncapped cfg) b) (renormBit cfg b) :=
  .ite (putBit_stopsAtCap hcap _ b) <|
    .ite (writeLow_putBit_stopsAtCap hcap _ _ b) (writeLow_incPending_stopsAtCap _ b)

theorem renormE_stopsAtCap (hcap : cfg.obufCap = some cap) (n : Nat) (b : Block) :
    StopsAtCap cap id b (renormE (uncapped cfg) n b) (renormE cfg n b) := by
  induction n generalizing b with
  | zero => exact .ite (.ok rfl) (.error _ _)
  | succ n ih =>
    refine .ite (.ok rfl) ((renormBit_stopsAtCap hcap b).bind fun d => ?_)
    refine (StopsAtCap.of_buffers (writeRange_buffers _ d)).bind fun d => ?_
    exact (StopsAtCap.of_buffers (writeLow_buffers _ d)).bind ih

theorem encodeBypass_stopsAtCap (hcap : cfg.obufCap = some cap) (bin : Bit) (b : Block) :
    StopsAtCap cap id b (encodeBypass (uncapped cfg) bin b) (encodeBypass cfg bin b) :=
  .ite (writeLow_putBit_stopsAtCap hcap _ _ b) <|
    .ite (writeLow_putBit_stopsAtCap hcap _ _ b) (writeLow_incPending_stopsAtCap _ b)

theorem flushE_stopsAtCap (hcap : cfg.obufCap = some cap) (b : Block) :
    StopsAtCap cap id b (flushE (uncapped cfg) b) (flushE cfg b) := by
  refine (StopsAtCap.of_buffers (writeRange_buffers _ b)).bind fun d => ?_
  refine (StopsAtCap.of_buffers (writeLow_buffers _ d)).bind fun d => ?_
  refine (StopsAtCap.of_buffers (writeRange_buffers _ d)).bind fun d => ?_
  refine (renormE_stopsAtCap hcap 8 d).bind fun d => ?_
  refine (putBit_stopsAtCap hcap _ d).bind fun d => ?_
  refine (writeBit_stopsAtCap hcap _ d).bind fun d => ?_
  exact (writeBit_stopsAtCap hcap _ d).bind fun d => padByte_stopsAtCap hcap 7 d

/-- The subdivision of a regular bin writes no output. -/
theorem encodeDecision_buffers (cfg : Config) (i : BitVec 16) (bin : Bit) (b : Block) :
    Ensures (SameBuffers b) (encodeDecision cfg i bin b) := by
  intro b' hb'
  obtain ⟨c, -, hb'⟩ := bind_ok_iff.mp hb'
  obtain ⟨b₁, h₁, hb'⟩ := bind_ok_iff.mp hb'
  obtain ⟨-, -, rfl⟩ := writeRange_cases h₁
  split at hb'
  · cases hb'
    exact .refl b
  · obtain ⟨b₂, h₂, hb'⟩ := bind_ok_iff.mp hb'
    obtain ⟨-, -, rfl⟩ := writeLow_cases h₂
    obtain ⟨-, -, rfl⟩ := writeRange_cases hb'
    exact .refl b

/-- The three commands of an encode session stop exactly at the capacity. -/
theorem ruleOf_stopsAtCap (hcap : cfg.obufCap = some cap) {i : Instr} (hi : stateCheckOf i = some .encode) (b : Block) :
    StopsAtCap cap Prod.fst b (ruleOf i (uncapped cfg) b) (ruleOf i cfg b) := by
  cases i with
  | encReg ctx bin =>
    refine .past fun _ => .past fun _ => .past fun bin => ?_
    refine (StopsAtCap.of_buffers (countBin_buffers b)).bind fun d => ?_
    refine (StopsAtCap.of_buffers (encodeDecision_buffers cfg ctx bin d)).bind fun d => ?_
    refine (StopsAtCap.of_buffers (updateContext_buffers cfg ctx bin d)).bind fun d => ?_
    exact (renormE_stopsAtCap hcap 8 d).bind fun d => .past fun _ => .ok rfl
  | encByp bin =>
    refine .past fun _ => .past fun bin => (StopsAtCap.of_buffers (countBin_buffers b)).bind fun d => ?_
    exact (encodeBypass_stopsAtCap hcap bin d).bind fun d => .past fun _ => .ok rfl
  | encFin => exact .past fun _ => (flushE_stopsAtCap hcap b).bind fun d => .ok rfl
  | _ => cases hi

end

/-- Settles O30: of the operations of the three commands only `WriteBit` depends on the capacity, and it refuses the
first byte past it. -/
theorem outputCapacityIsExact : Obligations.OutputCapacityIsExact := by
  unfold Obligations.OutputCapacityIsExact
  intro i s t cap r hi hcap hle hexec hresponse hok
  have hencode : stateCheckOf i = some .encode := by
    rcases hi with ⟨ctx, bin, rfl⟩ | ⟨bin, rfl⟩ | rfl <;> rfl
  rw [exec_eq_execute] at hexec
  rcases execute_cases hexec with ⟨b, result, hrule, rfl⟩ | ⟨c, -, rfl⟩
  · obtain ⟨-, hstops⟩ := ruleOf_stopsAtCap hcap hencode s.block _ hrule
    rw [complete_block]
    split
    · rename_i hwithin
      exact (exec_eq_execute i s).trans (execute_ok ((hstops hle).trans (if_pos hwithin)))
    · rename_i hpast
      exact answersError_of_ruleOf ((hstops hle).trans (if_neg hpast))
  · rw [takeError_response] at hresponse
    cases hresponse
    cases hok

/-! ### The end of the pending counter (43_bit_sink.md R232) -/

/-- A bypass bin in the middle band fails at the end of the pending counter (42_encoder.md R208). -/
theorem encBypRule_pendingOverflow {cfg : Config} {b : Block} {bin : Bit} (hactive : b.sstate = .encActive)
    (hcount : b.binCount.toNat < 2 ^ 32 - 1) (hpending : b.pending.toNat = 2 ^ 32 - 1)
    (hge : 512 ≤ 2 * b.low.toNat + if bin then b.range.toNat else 0)
    (hlt : (2 * b.low.toNat + if bin then b.range.toNat else 0) < 1024) :
    encBypRule (bitWord bin) cfg b = .error .pendingOverflow := by
  rw [encBypRule, checkState_encode_ok hactive, ok_bind, binOperand_bitWord, ok_bind, countBin_ok hcount, ok_bind,
    encodeBypass_pendingOverflow (b := counted b) hpending hge hlt, error_bind]

/-- A regular bin whose renormalization passes the end of the pending counter fails there (42_encoder.md R205). -/
theorem EncodesRegular.pendingOverflow {cfg : Config} {i : BitVec 16} {tab : List ContextState} {c : ContextState}
    {b : Block} {bin : Bit} (h : EncodesRegular cfg i tab c b)
    (hpasses : RunPasses b.pending.toNat (b.low.toNat + partOffset cfg c bin b) (doublings (partWidth cfg c bin b))) :
    encRegRule i (bitWord bin) cfg b = .error .pendingOverflow := by
  obtain ⟨hlow, hrange, -, hcoding⟩ := h.part bin
  rw [h.rule_eq, renormE_pendingOverflow hcoding.pos (doublings_le _) (by rw [hlow, hrange]; exact hpasses), error_bind]

/-- A flush whose seven doublings pass the end of the pending counter fails there (43_bit_sink.md R236). -/
theorem Encoding.flush_pendingOverflow {cfg : Config} {b : Block} (h : Encoding cfg b)
    (hpasses : RunPasses b.pending.toNat (b.low.toNat + b.range.toNat - 2) 7) :
    flushE cfg b = .error .pendingOverflow := by
  have hge := h.range_ge
  obtain ⟨hlow, hrange, -, hcoding⟩ := narrowed_part (offset := b.range.toNat - 2) (width := 2) h.coding (by omega)
    (by omega)
  have hseven : doublings (narrowed (b.range.toNat - 2) 2 b).range.toNat = 7 := by rw [hrange]; decide
  rw [flushE_eq_flushTail h, renormE_pendingOverflow hcoding.pos (doublings_le _)
    (by rwa [hseven, hlow, ← Nat.add_sub_assoc (by omega)]), error_bind]

/-- Settles O31: each of the three commands gets past its checks to the step that cannot leave its bit pending. -/
theorem pendingRunIsBounded : Obligations.PendingRunIsBounded := by
  unfold Obligations.PendingRunIsBounded
  refine ⟨?bypass, ?regular, ?flush⟩
  case bypass =>
    intro s bin _ hactive hcount hpending hge hlt
    exact answersError_of_ruleOf (encBypRule_pendingOverflow hactive hcount hpending hge hlt)
  case regular =>
    intro s i bin tab c hinv hactive htable hentry hcount lps mps hpasses
    have h : EncodesRegular s.config i tab c s.block := ⟨hinv.encoding hactive, hactive, htable, hentry, hcount⟩
    have hlps : lpsRange s.config c.pStateIdx s.block.range = lps := lpsRange_eq _ _ _
    refine answersError_of_ruleOf (h.pendingOverflow ?_)
    rwa [partOffset, partWidth, hlps]
  case flush =>
    intro s hinv hactive hpasses
    refine answersError_of_ruleOf (i := .encFin) ?_
    rw [ruleOf, encFinRule, checkState_encode_ok hactive, ok_bind,
      (hinv.encoding hactive).flush_pendingOverflow hpasses, error_bind]

end Sys2Proof.Machine

namespace Sys2Proof.Machine

/-! ### The start of a decode session (44_decoder.md R260, R261) -/

/-- The input holds `n` more bits exactly when they can be read. -/
theorem nextInput_length_iff {b : Block} {n : Nat} (h : b.ipos ≤ 8 * b.ibuf.length) :
    (b.nextInput n).length = n ↔ b.ipos + n ≤ 8 * b.ibuf.length := by
  simp only [Block.nextInput, List.length_take, List.length_drop, bytesBits_length]
  omega

/-- Bits are read as far as the input goes, and past its end the source is exhausted (44_decoder.md R262). -/
theorem readBits_eq {n v : Nat} {b : Block} (hpos : b.ipos ≤ 8 * b.ibuf.length) :
    readBits n v b = if b.ipos + n ≤ 8 * b.ibuf.length then
        .ok (v * 2 ^ n + bitsValue (b.nextInput n), { b with ipos := b.ipos + n })
      else .error .sourceExhausted := by
  cases h : readBits n v b with
  | ok p =>
    obtain ⟨w, b'⟩ := p
    obtain ⟨hlength, rfl, rfl⟩ := readBits_ok h
    rw [if_pos (ipos_add_le hpos hlength)]
  | error c =>
    obtain ⟨rfl, hshort⟩ := readBits_error h
    rw [if_neg (not_le.mpr hshort)]

/-- With legal parameters `DEC.INIT` fails only on its input: too short, or with first bits that no encode session
writes. -/
theorem decInitRule_of_legal {cfg : Config} {mode : Byte} {tab : List ContextState}
    (htab : seedTable cfg mode = some tab) (hlps : LpsLegal cfg) (declared : Option Word) (input : List Byte)
    (b : Block) : decInitRule mode declared input cfg b =
      let first := bitsValue ((bytesBits input).take 9)
      if 9 ≤ 8 * input.length then
        if 510 ≤ first then .error .badInitOffset
        else .ok ({ Block.reset with
          sstate := .decActive, mode := mode, ctx := some tab, low := BitVec.ofNat 10 first, range := 510,
          ibuf := input, ipos := 9, hasDecl := declared.isSome, declCount := declared.getD 0 }, {})
      else .error .sourceExhausted := by
  obtain ⟨t, ht, hseeded⟩ := seedContexts_of_legal (seedTable_isSome_iff.mp ⟨tab, htab⟩) hlps Block.reset
  rw [htab] at ht
  cases ht
  rw [decInitRule_eq, hseeded, ok_bind, readBits_eq (Nat.zero_le _)]
  simp only [Block.nextInput, List.drop_zero, Nat.zero_mul, Nat.zero_add]
  split <;> rfl

/-- The first nine bits are the first byte and the top bit of the second. -/
theorem bitsValue_take_nine (b0 b1 : Byte) (more : List Byte) :
    bitsValue ((bytesBits (b0 :: b1 :: more)).take 9) = 2 * b0.toNat + b1.toNat / 128 := by
  have hnine : (bytesBits (b0 :: b1 :: more)).take 9 = msbBits b0.toNat 8 ++ [b1.toNat.testBit 7] := by
    rw [bytesBits_cons, List.take_append, msbBits_length, List.take_of_length_le (by simp)]
    rfl
  have h0 := b0.isLt
  have h1 := b1.isLt
  rw [hnine, bitsValue_append, bitsValue_msbBits, bitsValue_cons, Nat.toNat_testBit]
  simp only [List.length_singleton, List.length_nil, bitsValue_nil]
  omega

/-- Settles O21: the seeding passes, and the nine bits read are below 510. -/
theorem decInitStartsASession : Obligations.DecInitStartsASession := by
  unfold Obligations.DecInitStartsASession
  intro s mode declared b0 b1 more hseed hlps hfirst
  obtain ⟨tab, htab⟩ := seedTable_isSome_iff.mpr hseed
  obtain ⟨hlength, hentries⟩ := seedTable_some htab
  refine ⟨tab, hlength, hentries, (exec_eq_execute _ s).trans (execute_ok (r := {}) ?_)⟩
  have hnine : 9 ≤ 8 * (b0 :: b1 :: more).length := by simp only [List.length_cons]; omega
  rw [ruleOf, decInitRule_of_legal htab hlps]
  simp only [bitsValue_take_nine, if_pos hnine, if_neg (not_le.mpr hfirst)]

/-- Settles O23: with legal parameters the two causes left are those of the first nine bits. -/
theorem decInitRefusesBadInput : Obligations.DecInitRefusesBadInput := by
  unfold Obligations.DecInitRefusesBadInput
  intro s mode declared hseed hlps
  obtain ⟨tab, htab⟩ := seedTable_isSome_iff.mpr hseed
  refine ⟨fun input hshort => answersError_of_ruleOf ?_, fun b0 b1 more hfirst => answersError_of_ruleOf ?_⟩
  · rw [ruleOf, decInitRule_of_legal htab hlps]
    exact if_neg (by omega)
  · have hnine : 9 ≤ 8 * (b0 :: b1 :: more).length := by simp only [List.length_cons]; omega
    rw [ruleOf, decInitRule_of_legal htab hlps]
    simp only [bitsValue_take_nine, if_pos hnine, if_pos hfirst]

/-! ### The end of a decode session (44_decoder.md R266) -/

theorem checkState_decode_ok {b : Block} (h : b.sstate = .decActive) : checkState .decode b = .ok () := by
  rw [checkState_eq, h]
  rfl

/-- Settles O34: a result word holds `IPOS` modulo 2^32. -/
theorem decEndAnswersTheBitsRead : Obligations.DecEndAnswersTheBitsRead := by
  unfold Obligations.DecEndAnswersTheBitsRead
  intro s hactive
  have hrule : ruleOf .decEnd s.config s.block =
      .ok ({ s.block with sstate := .decEnded }, { r0 := BitVec.ofNat 32 (s.block.ipos % 2 ^ 32) }) := by
    have hword : BitVec.ofNat 32 (s.block.ipos % 2 ^ 32) = BitVec.ofNat 32 s.block.ipos :=
      BitVec.eq_of_toNat_eq (by simp)
    rw [hword, ruleOf, decEndRule, checkState_decode_ok hactive, ok_bind]
  exact (exec_eq_execute _ s).trans (execute_ok hrule)

/-! ### The checks before a bin is decoded (44_decoder.md R263, R265, R267) -/

section
variable {cfg : Config} {b : Block} {i : BitVec 16}

theorem checkDeclared_past (h : b.hasDecl = true ∧ b.declCount.toNat ≤ b.binCount.toNat) :
    checkDeclared b = .error .pastCount := checkDeclared_error_iff.mpr ⟨rfl, h⟩

theorem checkDeclared_within (h : ¬(b.hasDecl = true ∧ b.declCount.toNat ≤ b.binCount.toNat)) :
    checkDeclared b = .ok () :=
  checkDeclared_ok_iff.mpr fun hdecl => not_le.mp fun hle => h ⟨hdecl, hle⟩

theorem decRegRule_ctxRange (hactive : b.sstate = .decActive) (hindex : nCtx cfg ≤ i.toNat) :
    decRegRule i cfg b = .error .ctxRange := by
  rw [decRegRule, checkState_decode_ok hactive, ok_bind, checkCtxIndex_error_iff.mpr ⟨rfl, hindex⟩, error_bind]

theorem decRegRule_pastCount (hactive : b.sstate = .decActive) (hindex : i.toNat < nCtx cfg)
    (hpast : b.hasDecl = true ∧ b.declCount.toNat ≤ b.binCount.toNat) : decRegRule i cfg b = .error .pastCount := by
  rw [decRegRule, checkState_decode_ok hactive, ok_bind, checkCtxIndex_ok_iff.mpr hindex, ok_bind,
    checkDeclared_past hpast, error_bind]

theorem decRegRule_binCountOverflow (hactive : b.sstate = .decActive) (hindex : i.toNat < nCtx cfg)
    (hwithin : ¬(b.hasDecl = true ∧ b.declCount.toNat ≤ b.binCount.toNat))
    (hfull : b.binCount.toNat = 2 ^ 32 - 1) :
    decRegRule i cfg b = .error .binCountOverflow := by
  rw [decRegRule, checkState_decode_ok hactive, ok_bind, checkCtxIndex_ok_iff.mpr hindex, ok_bind,
    checkDeclared_within hwithin, ok_bind, countBin_full hfull, error_bind]

theorem decBypRule_pastCount (hactive : b.sstate = .decActive)
    (hpast : b.hasDecl = true ∧ b.declCount.toNat ≤ b.binCount.toNat) : decBypRule cfg b = .error .pastCount := by
  rw [decBypRule, checkState_decode_ok hactive, ok_bind, checkDeclared_past hpast, error_bind]

theorem decBypRule_binCountOverflow (hactive : b.sstate = .decActive)
    (hwithin : ¬(b.hasDecl = true ∧ b.declCount.toNat ≤ b.binCount.toNat))
    (hfull : b.binCount.toNat = 2 ^ 32 - 1) :
    decBypRule cfg b = .error .binCountOverflow := by
  rw [decBypRule, checkState_decode_ok hactive, ok_bind, checkDeclared_within hwithin, ok_bind, countBin_full hfull,
    error_bind]

end

/-! ### `DEC.REG` (44_decoder.md R263, R264) -/

/-- The block as `RenormD` leaves it, `k` bits read (44_decoder.md R264). -/
def scaledOffset (k : Nat) (b : Block) : Block :=
  { b with
    range := BitVec.ofNat 9 (b.range.toNat * 2 ^ k)
    low := BitVec.ofNat 10 (b.low.toNat * 2 ^ k + bitsValue (b.nextInput k))
    ipos := b.ipos + k }

/-- `RenormD` fails exactly where the input ends before its last doubling. -/
theorem renormD_eq {b : Block} (hlow : b.low.toNat < b.range.toNat) (hpos : b.ipos ≤ 8 * b.ibuf.length) :
    renormD 8 b = if b.ipos + doublings b.range.toNat ≤ 8 * b.ibuf.length then
        .ok (scaledOffset (doublings b.range.toNat) b)
      else .error .sourceExhausted := by
  have hrange : 1 ≤ b.range.toNat := by omega
  cases h : renormD 8 b with
  | ok b' =>
    obtain ⟨hlength, -, rfl⟩ := renormD_ok hrange hlow h
    rw [if_pos ((nextInput_length_iff hpos).mp hlength)]
    rfl
  | error c =>
    obtain ⟨rfl, hshort⟩ := renormD_error hrange hlow (doublings_le _) h
    rw [if_neg (by omega)]

/-- The doubled offset stays below the doubled range: bits shifted in below it do not reach it (44_decoder.md R268). -/
theorem doubled_offset_lt {low range k : Nat} {l : List Bit} (hlow : low < range) (hl : l.length = k) :
    low * 2 ^ k + bitsValue l < range * 2 ^ k := by
  have hbits := bitsValue_lt l
  rw [hl] at hbits
  calc low * 2 ^ k + bitsValue l < (low + 1) * 2 ^ k := by rw [Nat.add_mul, one_mul]; omega
    _ ≤ range * 2 ^ k := Nat.mul_le_mul_right _ hlow

/-- The bin of the part of the interval that holds the offset: the MPS has the lower part (44_decoder.md R263). -/
def decodedBin (cfg : Config) (c : ContextState) (b : Block) : Bit :=
  if b.low.toNat < b.range.toNat - lpsRange cfg c.pStateIdx b.range then c.valMPS else !c.valMPS

/-- The bin decoded is the MPS exactly when the offset is below the MPS width. -/
theorem decodedBin_eq_valMPS_iff {cfg : Config} {c : ContextState} {b : Block} :
    decodedBin cfg c b = c.valMPS ↔ b.low.toNat < b.range.toNat - lpsRange cfg c.pStateIdx b.range := by
  unfold decodedBin
  split <;> simp_all

/-- The offset lies in the part of the bin decoded. -/
theorem decodedBin_part {cfg : Config} {c : ContextState} {b : Block} (hlow : b.low.toNat < b.range.toNat) :
    partOffset cfg c (decodedBin cfg c b) b ≤ b.low.toNat ∧
      b.low.toNat < partOffset cfg c (decodedBin cfg c b) b + partWidth cfg c (decodedBin cfg c b) b := by
  simp only [partOffset, partWidth, decodedBin_eq_valMPS_iff]
  split <;> omega

/-- The two parts do not meet, so a bin whose part holds the offset is the bin decoded. -/
theorem decodedBin_eq {cfg : Config} {c : ContextState} {bin : Bit} {b : Block}
    (hge : partOffset cfg c bin b ≤ b.low.toNat)
    (hlt : b.low.toNat < partOffset cfg c bin b + partWidth cfg c bin b) : decodedBin cfg c b = bin := by
  unfold partOffset at hge hlt
  unfold partWidth at hlt
  by_cases hbin : bin = c.valMPS
  · rw [if_pos hbin, if_pos hbin, Nat.zero_add] at hlt
    exact (decodedBin_eq_valMPS_iff.mpr hlt).trans hbin.symm
  · rw [if_neg hbin] at hge
    rw [decodedBin, if_neg (not_lt.mpr hge)]
    exact (Bool.eq_not.mpr hbin).symm

/-- The block as the decoder's subdivision leaves it: the offset within the part, and the width of the part. -/
def located (offset width : Nat) (b : Block) : Block :=
  { b with low := BitVec.ofNat 10 (b.low.toNat - offset), range := BitVec.ofNat 9 width }

theorem decodeDecision_located {cfg : Config} {i : BitVec 16} {b : Block} {c : ContextState}
    (hc : readCtx i b = .ok c) (hlps : LpsLegal cfg) (hrange : 256 ≤ b.range.toNat) :
    decodeDecision cfg i b = .ok (decodedBin cfg c b,
      located (partOffset cfg c (decodedBin cfg c b) b) (partWidth cfg c (decodedBin cfg c b) b) b) := by
  rw [decodeDecision_eq hc hlps hrange, partOffset, partWidth]
  simp only [decodedBin_eq_valMPS_iff]
  rw [decodedBin]
  split
  · simp [located]
  · rfl

/-- The block that `DEC.REG` renormalizes: the bin counted, its part of the interval taken, its context adapted. -/
def beforeRenormD (cfg : Config) (i : BitVec 16) (tab : List ContextState) (c : ContextState) (b : Block) : Block :=
  { located (partOffset cfg c (decodedBin cfg c b) b) (partWidth cfg c (decodedBin cfg c b) b) (counted b) with
    ctx := some (tab.set i.toNat (adapt cfg c (decodedBin cfg c b))) }

/-- The block that `DEC.REG` leaves (44_decoder.md R263). -/
def regularDecoded (cfg : Config) (i : BitVec 16) (tab : List ContextState) (c : ContextState) (b : Block) : Block :=
  scaledOffset (doublings (partWidth cfg c (decodedBin cfg c b) b)) (beforeRenormD cfg i tab c b)

/-- `DEC.REG` for the context `c`, the entry `i` of the table `tab`, in a decode session that may count one more
bin. -/
structure DecodesRegular (cfg : Config) (i : BitVec 16) (tab : List ContextState) (c : ContextState) (b : Block) :
    Prop where
  decoding : Decoding cfg b
  active : b.sstate = .decActive
  table : b.ctx = some tab
  entry : tab[i.toNat]? = some c
  declared : b.hasDecl = true → b.binCount.toNat < b.declCount.toNat
  count : b.binCount.toNat < 2 ^ 32 - 1

theorem Decoding.index_lt {cfg : Config} {i : BitVec 16} {tab : List ContextState} {c : ContextState} {b : Block}
    (h : Decoding cfg b) (htable : b.ctx = some tab) (hentry : tab[i.toNat]? = some c) : i.toNat < nCtx cfg := by
  obtain ⟨t, ht, hlength⟩ := h.opened.table
  obtain ⟨hi, -⟩ := List.getElem?_eq_some_iff.mp hentry
  rw [htable] at ht
  cases ht
  exact hlength ▸ hi

section
variable {cfg : Config} {i : BitVec 16} {tab : List ContextState} {c : ContextState} {b : Block}

/-- The bin's part of the interval is not empty, and no wider than the interval (41_context.md R171). -/
theorem DecodesRegular.width_bounds (h : DecodesRegular cfg i tab c b) (bin : Bit) :
    1 ≤ partWidth cfg c bin b ∧ partWidth cfg c bin b ≤ b.range.toNat := by
  obtain ⟨hpos, hlt⟩ := lpsRange_bounds h.decoding.opened.lps c.pStateIdx h.decoding.offset.range_ge
  unfold partWidth
  split <;> omega

/-- The offset in the bin's part, as the renormalization finds it: below the width of the part. -/
theorem DecodesRegular.part (h : DecodesRegular cfg i tab c b) :
    (beforeRenormD cfg i tab c b).low.toNat = b.low.toNat - partOffset cfg c (decodedBin cfg c b) b ∧
      (beforeRenormD cfg i tab c b).range.toNat = partWidth cfg c (decodedBin cfg c b) b ∧
      (beforeRenormD cfg i tab c b).low.toNat < (beforeRenormD cfg i tab c b).range.toNat := by
  obtain ⟨-, hle⟩ := h.width_bounds (decodedBin cfg c b)
  obtain ⟨hge, hlt⟩ := decodedBin_part (cfg := cfg) (c := c) h.decoding.offset.low_lt
  have hl := b.low.isLt
  have hr := b.range.isLt
  have hlow : (beforeRenormD cfg i tab c b).low.toNat = b.low.toNat - partOffset cfg c (decodedBin cfg c b) b :=
    toNat_ofNat_low (by omega)
  have hrange : (beforeRenormD cfg i tab c b).range.toNat = partWidth cfg c (decodedBin cfg c b) b := by
    rw [beforeRenormD, located, BitVec.toNat_ofNat, Nat.mod_eq_of_lt (by omega)]
  exact ⟨hlow, hrange, by omega⟩

/-- Past its checks, `DEC.REG` takes the part that holds the offset, adapts the context and renormalizes. -/
theorem DecodesRegular.rule_eq (h : DecodesRegular cfg i tab c b) :
    decRegRule i cfg b = (renormD 8 (beforeRenormD cfg i tab c b) >>= fun b' =>
      checkInvariantD b' >>= fun _ => .ok (b', binResultWord (decodedBin cfg c b))) := by
  have hread : readCtx i (counted b) = .ok c := readCtx_ok_iff.mpr ⟨tab, h.table, h.entry⟩
  have hupdate : updateContext cfg i (decodedBin cfg c b)
      (located (partOffset cfg c (decodedBin cfg c b) b) (partWidth cfg c (decodedBin cfg c b) b) (counted b)) =
      .ok (beforeRenormD cfg i tab c b) := updateContext_ok_iff.mpr ⟨tab, c, h.table, h.entry, rfl⟩
  rw [decRegRule, checkState_decode_ok h.active, ok_bind,
    checkCtxIndex_ok_iff.mpr (h.decoding.index_lt h.table h.entry), ok_bind, checkDeclared_ok_iff.mpr h.declared,
    ok_bind, countBin_ok h.count, ok_bind,
    decodeDecision_located hread h.decoding.opened.lps h.decoding.offset.range_ge, ok_bind]
  exact congrArg (· >>= _) hupdate

/-- Past its checks, `DEC.REG` fails exactly where the input ends before the last doubling. -/
theorem DecodesRegular.rule_cases (h : DecodesRegular cfg i tab c b) :
    decRegRule i cfg b =
      if b.ipos + doublings (partWidth cfg c (decodedBin cfg c b) b) ≤ 8 * b.ibuf.length then
        .ok (regularDecoded cfg i tab c b, binResultWord (decodedBin cfg c b))
      else .error .sourceExhausted := by
  obtain ⟨-, hrange, hlt⟩ := h.part
  have hipos : (beforeRenormD cfg i tab c b).ipos = b.ipos := rfl
  have hibuf : (beforeRenormD cfg i tab c b).ibuf = b.ibuf := rfl
  have hrenorm := renormD_eq hlt h.decoding.offset.ipos_le
  rw [hrange, hipos, hibuf] at hrenorm
  rw [h.rule_eq, hrenorm]
  split
  · rename_i hinput
    rw [if_pos hinput] at hrenorm
    have hoffset := (renormD_offset hrenorm hlt h.decoding.offset.ipos_ge h.decoding.offset.ipos_le).1
    rw [ok_bind, checkInvariantD_eq_ok hoffset, ok_bind, regularDecoded]
  · rw [error_bind]

/-- The registers that `DEC.REG` leaves, in terms of those it found. -/
theorem DecodesRegular.decoded_eq (h : DecodesRegular cfg i tab c b) :
    let bin := decodedBin cfg c b
    let k := doublings (partWidth cfg c bin b)
    regularDecoded cfg i tab c b = { b with
      range := BitVec.ofNat 9 (partWidth cfg c bin b * 2 ^ k)
      low := BitVec.ofNat 10 ((b.low.toNat - partOffset cfg c bin b) * 2 ^ k + bitsValue (b.nextInput k))
      ipos := b.ipos + k
      binCount := b.binCount + 1
      ctx := some (tab.set i.toNat (adapt cfg c bin)) } := by
  obtain ⟨hlow, hrange, -⟩ := h.part
  rw [regularDecoded, scaledOffset, hlow, hrange]
  rfl

/-- The registers that `DEC.REG` leaves are within their widths, and the offset is below the range. -/
theorem DecodesRegular.bounds (h : DecodesRegular cfg i tab c b)
    (hinput : b.ipos + doublings (partWidth cfg c (decodedBin cfg c b) b) ≤ 8 * b.ibuf.length) :
    let k := doublings (partWidth cfg c (decodedBin cfg c b) b)
    (b.nextInput k).length = k ∧ partWidth cfg c (decodedBin cfg c b) b * 2 ^ k < 512 ∧
      (b.low.toNat - partOffset cfg c (decodedBin cfg c b) b) * 2 ^ k + bitsValue (b.nextInput k) <
        partWidth cfg c (decodedBin cfg c b) b * 2 ^ k := by
  intro k
  obtain ⟨hlow, hrange, hlt⟩ := h.part
  obtain ⟨hpos, hle⟩ := h.width_bounds (decodedBin cfg c b)
  have hlength : (b.nextInput k).length = k := (nextInput_length_iff h.decoding.offset.ipos_le).mpr hinput
  exact ⟨hlength, (doublings_range hpos (hle.trans_lt b.range.isLt)).2, doubled_offset_lt (by omega) hlength⟩

end

/-- Settles O32: the part of the bin decoded, renormalized with the next bits of the input. -/
theorem decRegDecodesTheBin : Obligations.DecRegDecodesTheBin := by
  unfold Obligations.DecRegDecodesTheBin
  intro s i tab c hinv hactive htable hentry hdeclared hcount lps mps isMps bin r k hinput
  have h : DecodesRegular s.config i tab c s.block :=
    ⟨hinv.decoding hactive, hactive, htable, hentry, hdeclared, hcount⟩
  have hlps : lpsRange s.config c.pStateIdx s.block.range = lps := lpsRange_eq _ _ _
  have hbin : decodedBin s.config c s.block = bin := by
    rw [decodedBin, hlps]
    simp only [bin, isMps, decide_eq_true_eq, mps]
  have hmps : decodedBin s.config c s.block = c.valMPS ↔ isMps = true := by
    rw [decodedBin_eq_valMPS_iff, hlps, decide_eq_true_eq]
  have hoffset : partOffset s.config c (decodedBin s.config c s.block) s.block = if isMps then 0 else mps := by
    rw [partOffset, hlps]
    simp only [hmps, mps]
  have hwidth : partWidth s.config c (decodedBin s.config c s.block) s.block = r := by
    rw [partWidth, hlps]
    simp only [hmps, mps, r]
  have hbounds := h.bounds (by rwa [hwidth])
  have hrule := h.rule_cases
  rw [h.decoded_eq, hwidth, if_pos hinput, hoffset, hbin] at hrule
  rw [hoffset, hwidth] at hbounds
  have hexec := (exec_eq_execute (.decReg i) s).trans (execute_ok hrule)
  exact ⟨hexec, hbounds⟩

/-! ### `DEC.BYP` (44_decoder.md R265) -/

/-- The doubled offset with the next input bit. -/
def bypassValue (b : Block) : Nat := 2 * b.low.toNat + bitsValue (b.nextInput 1)

/-- The block that `DEC.BYP` leaves: the offset in the half that the bin names. -/
def bypassDecoded (b : Block) : Block :=
  { b with
    low := BitVec.ofNat 10 (if b.range.toNat ≤ bypassValue b then bypassValue b - b.range.toNat else bypassValue b)
    ipos := b.ipos + 1
    binCount := b.binCount + 1 }

/-- Past its checks, `DEC.BYP` fails exactly at the end of the input. -/
theorem Decoding.bypass_cases {cfg : Config} {b : Block} (h : Decoding cfg b) (hactive : b.sstate = .decActive)
    (hdeclared : b.hasDecl = true → b.binCount.toNat < b.declCount.toNat) (hcount : b.binCount.toNat < 2 ^ 32 - 1) :
    decBypRule cfg b =
      if b.ipos < 8 * b.ibuf.length then
        .ok (bypassDecoded b, binResultWord (decide (b.range.toNat ≤ bypassValue b)))
      else .error .sourceExhausted := by
  obtain ⟨hrange, hlow, hge, hle⟩ := h.offset
  rw [decBypRule, checkState_decode_ok hactive, ok_bind, checkDeclared_ok_iff.mpr hdeclared, ok_bind,
    countBin_ok hcount, ok_bind]
  cases hbypass : decodeBypass (counted b) with
  | error c =>
    obtain ⟨rfl, hend⟩ := decodeBypass_error (b := counted b) hlow hbypass
    rw [error_bind]
    exact (if_neg (not_lt.mpr hend)).symm
  | ok p =>
    obtain ⟨bin, b'⟩ := p
    have hoffset := (Offset.bypass (b := counted b) ⟨hrange, hlow, hge, hle⟩ hbypass).1
    obtain ⟨hlength, rfl, -, rfl⟩ := decodeBypass_ok (b := counted b) hlow hbypass
    have hinput : b.ipos + 1 ≤ 8 * b.ibuf.length := ipos_add_le hle hlength
    rw [ok_bind]
    dsimp only
    rw [checkInvariantD_eq_ok hoffset, ok_bind, if_pos (Nat.lt_of_succ_le hinput)]
    simp only [decide_eq_true_eq]
    rfl

/-- The offset after a bypass bin is below the range (44_decoder.md R268). -/
theorem bypassValue_bounds {b : Block} (hlow : b.low.toNat < b.range.toNat) (hlength : (b.nextInput 1).length = 1) :
    bypassValue b < 2 * b.range.toNat := by
  have hbit := bitsValue_lt (b.nextInput 1)
  rw [hlength] at hbit
  unfold bypassValue
  omega

/-- Settles O33: the comparison tells the bin, and the offset stays below the range in either half. -/
theorem decBypDecodesTheBin : Obligations.DecBypDecodesTheBin := by
  unfold Obligations.DecBypDecodesTheBin
  intro s hinv hactive hdeclared hcount hinput v bin
  have h := hinv.decoding hactive
  have hlength := (nextInput_length_iff (n := 1) h.offset.ipos_le).mpr hinput
  have hv : v < 2 * s.block.range.toNat := bypassValue_bounds h.offset.low_lt hlength
  have hrule := h.bypass_cases hactive hdeclared hcount
  rw [if_pos hinput] at hrule
  simp only [bin, decide_eq_true_eq]
  refine ⟨(exec_eq_execute _ s).trans (execute_ok hrule), hlength, ?_⟩
  split <;> omega

/-! ### The limits of a decode session (44_decoder.md R267) -/

/-- Settles O35: each limit is reached when the checks before it pass, and raises its own cause. -/
theorem decoderStopsAtItsLimits : Obligations.DecoderStopsAtItsLimits := by
  unfold Obligations.DecoderStopsAtItsLimits
  intro s hinv hactive
  have h := hinv.decoding hactive
  have hmax := s.block.binCount.isLt
  refine ⟨?bypass, ?regular, ?index⟩
  case bypass =>
    split_ifs with hpast hfull hend
    · exact answersError_of_ruleOf (i := .decByp) (decBypRule_pastCount (cfg := s.config) hactive hpast)
    · exact answersError_of_ruleOf (i := .decByp) (decBypRule_binCountOverflow (cfg := s.config) hactive hpast hfull)
    · refine answersError_of_ruleOf (i := .decByp) ((h.bypass_cases hactive ?_ (by omega)).trans (if_neg hend.not_lt))
      exact checkDeclared_ok_iff.mp (checkDeclared_within hpast)
  case regular =>
    intro i tab c htable hentry lps mps r
    have hindex := h.index_lt htable hentry
    split_ifs with hpast hfull hend
    · exact answersError_of_ruleOf (decRegRule_pastCount hactive hindex hpast)
    · exact answersError_of_ruleOf (decRegRule_binCountOverflow hactive hindex hpast hfull)
    · have hregular : DecodesRegular s.config i tab c s.block :=
        ⟨h, hactive, htable, hentry, checkDeclared_ok_iff.mp (checkDeclared_within hpast), by omega⟩
      have hwidth : partWidth s.config c (decodedBin s.config c s.block) s.block = r := by
        rw [partWidth, lpsRange_eq]
        simp only [decodedBin_eq_valMPS_iff, lpsRange_eq, r, mps, lps]
      refine answersError_of_ruleOf (i := .decReg i) (hregular.rule_cases.trans (if_neg ?_))
      rw [hwidth]
      omega
  case index =>
    intro i hindex
    exact answersError_of_ruleOf (decRegRule_ctxRange hactive hindex)

end Sys2Proof.Machine

namespace Sys2Proof.Machine

/-! ### Commands that complete, one after the other -/

/-- `perform` gives the state of a command whose rule completes, and no other. -/
theorem perform_eq_some_iff {i : Instr} {s t : State} :
    perform i s = some t ↔ ∃ b r, ruleOf i s.config s.block = .ok (b, r) ∧ t = complete b r s := by
  unfold perform
  rcases exec_cases i s with ⟨b, r, hrule, hexec⟩ | ⟨c, hrule, hexec⟩ <;> rw [hexec, hrule]
  · simp [eq_comm]
  · simp

theorem perform_of_ruleOf {i : Instr} {s : State} {b : Block} {r : Result}
    (h : ruleOf i s.config s.block = .ok (b, r)) : perform i s = some (complete b r s) :=
  perform_eq_some_iff.mpr ⟨b, r, h, rfl⟩

theorem Inv.perform {i : Instr} {s t : State} (h : Inv s) (hperform : perform i s = some t) : Inv t := by
  obtain ⟨b, r, hrule, rfl⟩ := perform_eq_some_iff.mp hperform
  exact h.complete hrule

theorem performAll_cons_eq_some_iff {i : Instr} {is : List Instr} {s : State} {ts : List State} :
    performAll (i :: is) s = some ts ↔
      ∃ t rest, perform i s = some t ∧ performAll is t = some rest ∧ ts = t :: rest := by
  rw [performAll]
  cases perform i s <;> simp [eq_comm]

theorem Inv.performAll {is : List Instr} {s : State} {ts : List State} (h : Inv s)
    (hperform : performAll is s = some ts) : Inv (ts.getLastD s) := by
  induction is generalizing s ts with
  | nil =>
    cases hperform
    exact h
  | cons i is ih =>
    obtain ⟨t, rest, hfirst, hrest, rfl⟩ := performAll_cons_eq_some_iff.mp hperform
    rw [List.getLastD_cons]
    exact ih (h.perform hfirst) hrest

/-! ### The value of the first bits of a stream -/

/-- The first `n` bits as a number. -/
def valueUpTo (l : List Bit) (n : Nat) : Nat := bitsValue (l.take n)

theorem valueUpTo_add {l : List Bit} {n k : Nat} (h : n + k ≤ l.length) :
    valueUpTo l (n + k) = valueUpTo l n * 2 ^ k + bitsValue ((l.drop n).take k) ∧
      bitsValue ((l.drop n).take k) < 2 ^ k := by
  have hlength : ((l.drop n).take k).length = k := by
    rw [List.length_take, List.length_drop]
    omega
  have hlt := bitsValue_lt ((l.drop n).take k)
  rw [hlength] at hlt
  exact ⟨by rw [valueUpTo, List.take_add, bitsValue_append, hlength, valueUpTo], hlt⟩

/-! ### The stream's value lies in the encoder's interval

The decoder is nine bits ahead of the encoder's position. `InInterval l b` says that the value of the bits of `l` up to
there is in the exact interval of `b`. The flush makes it so for the last block of a session; and since an encoded bin
narrows the interval, it is so for every block before (44_decoder.md R269). -/

/-- The stream `l` reaches nine bits past the position of `b`, and its value there lies in the exact interval. -/
structure InInterval (l : List Bit) (b : Block) : Prop where
  long : b.position + 9 ≤ l.length
  ge : b.exactLow ≤ valueUpTo l (b.position + 9)
  lt : valueUpTo l (b.position + 9) < b.exactLow + b.range.toNat

/-- If the value after `k` more bits lies in a part of the interval scaled `k` times, then the value before them lies in
that part. -/
theorem in_part_of_in_scaled {value low width k tail : Nat} (htail : tail < 2 ^ k)
    (hge : low * 2 ^ k ≤ value * 2 ^ k + tail) (hlt : value * 2 ^ k + tail < low * 2 ^ k + width * 2 ^ k) :
    low ≤ value ∧ value < low + width := by
  constructor
  · refine Nat.lt_succ_iff.mp (Nat.lt_of_mul_lt_mul_right (a := 2 ^ k) ?_)
    rw [Nat.succ_mul]
    omega
  · refine Nat.lt_of_mul_lt_mul_right (a := 2 ^ k) ?_
    rw [Nat.add_mul]
    omega

/-! #### A regular bin -/

/-- What `ENC.REG` of the bin leaves of the registers that the decoder mirrors: one more position for each
doubling. -/
structure RegularEncoded (cfg : Config) (i : BitVec 16) (bin : Bit) (tab : List ContextState) (c : ContextState)
    (b b' : Block) : Prop where
  regular : EncodesRegular cfg i tab c b
  exact : b'.exactLow = (b.exactLow + partOffset cfg c bin b) * 2 ^ doublings (partWidth cfg c bin b)
  position : b'.position = b.position + doublings (partWidth cfg c bin b)
  range : b'.range.toNat = partWidth cfg c bin b * 2 ^ doublings (partWidth cfg c bin b)
  ctx : b'.ctx = some (tab.set i.toNat (adapt cfg c bin))
  binCount : b'.binCount = b.binCount + 1

theorem encRegRule_checks {cfg : Config} {b b' : Block} {i : BitVec 16} {bin : Word} {r : Result}
    (h : encRegRule i bin cfg b = .ok (b', r)) :
    b.sstate = .encActive ∧ i.toNat < nCtx cfg ∧ b.binCount.toNat < 2 ^ 32 - 1 := by
  unfold encRegRule at h
  obtain ⟨_, hstate, h⟩ := bind_ok_iff.mp h
  obtain ⟨_, hindex, h⟩ := bind_ok_iff.mp h
  obtain ⟨_, -, h⟩ := bind_ok_iff.mp h
  obtain ⟨_, hcount, -⟩ := bind_ok_iff.mp h
  exact ⟨sstate_of_checkState_encode hstate, checkCtxIndex_ok_iff.mp hindex, (countBin_cases hcount).1⟩

/-- An `ENC.REG` that completes has taken the bin's part of the exact interval and scaled it. -/
theorem encRegRule_encoded {s : State} {i : BitVec 16} {bin : Bit} {b' : Block} {r : Result} (hinv : Inv s)
    (hrule : encRegRule i (bitWord bin) s.config s.block = .ok (b', r)) :
    ∃ tab c, RegularEncoded s.config i bin tab c s.block b' := by
  obtain ⟨hactive, hindex, hcount⟩ := encRegRule_checks hrule
  have hstart := hinv.encoding hactive
  obtain ⟨c, hc⟩ := hstart.opened.table.readCtx hindex
  obtain ⟨tab, htable, hentry⟩ := readCtx_ok_iff.mp hc
  have h : EncodesRegular s.config i tab c s.block := ⟨hstart, hactive, htable, hentry, hcount⟩
  obtain ⟨-, hrange, hexact, hcoding⟩ := h.part bin
  have hrenorm := hrule
  rw [h.rule_eq] at hrenorm
  obtain ⟨m, hm, hrenorm⟩ := bind_ok_iff.mp hrenorm
  obtain ⟨_, -, hrenorm⟩ := bind_ok_iff.mp hrenorm
  cases hrenorm
  obtain ⟨-, hscaled⟩ := renormE_ok hcoding hm
  rw [hrange] at hscaled
  obtain ⟨hctx, hcounted⟩ := hscaled.kept
  exact ⟨tab, c, h, hexact ▸ hscaled.exact, hscaled.position, hrange ▸ hscaled.range, hctx, hcounted⟩

/-- A stream in the interval that the bin leaves is in the bin's part of the interval before (44_decoder.md R269). -/
theorem RegularEncoded.in_part {cfg : Config} {i : BitVec 16} {bin : Bit} {tab : List ContextState} {c : ContextState}
    {b b' : Block} {l : List Bit} (h : RegularEncoded cfg i bin tab c b b') (hl : InInterval l b') :
    b.exactLow + partOffset cfg c bin b ≤ valueUpTo l (b.position + 9) ∧
      valueUpTo l (b.position + 9) < b.exactLow + partOffset cfg c bin b + partWidth cfg c bin b := by
  obtain ⟨hlong, hge, hlt⟩ := hl
  rw [h.position, Nat.add_right_comm] at hlong hge hlt
  obtain ⟨hvalue, htail⟩ := valueUpTo_add hlong
  rw [hvalue, h.exact] at hge hlt
  rw [h.range] at hlt
  exact in_part_of_in_scaled htail hge hlt

theorem RegularEncoded.in_before {cfg : Config} {i : BitVec 16} {bin : Bit} {tab : List ContextState} {c : ContextState}
    {b b' : Block} {l : List Bit} (h : RegularEncoded cfg i bin tab c b b') (hl : InInterval l b') :
    InInterval l b := by
  obtain ⟨hge, hlt⟩ := h.in_part hl
  obtain ⟨-, hpart⟩ := h.regular.encoding.part_bounds c bin
  have hlong := hl.long
  rw [h.position] at hlong
  exact ⟨by omega, by omega, by omega⟩

/-! #### A bypass bin -/

/-- What `ENC.BYP` of the bin leaves of the registers that the decoder mirrors: one more position. -/
structure BypassEncoded (cfg : Config) (bin : Bit) (b b' : Block) : Prop where
  encoding : Encoding cfg b
  count : b.binCount.toNat < 2 ^ 32 - 1
  exact : b'.exactLow = 2 * b.exactLow + if bin then b.range.toNat else 0
  position : b'.position = b.position + 1
  range : b'.range = b.range
  ctx : b'.ctx = b.ctx
  binCount : b'.binCount = b.binCount + 1

theorem encBypRule_encoded {s : State} {bin : Bit} {b' : Block} {r : Result} (hinv : Inv s)
    (hrule : encBypRule (bitWord bin) s.config s.block = .ok (b', r)) : BypassEncoded s.config bin s.block b' := by
  obtain ⟨hactive, hcount⟩ := encBypRule_checks hrule
  have hstart := hinv.encoding hactive
  obtain ⟨hbypass, -⟩ := (encBypRule_ok_iff hstart hactive hcount).mp hrule
  obtain ⟨hexact, hposition⟩ := encodeBypass_exact hstart.counted.coding hbypass
  obtain ⟨-, hrange, -⟩ := encodeBypass_coding hstart.counted.coding hbypass
  obtain ⟨hctx, hcounted⟩ := encodeBypass_kept hstart.counted.coding hbypass
  exact ⟨hstart, hcount, hexact, hposition, hrange, hctx, hcounted⟩

/-- A stream in the interval that the bin leaves is in the bin's half of the doubled interval (44_decoder.md R269). -/
theorem BypassEncoded.in_half {cfg : Config} {bin : Bit} {b b' : Block} {l : List Bit} (h : BypassEncoded cfg bin b b')
    (hl : InInterval l b') :
    let tail := bitsValue ((l.drop (b.position + 9)).take 1)
    tail < 2 ∧ valueUpTo l (b'.position + 9) = 2 * valueUpTo l (b.position + 9) + tail ∧
      b'.exactLow ≤ 2 * valueUpTo l (b.position + 9) + tail ∧
      2 * valueUpTo l (b.position + 9) + tail < b'.exactLow + b.range.toNat := by
  obtain ⟨hlong, hge, hlt⟩ := hl
  rw [h.position, Nat.add_right_comm] at hlong hge hlt ⊢
  obtain ⟨hvalue, htail⟩ := valueUpTo_add hlong
  rw [pow_one, Nat.mul_comm] at hvalue
  rw [hvalue] at hge hlt ⊢
  rw [h.range] at hlt
  exact ⟨htail, rfl, hge, hlt⟩

theorem BypassEncoded.in_before {cfg : Config} {bin : Bit} {b b' : Block} {l : List Bit}
    (h : BypassEncoded cfg bin b b') (hl : InInterval l b') : InInterval l b := by
  obtain ⟨htail, -, hge, hlt⟩ := h.in_half hl
  have hlong := hl.long
  have hadd : (if bin then b.range.toNat else 0) ≤ b.range.toNat := by split <;> omega
  rw [h.position] at hlong
  rw [h.exact] at hge hlt
  exact ⟨by omega, by omega, by omega⟩

/-! #### The whole session -/

theorem CodedBin.in_before {op : CodedBin} {e e' : State} {l : List Bit} (hinv : Inv e)
    (hperform : perform op.encode e = some e') (hl : InInterval l e'.block) : InInterval l e.block := by
  obtain ⟨b', r, hrule, rfl⟩ := perform_eq_some_iff.mp hperform
  cases op with
  | regular i bin =>
    obtain ⟨tab, c, h⟩ := encRegRule_encoded hinv hrule
    exact h.in_before hl
  | bypass bin => exact (encBypRule_encoded hinv hrule).in_before hl

/-- A stream in the last interval of a sequence of bins is in the first. -/
theorem inInterval_of_performAll {ops : List CodedBin} {e : State} {es : List State} {l : List Bit} (hinv : Inv e)
    (hperform : performAll (ops.map CodedBin.encode) e = some es) (hl : InInterval l (es.getLastD e).block) :
    InInterval l e.block := by
  induction ops generalizing e es with
  | nil =>
    cases hperform
    exact hl
  | cons op ops ih =>
    obtain ⟨e', rest, hfirst, hrest, rfl⟩ := performAll_cons_eq_some_iff.mp hperform
    rw [List.getLastD_cons] at hl
    exact CodedBin.in_before hinv hfirst (ih (hinv.perform hfirst) hrest hl)

/-- A flush that completes writes its bits, then zeros up to the end of the byte (43_bit_sink.md R236, R237). -/
theorem Encoding.flush_writes {cfg : Config} {b b' : Block} (h : Encoding cfg b) (hf : flushE cfg b = .ok b') :
    ∃ d m pad, Scaled 7 (narrowed (b.range.toNat - 2) 2 b) d ∧
      Packed (settledBits d.first d.pending.toNat (d.low.getLsbD 9)) d m ∧
      bytesBits b'.obuf = (d.bits ++ flushBits d) ++ List.replicate pad false := by
  have hge := h.range_ge
  obtain ⟨-, hrange, -, hcoding⟩ := narrowed_part (offset := b.range.toNat - 2) (width := 2) h.coding (by omega)
    (by omega)
  obtain ⟨-, -, -, -, -, -, hpcnt⟩ := h.flush hf
  rw [flushE_eq_flushTail h] at hf
  obtain ⟨d, hd, htail⟩ := bind_ok_iff.mp hf
  obtain ⟨b₂, hput, htail⟩ := bind_ok_iff.mp htail
  obtain ⟨b₃, hwrite, htail⟩ := bind_ok_iff.mp htail
  obtain ⟨b₄, hstop, hpad⟩ := bind_ok_iff.mp htail
  obtain ⟨-, hscaled⟩ := renormE_ok hcoding hd
  rw [hrange, show doublings 2 = 7 by decide] at hscaled
  obtain ⟨m, hm, rfl⟩ := putBit_ok hscaled.coding.fits hput
  have hlow : m.low.getLsbD 8 = d.low.getLsbD 8 := by rw [hm.frame]
  have hw₃ := (writeBit_ok (b := { m with first := false, pending := 0 }) hm.fits hwrite).1
  have hw₄ := (writeBit_ok hw₃.fits hstop).1
  have hw₅ := (padByte_ok hw₄.fits hpad (by omega)).1
  refine ⟨d, m, (8 - b₄.pcnt.toNat) % 8, hscaled, hm, ?_⟩
  rw [← bits_eq_bytesBits hpcnt, hw₅.bits, hw₄.bits, hw₃.bits, hm.bits_settled m.low, flushBits, hlow]
  simp only [List.append_assoc]
  rfl

/-- The flush writes one of the two highest values of the interval, in nine bits more than the position
(43_bit_sink.md R236, R240). -/
theorem Encoding.flush_inInterval {cfg : Config} {b b' : Block} (h : Encoding cfg b) (hf : flushE cfg b = .ok b') :
    InInterval (bytesBits b'.obuf) b := by
  have hge := h.range_ge
  obtain ⟨-, -, hexact, -⟩ := narrowed_part (offset := b.range.toNat - 2) (width := 2) h.coding (by omega)
    (by omega)
  obtain ⟨d, m, pad, hscaled, hm, hbits⟩ := h.flush_writes hf
  have hlength : (d.bits ++ flushBits d).length = b.position + 9 := by
    rw [length_bits_flushed, hscaled.position, position_narrowed]
  have hvalue : valueUpTo (bytesBits b'.obuf) (b.position + 9) =
      2 * ((b.exactLow + (b.range.toNat - 2)) * 2 ^ 7 / 2 ^ 8) + 1 := by
    rw [valueUpTo, hbits, List.take_left' hlength, bitsValue_flushed hscaled.coding hm, hscaled.exact, hexact]
  refine ⟨?_, ?_, ?_⟩
  · rw [hbits, List.length_append, hlength]
    exact Nat.le_add_right _ _
  · omega
  · omega

/-! ### The decoder mirrors the encoder -/

/-- The two sessions after the same bins: the same table and the same range, the decoder nine bits past the encoder's
position, and its offset that of the stream's value from the exact low end (44_decoder.md R269). -/
structure Mirrors (e d : State) : Prop where
  encInv : Inv e
  decInv : Inv d
  active : d.block.sstate = .decActive
  config : d.config = e.config
  undeclared : d.block.hasDecl = false
  binCount : d.block.binCount = e.block.binCount
  ctx : d.block.ctx = e.block.ctx
  range : d.block.range = e.block.range
  ipos : d.block.ipos = e.block.position + 9
  offset : e.block.exactLow + d.block.low.toNat = valueUpTo (bytesBits d.block.ibuf) d.block.ipos

theorem Mirrors.decodesRegular {e d : State} {i : BitVec 16} {bin : Bit} {tab : List ContextState} {c : ContextState}
    {b' : Block} (h : Mirrors e d) (he : RegularEncoded e.config i bin tab c e.block b') :
    DecodesRegular d.config i tab c d.block where
  decoding := h.decInv.decoding h.active
  active := h.active
  table := h.ctx.trans he.regular.table
  entry := he.regular.entry
  declared := by simp [h.undeclared]
  count := by rw [h.binCount]; exact he.regular.count

/-- The two subdivisions are of equal ranges, so their parts are the same. -/
theorem Mirrors.parts {e d : State} (h : Mirrors e d) (c : ContextState) (bin : Bit) :
    partOffset d.config c bin d.block = partOffset e.config c bin e.block ∧
      partWidth d.config c bin d.block = partWidth e.config c bin e.block := by
  simp only [partOffset, partWidth, h.range, h.config, and_self]

/-- What a decode command owes the encode command before it: it completes with the bin, and the sessions mirror each
other again. -/
def Decodes (op : CodedBin) (d e' : State) : Prop :=
  ∃ d', perform op.decode d = some d' ∧ Mirrors e' d' ∧ d'.block.ibuf = d.block.ibuf ∧
    d'.response = some ⟨.ok, bitWord op.bin, 0, []⟩

/-- A regular bin: the stream's value is in the bin's part of the interval, so the offset is in the bin's part of the
range, and the decoder takes the same part (44_decoder.md R263, R269). -/
theorem Mirrors.regular {e d : State} {i : BitVec 16} {bin : Bit} {b' : Block} {r : Result} (h : Mirrors e d)
    (hrule : encRegRule i (bitWord bin) e.config e.block = .ok (b', r))
    (hl : InInterval (bytesBits d.block.ibuf) b') : Decodes (.regular i bin) d (complete b' r e) := by
  obtain ⟨tab, c, he⟩ := encRegRule_encoded h.encInv hrule
  have hd := h.decodesRegular he
  have hoffset := h.offset
  obtain ⟨hpartOffset, hpartWidth⟩ := h.parts c bin
  obtain ⟨hge, hlt⟩ := he.in_part hl
  rw [← h.ipos, ← hpartOffset] at hge hlt
  rw [← hpartWidth] at hlt
  have hbin : decodedBin d.config c d.block = bin := decodedBin_eq (by omega) (by omega)
  have hlong := hl.long
  rw [bytesBits_length, he.position, ← hpartWidth, Nat.add_right_comm, ← h.ipos] at hlong
  have hdecoded := hd.rule_cases
  rw [hd.decoded_eq, hbin, if_pos hlong] at hdecoded
  obtain ⟨-, hrangeLt, hlowLt⟩ := hd.bounds (by rwa [hbin])
  rw [hbin] at hrangeLt hlowLt
  have hperform := perform_of_ruleOf (i := .decReg i) hdecoded
  refine ⟨_, hperform, ⟨h.encInv.complete (i := .encReg i (bitWord bin)) hrule, h.decInv.perform hperform, h.active,
    h.config, h.undeclared, (congrArg (· + 1) h.binCount).trans he.binCount.symm, ?ctx, ?range, ?ipos, ?offset⟩, rfl,
    rfl⟩
  case ctx => rw [complete_block, complete_block, he.ctx, h.config]
  case range =>
    refine BitVec.eq_of_toNat_eq ?_
    rw [complete_block, complete_block, he.range, BitVec.toNat_ofNat, Nat.mod_eq_of_lt hrangeLt, hpartWidth]
  case ipos => rw [complete_block, complete_block, he.position, h.ipos, hpartWidth, Nat.add_right_comm]
  case offset =>
    rw [complete_block, complete_block, toNat_ofNat_low (by omega), (valueUpTo_add (by rwa [bytesBits_length])).1,
      he.exact, ← hpartOffset, ← hpartWidth, ← hoffset, Block.nextInput, ← Nat.add_assoc, ← Nat.add_mul]
    congr 2
    omega

/-- What the comparison takes from the doubled offset, the bin puts back. -/
theorem bypassDecoded_low {b : Block} (h : bypassValue b < 2 * b.range.toNat) :
    (bypassDecoded b).low.toNat + (if b.range.toNat ≤ bypassValue b then b.range.toNat else 0) = bypassValue b := by
  have hr := b.range.isLt
  unfold bypassDecoded
  split
  · rw [toNat_ofNat_low (by omega)]
    omega
  · rw [toNat_ofNat_low (by omega), Nat.add_zero]

/-- A bypass bin: the stream's value is in the bin's half of the doubled interval, so the comparison with the range
tells the bin (44_decoder.md R265, R269). -/
theorem Mirrors.bypass {e d : State} {bin : Bit} {b' : Block} {r : Result} (h : Mirrors e d)
    (hrule : encBypRule (bitWord bin) e.config e.block = .ok (b', r))
    (hl : InInterval (bytesBits d.block.ibuf) b') : Decodes (.bypass bin) d (complete b' r e) := by
  have he := encBypRule_encoded h.encInv hrule
  have hdecoding := h.decInv.decoding h.active
  have hoffset := h.offset
  have hlong := hl.long
  rw [bytesBits_length, he.position, Nat.add_right_comm, ← h.ipos] at hlong
  obtain ⟨-, hvalue, hge, hlt⟩ := he.in_half hl
  have hbypass : 2 * e.block.exactLow + bypassValue d.block = valueUpTo (bytesBits d.block.ibuf) (b'.position + 9) := by
    rw [hvalue, ← h.ipos, ← hoffset, bypassValue, Block.nextInput]
    omega
  rw [← hvalue, ← hbypass, he.exact, ← h.range] at hge hlt
  have hbin : d.block.range.toNat ≤ bypassValue d.block ↔ bin = true := by
    cases bin <;> simp only [if_true, Bool.false_eq_true, if_false, iff_true, iff_false] at hge hlt ⊢ <;> omega
  have hlow := bypassDecoded_low (bypassValue_bounds hdecoding.offset.low_lt
    ((nextInput_length_iff hdecoding.offset.ipos_le).mpr hlong))
  have hdecoded := hdecoding.bypass_cases h.active (by simp [h.undeclared])
    (by rw [h.binCount]; exact he.count)
  simp only [if_pos (Nat.lt_of_succ_le hlong), hbin, Bool.decide_eq_true] at hdecoded hlow
  have hperform := perform_of_ruleOf (i := .decByp) hdecoded
  have hipos : (bypassDecoded d.block).ipos = b'.position + 9 := by
    rw [he.position, Nat.add_right_comm, ← h.ipos]
    rfl
  refine ⟨_, hperform, ⟨h.encInv.complete (i := .encByp (bitWord bin)) hrule, h.decInv.perform hperform, h.active,
    h.config, h.undeclared, (congrArg (· + 1) h.binCount).trans he.binCount.symm, h.ctx.trans he.ctx.symm,
    h.range.trans he.range.symm, hipos, ?offset⟩, rfl, rfl⟩
  rw [complete_block, complete_block, hipos, he.exact, ← h.range]
  refine Eq.trans ?_ hbypass
  omega

theorem CodedBin.decodes {op : CodedBin} {e e' d : State} (h : Mirrors e d) (hperform : perform op.encode e = some e')
    (hl : InInterval (bytesBits d.block.ibuf) e'.block) : Decodes op d e' := by
  obtain ⟨b', r, hrule, rfl⟩ := perform_eq_some_iff.mp hperform
  cases op with
  | regular i bin => exact h.regular hrule hl
  | bypass bin => exact h.bypass hrule hl

/-! ### The round trip (44_decoder.md R269) -/

/-- What R269 says of the `k`-th command of each session. -/
def Agrees (ops : List CodedBin) (es ds : List State) : Prop :=
  ∀ (k : Nat) (op : CodedBin) (e d : State), ops[k]? = some op → es[k]? = some e → ds[k]? = some d →
    d.response = some ⟨.ok, bitWord op.bin, 0, []⟩ ∧ d.block.ctx = e.block.ctx ∧ d.block.range = e.block.range

theorem Agrees.nil (es ds : List State) : Agrees [] es ds := by
  rintro _ _ _ _ ⟨⟩

theorem Agrees.cons {op : CodedBin} {e d : State} {ops : List CodedBin} {es ds : List State}
    (hresponse : d.response = some ⟨.ok, bitWord op.bin, 0, []⟩) (h : Mirrors e d) (hrest : Agrees ops es ds) :
    Agrees (op :: ops) (e :: es) (d :: ds) := by
  intro k op' e' d' hop he hd
  cases k with
  | zero =>
    cases hop
    cases he
    cases hd
    exact ⟨hresponse, h.ctx, h.range⟩
  | succ k => exact hrest k op' e' d' hop he hd

/-- From sessions that mirror each other, on a stream in the last interval, every bin is decoded. -/
theorem Mirrors.decodesAll {ops : List CodedBin} {e d : State} {es : List State} (h : Mirrors e d)
    (hperform : performAll (ops.map CodedBin.encode) e = some es)
    (hl : InInterval (bytesBits d.block.ibuf) (es.getLastD e).block) :
    ∃ ds, performAll (ops.map CodedBin.decode) d = some ds ∧ ds.length = ops.length ∧ Agrees ops es ds ∧
      Mirrors (es.getLastD e) (ds.getLastD d) := by
  induction ops generalizing e d es with
  | nil =>
    cases hperform
    exact ⟨[], rfl, rfl, .nil _ _, h⟩
  | cons op ops ih =>
    obtain ⟨e', es', hfirst, hrest, rfl⟩ := performAll_cons_eq_some_iff.mp hperform
    rw [List.getLastD_cons] at hl
    have hinv := h.encInv.perform hfirst
    obtain ⟨d', hdecode, hmirrors, hibuf, hresponse⟩ :=
      CodedBin.decodes h hfirst (inInterval_of_performAll hinv hrest hl)
    obtain ⟨ds, hall, hlength, hagrees, hlast⟩ := ih hmirrors hrest (by rwa [hibuf])
    refine ⟨d' :: ds, performAll_cons_eq_some_iff.mpr ⟨d', ds, hdecode, hall, rfl⟩, by simp [hlength],
      .cons hresponse hmirrors hagrees, ?_⟩
    rwa [List.getLastD_cons, List.getLastD_cons]

/-- The block that `ENC.INIT` leaves: the seeded table and the initial interval (42_encoder.md R200, R201). -/
theorem encInitRule_started {cfg : Config} {mode : Byte} {b₀ b : Block} {r : Result}
    (hrule : encInitRule mode cfg b₀ = .ok (b, r)) : ∃ tab, seedTable cfg mode = some tab ∧ LpsLegal cfg ∧
      b.ctx = some tab ∧ b.range = 510 ∧ b.binCount = 0 ∧ b.exactLow = 0 ∧ b.position = 0 := by
  rw [encInitRule_eq] at hrule
  rcases seedContexts_cases cfg mode Block.reset with ⟨-, h⟩ | ⟨-, -, h⟩ | ⟨-, hlps, tab, htab, h⟩ <;>
    rw [h] at hrule
  · cases hrule
  · cases hrule
  · cases hrule
    refine ⟨tab, htab, hlps, rfl, rfl, rfl, ?_, rfl⟩
    simp [Block.exactLow, Block.bits, msbBits]

/-- A stream in the initial interval starts a decode session that mirrors the encode session (44_decoder.md R261). -/
theorem Mirrors.initial {mode : Byte} {s s' e : State} {input : List Byte} (hconfig : s'.config = s.config)
    (hperform : perform (.encInit mode) s = some e) (hl : InInterval (bytesBits input) e.block) :
    ∃ d, perform (.decInit mode none input) s' = some d ∧ Mirrors e d ∧ d.block.ibuf = input := by
  obtain ⟨b, r, hrule, rfl⟩ := perform_eq_some_iff.mp hperform
  obtain ⟨hencoding, hactive⟩ := encInitRule_ok hrule
  obtain ⟨tab, htab, hlps, hctx, hrange, hcount, hexact, hposition⟩ := encInitRule_started hrule
  obtain ⟨hlong, -, hlt⟩ := hl
  simp only [complete_block, hexact, hposition, hrange, Nat.zero_add, bytesBits_length] at hlong hlt
  have hfirst : bitsValue ((bytesBits input).take 9) < 510 := hlt
  have hdecoded := decInitRule_of_legal htab hlps none input s'.block
  simp only [if_pos hlong, if_neg (not_le.mpr hfirst)] at hdecoded
  rw [← hconfig] at hdecoded
  obtain ⟨hdecoding, hdecActive⟩ := decInitRule_ok hdecoded
  refine ⟨_, perform_of_ruleOf (i := .decInit mode none input) hdecoded, ⟨Encoding.inv hencoding hactive,
    Decoding.inv hdecoding (.inl hdecActive), rfl, hconfig, rfl, hcount.symm, hctx.symm, hrange.symm, ?_, ?_⟩, rfl⟩
  · rw [complete_block, complete_block, hposition]
  · rw [complete_block, complete_block, hexact, toNat_ofNat_low (by omega), Nat.zero_add]
    rfl

/-- The output of an `ENC.FIN` that completes lies in the interval it flushed. -/
theorem inInterval_of_encFin {e ef : State} (hinv : Inv e) (hperform : perform .encFin e = some ef) :
    InInterval (bytesBits ef.block.obuf) e.block := by
  obtain ⟨b, r, hrule, rfl⟩ := perform_eq_some_iff.mp hperform
  obtain ⟨_, hstate, hrest⟩ := bind_ok_iff.mp hrule
  obtain ⟨b', hflush, hend⟩ := bind_ok_iff.mp hrest
  cases hend
  have hinterval := (hinv.encoding (sstate_of_checkState_encode hstate)).flush_inInterval hflush
  exact hinterval

theorem encInit_inv {mode : Byte} {s e : State} (hperform : perform (.encInit mode) s = some e) : Inv e := by
  obtain ⟨b, r, hrule, rfl⟩ := perform_eq_some_iff.mp hperform
  obtain ⟨hencoding, hactive⟩ := encInitRule_ok hrule
  exact Encoding.inv hencoding hactive

/-- Settles O58: the flushed stream lies in the interval of every block of the session, the first among them; so the
decoder starts as the encoder did and follows it bin by bin. -/
theorem decoderReturnsTheEncodedBins : Obligations.DecoderReturnsTheEncodedBins := by
  unfold Obligations.DecoderReturnsTheEncodedBins
  intro mode ops s s' e0 ef es hinit hops hfin hconfig
  have hinv := encInit_inv hinit
  have hlast := inInterval_of_encFin (hinv.performAll hops) hfin
  obtain ⟨d0, hdec, hmirrors, hibuf⟩ := Mirrors.initial hconfig hinit (inInterval_of_performAll hinv hops hlast)
  obtain ⟨ds, hall, hlength, hagrees, hend⟩ := hmirrors.decodesAll hops (by rwa [hibuf])
  exact ⟨d0, ds, hdec, hall, hlength, hagrees, hend.ipos⟩

end Sys2Proof.Machine

namespace Sys2Proof.Machine

/-! ### The state check comes first (45_session.md R290, R291) -/

/-- A command of a row of the permission table begins with the check of its row. -/
theorem ruleOf_eq_checkState_bind {i : Instr} {k : Checked} (hi : stateCheckOf i = some k) (cfg : Config) (b : Block) :
    ∃ f : Unit → Except Cause (Block × Result), ruleOf i cfg b = checkState k b >>= f := by
  cases i with
  | encReg ctx bin | encByp bin | encFin | decReg ctx | decByp | decEnd | ctxSel se cat binIdx | ctxRd ctx =>
    cases hi
    exact ⟨_, rfl⟩
  | _ => cases hi

theorem checkState_of_ruleOf {i : Instr} {k : Checked} {cfg : Config} {b : Block} {p : Block × Result}
    (hi : stateCheckOf i = some k) (hrule : ruleOf i cfg b = .ok p) : checkState k b = .ok () := by
  obtain ⟨f, hbind⟩ := ruleOf_eq_checkState_bind hi cfg b
  obtain ⟨_, hcheck, -⟩ := bind_ok_iff.mp (hbind.symm.trans hrule)
  exact hcheck

theorem ruleOf_refused {i : Instr} {k : Checked} {b : Block} {c : Cause} (hi : stateCheckOf i = some k)
    (hrefused : refusedWith k b.sstate = some c) (cfg : Config) : ruleOf i cfg b = .error c := by
  obtain ⟨f, hrule⟩ := ruleOf_eq_checkState_bind hi cfg b
  rw [hrule, checkState_eq, hrefused, error_bind]

/-- Settles O18: the check raises the cause of the table, and nothing comes before it. -/
theorem commandsOutsideTheirStatesAreRefused : Obligations.CommandsOutsideTheirStatesAreRefused := by
  unfold Obligations.CommandsOutsideTheirStatesAreRefused
  intro i k s c hi hrefused
  rw [exec_eq_execute]
  exact ⟨_, execute_error (ruleOf_refused hi hrefused s.config), takeError_response _ c s⟩

/-- Settles O50: the word has `ABORT`'s opcode and no reserved bit set, and the rule of `ABORT` is the reset. -/
theorem abortReturnsToReset : Obligations.AbortReturnsToReset := by
  unfold Obligations.AbortReturnsToReset
  have hopcode : opcField 0x0D000000 = Opcode.abort.code := by decide
  have hreserved : (0x0D000000 : Word) &&& Opcode.abort.format.reserved = 0 := by decide
  refine ⟨fun a b l => decode_eq_ok_iff.mpr ⟨.abort, hopcode, hreserved, rfl⟩, fun s => ?_⟩
  have hrule : ruleOf .abort s.config s.block = .ok (Block.reset, {}) := rfl
  rw [exec_eq_execute, execute_ok hrule]
  rfl

/-! ### What writes `SSTATE`

No operation that a bin is made of writes `SSTATE`: a rule that changes it does so in its last assignment
(45_session.md R295). -/

/-- `SSTATE` is `σ`. -/
def StateIs (σ : SessionState) (b : Block) : Prop := b.sstate = σ

section
variable {σ : SessionState} {cfg : Config} {b : Block}

/-! #### The single registers -/

theorem writeLow_state {v : Int} (h : StateIs σ b) : Ensures (StateIs σ) (writeLow v b) := by
  intro b' hb'
  obtain ⟨-, -, rfl⟩ := writeLow_cases hb'
  exact h

theorem writeRange_state {v : Int} (h : StateIs σ b) : Ensures (StateIs σ) (writeRange v b) := by
  intro b' hb'
  obtain ⟨-, -, rfl⟩ := writeRange_cases hb'
  exact h

theorem countBin_state (h : StateIs σ b) : Ensures (StateIs σ) (countBin b) := by
  intro b' hb'
  obtain ⟨-, rfl, -⟩ := countBin_cases hb'
  exact h

theorem incPending_state (h : StateIs σ b) : Ensures (StateIs σ) (incPending b) := by
  intro b' hb'
  obtain ⟨rfl, -⟩ := incPending_ok hb'
  exact h

theorem updateContext_state {i : BitVec 16} {bin : Bit} (h : StateIs σ b) :
    Ensures (StateIs σ) (updateContext cfg i bin b) := by
  intro b' hb'
  obtain ⟨t, c, -, -, rfl⟩ := updateContext_ok_iff.mp hb'
  exact h

theorem writeBit_state {bit : Bit} (h : StateIs σ b) : Ensures (StateIs σ) (writeBit cfg bit b) :=
  .ite (.ite (.error _) (.ok h)) (.ok h)

theorem readBit_state (h : StateIs σ b) : Ensures (fun p => StateIs σ p.2) (readBit b) := by
  intro ⟨bit, b'⟩ hb'
  obtain ⟨-, rfl⟩ := readBit_ok_iff.mp hb'
  exact h

/-! #### The encoder -/

theorem writePending_state {bit : Bit} {n : Nat} (h : StateIs σ b) :
    Ensures (StateIs σ) (writePending cfg bit n b) := by
  induction n generalizing b with
  | zero => exact .ok h
  | succ n ih =>
    rw [writePending_succ]
    exact (writeBit_state h).bind fun _ h => ih h

theorem putBit_state {bit : Bit} (h : StateIs σ b) : Ensures (StateIs σ) (putBit cfg bit b) := by
  rw [putBit_eq]
  exact .bind (.ite (.ok h) (writeBit_state h)) fun _ h => writePending_state h

theorem renormBit_state (h : StateIs σ b) : Ensures (StateIs σ) (renormBit cfg b) :=
  .ite (putBit_state h) <| .ite ((writeLow_state h).bind fun _ h => putBit_state h)
    ((writeLow_state h).bind fun _ h => incPending_state h)

theorem renormE_state {n : Nat} (h : StateIs σ b) : Ensures (StateIs σ) (renormE cfg n b) := by
  induction n generalizing b with
  | zero => exact .ite (.ok h) (.error _)
  | succ n ih =>
    refine .ite (.ok h) ((renormBit_state h).bind fun _ h => ?_)
    exact (writeRange_state h).bind fun _ h => (writeLow_state h).bind fun _ h => ih h

theorem encodeDecision_state {i : BitVec 16} {bin : Bit} (h : StateIs σ b) :
    Ensures (StateIs σ) (encodeDecision cfg i bin b) :=
  .past fun _ _ => (writeRange_state h).bind fun _ h =>
    .ite (.ok h) ((writeLow_state h).bind fun _ h => writeRange_state h)

theorem encodeBypass_state {bin : Bit} (h : StateIs σ b) : Ensures (StateIs σ) (encodeBypass cfg bin b) :=
  .ite ((writeLow_state h).bind fun _ h => putBit_state h) <|
    .ite ((writeLow_state h).bind fun _ h => putBit_state h) ((writeLow_state h).bind fun _ h => incPending_state h)

/-! #### The decoder -/

theorem renormD_state {n : Nat} (h : StateIs σ b) : Ensures (StateIs σ) (renormD n b) := by
  induction n generalizing b with
  | zero => exact .ite (.ok h) (.error _)
  | succ n ih =>
    refine .ite (.ok h) ((writeRange_state h).bind fun _ h => (readBit_state h).bind fun _ h => ?_)
    exact (writeLow_state h).bind fun _ h => ih h

theorem decodeDecision_state {i : BitVec 16} (h : StateIs σ b) :
    Ensures (fun p => StateIs σ p.2) (decodeDecision cfg i b) :=
  .past fun _ _ => (writeRange_state h).bind fun _ h =>
    .ite ((writeLow_state h).bind fun _ h => (writeRange_state h).bind fun _ h => .ok h) (.ok h)

theorem decodeBypass_state (h : StateIs σ b) : Ensures (fun p => StateIs σ p.2) (decodeBypass b) :=
  (readBit_state h).bind fun _ h =>
    .ite ((writeLow_state h).bind fun _ h => .ok h) ((writeLow_state h).bind fun _ h => .ok h)

end

/-! ### The transition table (45_session.md R295) -/

/-- `SSTATE` after a command that completes, by `SSTATE` before it. -/
def completedState : Instr → SessionState → SessionState
  | .abort, _ => .idle
  | .encInit _, _ => .encActive
  | .decInit _ _ _, _ => .decActive
  | .encFin, _ => .encFinal
  | .decEnd, _ => .decEnded
  | _, σ => σ

theorem completedState_of_other {i : Instr} (hinit : isInit i = false) (habort : i ≠ .abort) (hfin : i ≠ .encFin)
    (hend : i ≠ .decEnd) (σ : SessionState) : completedState i σ = σ := by
  cases i with
  | encInit mode => cases hinit
  | decInit mode declared input => cases hinit
  | abort => exact absurd rfl habort
  | encFin => exact absurd rfl hfin
  | decEnd => exact absurd rfl hend
  | _ => rfl

/-- The rows of the table for success, from every state of the machine. -/
theorem ruleOf_state (i : Instr) (cfg : Config) (b : Block) :
    Ensures (fun p => StateIs (completedState i b.sstate) p.1) (ruleOf i cfg b) := by
  have h : StateIs b.sstate b := rfl
  cases i with
  | encInit mode => exact fun _ hrule => (encInitRule_ok hrule).2
  | decInit mode declared input => exact fun _ hrule => (decInitRule_ok hrule).2
  | abort => exact .ok rfl
  | encReg ctx bin =>
    refine .past fun _ _ => .past fun _ _ => .past fun _ _ => (countBin_state h).bind fun _ h => ?_
    refine (encodeDecision_state h).bind fun _ h => (updateContext_state h).bind fun _ h => ?_
    exact (renormE_state h).bind fun _ h => .past fun _ _ => .ok h
  | encByp bin =>
    refine .past fun _ _ => .past fun _ _ => (countBin_state h).bind fun _ h => ?_
    exact (encodeBypass_state h).bind fun _ h => .past fun _ _ => .ok h
  | encFin => exact .past fun _ _ => .past fun _ _ => .ok rfl
  | decReg ctx =>
    refine .past fun _ _ => .past fun _ _ => .past fun _ _ => (countBin_state h).bind fun _ h => ?_
    refine (decodeDecision_state h).bind fun _ h => (updateContext_state h).bind fun _ h => ?_
    exact (renormD_state h).bind fun _ h => .past fun _ _ => .ok h
  | decByp =>
    refine .past fun _ _ => .past fun _ _ => (countBin_state h).bind fun _ h => ?_
    exact (decodeBypass_state h).bind fun _ h => .past fun _ _ => .ok h
  | decEnd => exact .past fun _ _ => .ok rfl
  | _ =>
    rintro ⟨b', r⟩ hrule
    exact congrArg Block.sstate (ruleOf_keeps rfl cfg b b' r hrule)

/-- The rows of the table for an error; a failed `INIT` resets the session it was to replace (60_exceptions.md R318,
R321). -/
theorem errorEntry_sstate {init : Bool} {c : Cause} (hc : init = true → c.errorClass ≠ .illegalCommand) (b : Block) :
    (errorEntry init c b).sstate = if init = true ∨ b.sstate = .idle then .idle else .failed := by
  cases init with
  | true => rw [errorEntry_init c b (hc rfl), if_pos (.inl rfl), reset_sstate]
  | false => simp [errorEntry_running]

/-- Settles O17: a command that completes moves `SSTATE` as its rule does, and any other error than that of an `INIT`
fails the session there is. -/
theorem sessionStateFollowsTheTable : Obligations.SessionStateFollowsTheTable := by
  unfold Obligations.SessionStateFollowsTheTable
  intro i s t hexec
  rw [exec_eq_execute] at hexec
  rcases execute_cases hexec with ⟨b, r, hrule, rfl⟩ | ⟨c, hrule, rfl⟩
  · have hstate : b.sstate = completedState i s.block.sstate := ruleOf_state i _ _ _ hrule
    refine ⟨fun _ _ _ _ => ⟨?_, ?_, ?_, ?_, ?_, ?_⟩, fun _ _ _ _ h => by simp at h⟩
    · rintro rfl
      exact hstate
    · rintro mode rfl
      exact hstate
    · rintro mode declared input rfl
      exact hstate
    · rintro rfl
      exact ⟨sstate_of_checkState_encode (checkState_of_ruleOf rfl hrule), hstate⟩
    · rintro rfl
      exact ⟨sstate_of_checkState_decode (checkState_of_ruleOf rfl hrule), hstate⟩
    · intro hinit habort hfin hend
      exact hstate.trans (completedState_of_other hinit habort hfin hend _)
  · refine ⟨fun _ _ _ h => by simp at h, fun _ _ _ _ _ => ?_⟩
    exact errorEntry_sstate (fun hinit => ruleOf_init_error hinit hrule) s.block

end Sys2Proof.Machine

namespace Sys2Proof.Machine

/-! ### A command that answers an error (60_exceptions.md R318) -/

/-- An error in the response is the one the rule raised: the command took it, and answered no result. -/
theorem takeError_of_error_response {i : Instr} {s t : State} {c : Cause} {r0 r1 : Word} {bout : List Bit}
    (hexec : exec i s = .next t) (hresponse : t.response = some ⟨.error c, r0, r1, bout⟩) :
    ruleOf i s.config s.block = .error c ∧ t = takeError (isInit i) c s ∧ r0 = 0 ∧ r1 = 0 ∧ bout = [] := by
  rw [exec_eq_execute] at hexec
  rcases execute_cases hexec with ⟨b, r, -, rfl⟩ | ⟨c', hrule, rfl⟩
  · cases hresponse
  · cases hresponse
    exact ⟨hrule, rfl, rfl, rfl, rfl⟩

/-- Settles O14: outside an `INIT` the error's entry writes the record, `SSTATE` and no other register. -/
theorem errorChangesOnlyTheErrorRegisters : Obligations.ErrorChangesOnlyTheErrorRegisters := by
  unfold Obligations.ErrorChangesOnlyTheErrorRegisters
  intro i s t c r0 r1 bout hinit hexec hresponse
  obtain ⟨-, rfl, hr0, hr1, hbout⟩ := takeError_of_error_response hexec hresponse
  rw [hinit]
  exact ⟨hr0, hr1, hbout, takeError_config _ c s, takeError_commands _ c s, errorEntry_running c s.block⟩

/-- Settles O15: no cause that an `INIT` raises is of class `IllegalCommand`, so its error resets the block first. -/
theorem failedInitLeavesTheResetState : Obligations.FailedInitLeavesTheResetState := by
  unfold Obligations.FailedInitLeavesTheResetState
  intro i s t c r0 r1 bout hinit hexec hresponse
  obtain ⟨hrule, rfl, hr0, hr1, hbout⟩ := takeError_of_error_response hexec hresponse
  have hreset := errorEntry_init c s.block (ruleOf_init_error hinit hrule)
  rw [hinit, takeError_block, hreset]
  exact ⟨hr0, hr1, hbout, takeError_config _ c s, takeError_commands _ c s, rfl, errorClass_code_ne_zero c.errorClass⟩

/-- Settles O19: the error in the response is the one the rule raised, and that is one of its row. -/
theorem errorsAreThoseOfTheTable : Obligations.ErrorsAreThoseOfTheTable := by
  unfold Obligations.ErrorsAreThoseOfTheTable
  intro i s t c r0 r1 bout hinv hwf hexec hresponse
  obtain ⟨hrule, -⟩ := takeError_of_error_response hexec hresponse
  exact ruleOf_raises hinv hwf c hrule

/-! ### The registers that no bin writes

Coding a bin and flushing write the interval, the packer, the place in the input, the bin counter and the context table.
`SameControl` is the frame of those operations: every other register, the error record among them. -/

/-- `b` holds what `b₀` holds in every register that the coding operations do not write. -/
def SameControl (b₀ b : Block) : Prop :=
  b.sstate = b₀.sstate ∧ b.mode = b₀.mode ∧ b.errClass = b₀.errClass ∧ b.errCause = b₀.errCause ∧
    b.ibuf = b₀.ibuf ∧ b.hasDecl = b₀.hasDecl ∧ b.declCount = b₀.declCount

/-- The error record of `b` is that of `b₀` (10_state.md R35). -/
def SameRecord (b₀ b : Block) : Prop := b.errClass = b₀.errClass ∧ b.errCause = b₀.errCause

theorem SameControl.refl (b : Block) : SameControl b b := ⟨rfl, rfl, rfl, rfl, rfl, rfl, rfl⟩

theorem SameControl.record {b₀ b : Block} (h : SameControl b₀ b) : SameRecord b₀ b := by
  obtain ⟨-, -, hclass, hcause, -⟩ := h
  exact ⟨hclass, hcause⟩

section
variable {cfg : Config} {b₀ b : Block}

/-! #### The single registers -/

theorem writeLow_control {v : Int} (h : SameControl b₀ b) : Ensures (SameControl b₀) (writeLow v b) := by
  intro b' hb'
  obtain ⟨-, -, rfl⟩ := writeLow_cases hb'
  exact h

theorem writeRange_control {v : Int} (h : SameControl b₀ b) : Ensures (SameControl b₀) (writeRange v b) := by
  intro b' hb'
  obtain ⟨-, -, rfl⟩ := writeRange_cases hb'
  exact h

theorem countBin_control (h : SameControl b₀ b) : Ensures (SameControl b₀) (countBin b) := by
  intro b' hb'
  obtain ⟨-, rfl, -⟩ := countBin_cases hb'
  exact h

theorem incPending_control (h : SameControl b₀ b) : Ensures (SameControl b₀) (incPending b) := by
  intro b' hb'
  obtain ⟨rfl, -⟩ := incPending_ok hb'
  exact h

theorem updateContext_control {i : BitVec 16} {bin : Bit} (h : SameControl b₀ b) :
    Ensures (SameControl b₀) (updateContext cfg i bin b) := by
  intro b' hb'
  obtain ⟨t, c, -, -, rfl⟩ := updateContext_ok_iff.mp hb'
  exact h

theorem writeBit_control {bit : Bit} (h : SameControl b₀ b) : Ensures (SameControl b₀) (writeBit cfg bit b) :=
  .ite (.ite (.error _) (.ok h)) (.ok h)

theorem readBit_control (h : SameControl b₀ b) : Ensures (fun p => SameControl b₀ p.2) (readBit b) := by
  intro ⟨bit, b'⟩ hb'
  obtain ⟨-, rfl⟩ := readBit_ok_iff.mp hb'
  exact h

/-! #### The encoder -/

theorem writePending_control {bit : Bit} {n : Nat} (h : SameControl b₀ b) :
    Ensures (SameControl b₀) (writePending cfg bit n b) := by
  induction n generalizing b with
  | zero => exact .ok h
  | succ n ih =>
    rw [writePending_succ]
    exact (writeBit_control h).bind fun _ h => ih h

theorem putBit_control {bit : Bit} (h : SameControl b₀ b) : Ensures (SameControl b₀) (putBit cfg bit b) := by
  rw [putBit_eq]
  exact .bind (.ite (.ok h) (writeBit_control h)) fun _ h => writePending_control h

theorem padByte_control {n : Nat} (h : SameControl b₀ b) : Ensures (SameControl b₀) (padByte cfg n b) := by
  induction n generalizing b with
  | zero => exact .ok h
  | succ n ih =>
    rw [padByte_succ]
    exact .ite (.ok h) ((writeBit_control h).bind fun _ h => ih h)

theorem renormBit_control (h : SameControl b₀ b) : Ensures (SameControl b₀) (renormBit cfg b) :=
  .ite (putBit_control h) <| .ite ((writeLow_control h).bind fun _ h => putBit_control h)
    ((writeLow_control h).bind fun _ h => incPending_control h)

theorem renormE_control {n : Nat} (h : SameControl b₀ b) : Ensures (SameControl b₀) (renormE cfg n b) := by
  induction n generalizing b with
  | zero => exact .ite (.ok h) (.error _)
  | succ n ih =>
    refine .ite (.ok h) ((renormBit_control h).bind fun _ h => ?_)
    exact (writeRange_control h).bind fun _ h => (writeLow_control h).bind fun _ h => ih h

theorem encodeDecision_control {i : BitVec 16} {bin : Bit} (h : SameControl b₀ b) :
    Ensures (SameControl b₀) (encodeDecision cfg i bin b) :=
  .past fun _ _ => (writeRange_control h).bind fun _ h =>
    .ite (.ok h) ((writeLow_control h).bind fun _ h => writeRange_control h)

theorem encodeBypass_control {bin : Bit} (h : SameControl b₀ b) :
    Ensures (SameControl b₀) (encodeBypass cfg bin b) := by
  refine .ite ?_ (.ite ?_ ?_) <;> refine (writeLow_control h).bind fun _ h => ?_
  · exact putBit_control h
  · exact putBit_control h
  · exact incPending_control h

theorem flushE_control (h : SameControl b₀ b) : Ensures (SameControl b₀) (flushE cfg b) := by
  refine (writeRange_control h).bind fun _ h => (writeLow_control h).bind fun _ h => ?_
  refine (writeRange_control h).bind fun _ h => (renormE_control h).bind fun _ h => ?_
  refine (putBit_control h).bind fun _ h => (writeBit_control h).bind fun _ h => ?_
  exact (writeBit_control h).bind fun _ h => padByte_control h

/-! #### The decoder -/

theorem renormD_control {n : Nat} (h : SameControl b₀ b) : Ensures (SameControl b₀) (renormD n b) := by
  induction n generalizing b with
  | zero => exact .ite (.ok h) (.error _)
  | succ n ih =>
    refine .ite (.ok h) ((writeRange_control h).bind fun _ h => (readBit_control h).bind fun _ h => ?_)
    exact (writeLow_control h).bind fun _ h => ih h

theorem decodeDecision_control {i : BitVec 16} (h : SameControl b₀ b) :
    Ensures (fun p => SameControl b₀ p.2) (decodeDecision cfg i b) :=
  .past fun _ _ => (writeRange_control h).bind fun _ h =>
    .ite ((writeLow_control h).bind fun _ h => (writeRange_control h).bind fun _ h => .ok h) (.ok h)

theorem decodeBypass_control (h : SameControl b₀ b) : Ensures (fun p => SameControl b₀ p.2) (decodeBypass b) := by
  refine (readBit_control h).bind fun _ h => .ite ?_ ?_ <;> exact (writeLow_control h).bind fun _ h => .ok h

end

/-! ### The error record (60_exceptions.md R319) -/

/-- A command within a session that completes writes no error register. -/
theorem ruleOf_record {i : Instr} (hinit : isInit i = false) (habort : i ≠ .abort) (cfg : Config) (b : Block) :
    Ensures (fun p => SameRecord b p.1) (ruleOf i cfg b) := by
  have h := SameControl.refl b
  cases i with
  | encInit mode => cases hinit
  | decInit mode declared input => cases hinit
  | abort => exact absurd rfl habort
  | encReg ctx bin =>
    refine .past fun _ _ => .past fun _ _ => .past fun _ _ => (countBin_control h).bind fun _ h => ?_
    refine (encodeDecision_control h).bind fun _ h => (updateContext_control h).bind fun _ h => ?_
    exact (renormE_control h).bind fun _ h => .past fun _ _ => .ok h.record
  | encByp bin =>
    refine .past fun _ _ => .past fun _ _ => (countBin_control h).bind fun _ h => ?_
    exact (encodeBypass_control h).bind fun _ h => .past fun _ _ => .ok h.record
  | encFin => exact .past fun _ _ => (flushE_control h).bind fun _ h => .ok h.record
  | decReg ctx =>
    refine .past fun _ _ => .past fun _ _ => .past fun _ _ => (countBin_control h).bind fun _ h => ?_
    refine (decodeDecision_control h).bind fun _ h => (updateContext_control h).bind fun _ h => ?_
    exact (renormD_control h).bind fun _ h => .past fun _ _ => .ok h.record
  | decByp =>
    refine .past fun _ _ => .past fun _ _ => (countBin_control h).bind fun _ h => ?_
    exact (decodeBypass_control h).bind fun _ h => .past fun _ _ => .ok h.record
  | decEnd => exact .past fun _ _ => .ok h.record
  | _ =>
    rintro ⟨b', r⟩ hrule
    exact ruleOf_keeps rfl cfg b b' r hrule ▸ h.record

/-- An error finds the record taken and leaves it. -/
theorem errorEntry_record (c : Cause) {b : Block} (h : b.errClass ≠ 0) : SameRecord b (errorEntry false c b) := by
  rw [errorEntry_running]
  exact ⟨if_neg h, if_neg h⟩

/-- Settles O16: a command that completes does not write the record, and one that fails writes it only when it is
clear. -/
theorem firstErrorIsKept : Obligations.FirstErrorIsKept := by
  unfold Obligations.FirstErrorIsKept
  intro i s t hinit habort hrecorded hexec
  rw [exec_eq_execute, hinit] at hexec
  rcases execute_cases hexec with ⟨b, r, hrule, rfl⟩ | ⟨c, -, rfl⟩
  · exact ruleOf_record hinit habort _ _ _ hrule
  · exact errorEntry_record c hrecorded

end Sys2Proof.Machine

namespace Sys2Proof.Machine

/-! ### Waiting (70_reset_and_hazards.md R341) -/

theorem fetch_of_commands_nil {s : State} (h : s.commands = []) : fetch s = none := by
  simp [fetch, h]

/-- With nothing fetched the block waits for the caller. -/
theorem step_of_fetch_none {s : State} (hfetch : fetch s = none) : step s = .next s := by
  simp [step, hfetch]

/-- Settles O5: nothing is fetched from an empty list of commands, and a step that fetches nothing waits. -/
theorem stepWaitsWhenNothingIsPresented : Obligations.StepWaitsWhenNothingIsPresented := by
  unfold Obligations.StepWaitsWhenNothingIsPresented
  intro s hcommands
  exact step_of_fetch_none (fetch_of_commands_nil hcommands)

end Sys2Proof.Machine
